-- ==== Sys2Proof/Word.lean ====
section
/-! DEFINITION. The words of EGNAL-1: bits, bytes, 48-bit command words and 40-bit response words
(spec/00_scope.md R6, R7; spec/30_encoding.md R52 to R54). -/

namespace Sys2Proof

/-- One bit of the bit buffer: `true` is `1` (spec/10_state.md R14). -/
abbrev Bit := Bool

/-- One byte of the byte port (spec/30_encoding.md R50, `bo_data`). -/
abbrev Byte := BitVec 8

/-- A command word, `CMD_W = 48` bits (spec/30_encoding.md R52, R53). -/
abbrev CmdWord := BitVec 48

/-- A response word, `RSP_W = 40` bits (spec/30_encoding.md R54). -/
abbrev RspWord := BitVec 40

end Sys2Proof
end

