-- ==== Sys2Proof/Syntax.lean ====
section
/-! DEFINITION. The ten commands of EGNAL-1, one constructor per row of spec/opcode_table.json
(spec/30_encoding.md R58), with the operands of R57 as the mathematical integers R63 writes them in. -/

namespace Sys2Proof

/-- A command. The ranges the fields of the command word can carry are checked by `Instr.wf`. -/
inductive Instr where
  /-- `BE_NEW`: create an empty BitEmitter (R112). -/
  | beNew
  /-- `NAL_START`: `forbidden_zero_bit`, `nal_ref_idc`, `nal_unit_type`, and `long_sc` (true: the 4-byte
  start code) (R121). -/
  | nalStart (fzb : Bool) (ref typ : Nat) (longSc : Bool)
  /-- `APPEND_BIT b` (R81). -/
  | appendBit (b : Nat)
  /-- `APPEND_BITS n, raw` (R83). -/
  | appendBits (n : Int) (raw : Nat)
  /-- `APPEND_UE v` (R92). -/
  | appendUe (v : Int)
  /-- `APPEND_SE v` (R96). -/
  | appendSe (v : Int)
  /-- `BIT_LENGTH` (R114). -/
  | bitLength
  /-- `TO_BYTES` (R116). -/
  | toBytes
  /-- `FINALIZE` (R127). -/
  | finalize
  /-- `FLUSH` (R131). -/
  | flush
deriving DecidableEq, Repr

end Sys2Proof
end

