-- ==== Sys2Proof/WellFormed.lean ====
section
/-! DEFINITION. Which commands a command word can carry: the operand ranges of spec/30_encoding.md R57 and R63. -/

namespace Sys2Proof

/-- The operands fit their fields: `ref` in 0..3, `typ` in 0..31, `b` and `raw` in 0..2^32-1, `n` in -128..127,
`v` in -2^31..2^31-1 (R57, R63). -/
def Instr.wf : Instr → Bool
  | .beNew => true
  | .nalStart _ ref typ _ => ref < 4 && typ < 32
  | .appendBit b => b < 2 ^ 32
  | .appendBits n raw => -128 ≤ n && n ≤ 127 && raw < 2 ^ 32
  | .appendUe v => -2 ^ 31 ≤ v && v < 2 ^ 31
  | .appendSe v => -2 ^ 31 ≤ v && v < 2 ^ 31
  | .bitLength => true
  | .toBytes => true
  | .finalize => true
  | .flush => true

end Sys2Proof
end

