-- ==== Sys2Proof/Decode.lean ====
section
/-! DEFINITION. The command encoding (spec/30_encoding.md sections 2 to 5): the fields of a command word, the
decoder, total on every word and rejecting by name, the encoder, and the opcode map as match and mask. -/

namespace Sys2Proof

/-- `cmd_word[47:40]` (R53). -/
def opField (w : CmdWord) : BitVec 8 := w.extractLsb' 40 8

/-- `cmd_word[39:32]` (R53). -/
def auxField (w : CmdWord) : BitVec 8 := w.extractLsb' 32 8

/-- `cmd_word[31:0]` (R53). -/
def immField (w : CmdWord) : BitVec 32 := w.extractLsb' 0 32

/-- The command word with these three fields (R53). -/
def mkWord (op aux : BitVec 8) (imm : BitVec 32) : CmdWord := op ++ aux ++ imm

/-- What the decoder reads from a word: a command, or one of the two ways a word is none (R59, R60). -/
inductive Decoded where
  | legal (i : Instr)
  /-- `op` is none of the ten of R58 (R60). -/
  | unknownOpcode (op : BitVec 8)
  /-- `op` is this command's, but a field marked "must be 0" is not 0 (R59). -/
  | reservedField (mnemonic : String)
deriving DecidableEq, Repr

/-- A command whose reserved fields must be zero (R59). -/
def needZero (mnemonic : String) (zero : Bool) (i : Instr) : Decoded :=
  if zero then .legal i else .reservedField mnemonic

/-- `NAL_START`'s operands: `aux[7]`, `aux[6:5]`, `aux[4:0]`, `imm[0]` (R57). -/
def decodeNalStart (aux : BitVec 8) (imm : BitVec 32) : Instr :=
  .nalStart (aux.getLsbD 7) (aux.extractLsb' 5 2).toNat (aux.extractLsb' 0 5).toNat (imm.getLsbD 0)

/-- The decoder, from the fields (R57, R58): sign extension for `aux` of `APPEND_BITS` and for `imm` of
`APPEND_UE` and `APPEND_SE` only (R61). -/
def decodeFields (op aux : BitVec 8) (imm : BitVec 32) : Decoded :=
  if op = 0x01#8 then needZero "BE_NEW" (aux == 0 && imm == 0) .beNew
  else if op = 0x02#8 then needZero "NAL_START" (imm.extractLsb' 1 31 == 0) (decodeNalStart aux imm)
  else if op = 0x10#8 then needZero "APPEND_BIT" (aux == 0) (.appendBit imm.toNat)
  else if op = 0x11#8 then .legal (.appendBits aux.toInt imm.toNat)
  else if op = 0x12#8 then needZero "APPEND_UE" (aux == 0) (.appendUe imm.toInt)
  else if op = 0x13#8 then needZero "APPEND_SE" (aux == 0) (.appendSe imm.toInt)
  else if op = 0x20#8 then needZero "BIT_LENGTH" (aux == 0 && imm == 0) .bitLength
  else if op = 0x21#8 then needZero "TO_BYTES" (aux == 0 && imm == 0) .toBytes
  else if op = 0x30#8 then needZero "FINALIZE" (aux == 0 && imm == 0) .finalize
  else if op = 0x31#8 then needZero "FLUSH" (aux == 0 && imm == 0) .flush
  else .unknownOpcode op

/-- The decoder, total on all 2^48 words (R60). -/
def decode (w : CmdWord) : Decoded := decodeFields (opField w) (auxField w) (immField w)

/-- The command a word is, if it is one. -/
def Decoded.instr? : Decoded → Option Instr
  | .legal i => some i
  | .unknownOpcode _ => none
  | .reservedField _ => none

/-- What the decoder reads from the `nbits` low bits of `w`, every higher bit 0. The table's numbering is R53's: one
48-bit word, bit 0 its least significant bit. -/
def decodeTableWord (nbits w : Nat) : Option Instr := (decode (BitVec.ofNat 48 (w % 2 ^ nbits))).instr?

/-- The opcode of a command (R58). -/
def Instr.opcode : Instr → BitVec 8
  | .beNew => 0x01#8
  | .nalStart _ _ _ _ => 0x02#8
  | .appendBit _ => 0x10#8
  | .appendBits _ _ => 0x11#8
  | .appendUe _ => 0x12#8
  | .appendSe _ => 0x13#8
  | .bitLength => 0x20#8
  | .toBytes => 0x21#8
  | .finalize => 0x30#8
  | .flush => 0x31#8

/-- The header byte `aux` of `NAL_START`: one bit, two bits, five bits (R57). -/
def headerAux (fzb : Bool) (ref typ : Nat) : BitVec 8 :=
  BitVec.ofBool fzb ++ BitVec.ofNat 2 ref ++ BitVec.ofNat 5 typ

/-- The `aux` field of a command (R57, R63). -/
def Instr.aux : Instr → BitVec 8
  | .nalStart fzb ref typ _ => headerAux fzb ref typ
  | .appendBits n _ => BitVec.ofInt 8 n
  | .beNew => 0
  | .appendBit _ => 0
  | .appendUe _ => 0
  | .appendSe _ => 0
  | .bitLength => 0
  | .toBytes => 0
  | .finalize => 0
  | .flush => 0

/-- The `imm` field of a command (R57, R63). -/
def Instr.imm : Instr → BitVec 32
  | .nalStart _ _ _ longSc => if longSc then 1 else 0
  | .appendBit b => BitVec.ofNat 32 b
  | .appendBits _ raw => BitVec.ofNat 32 raw
  | .appendUe v => BitVec.ofInt 32 v
  | .appendSe v => BitVec.ofInt 32 v
  | .beNew => 0
  | .bitLength => 0
  | .toBytes => 0
  | .finalize => 0
  | .flush => 0

/-- The command word of a command (R53, R63). That an operand outside R63's range is cut to its field is the model's choice
(log 22). -/
def encode (i : Instr) : CmdWord := mkWord i.opcode i.aux i.imm

/-- One row of the opcode map (R58): a word `w` is the command if and only if `w AND mask = pattern`. -/
structure OpRow where
  mnemonic : String
  pattern  : CmdWord
  mask     : CmdWord
deriving DecidableEq, Repr

/-- The row of a word: its operand bits masked out (R58). -/
def OpRow.admits (r : OpRow) (w : CmdWord) : Bool := w &&& r.mask == r.pattern

/-- The row of a command in the opcode map (R58; spec/opcode_table.json). -/
def Instr.row : Instr → OpRow
  | .beNew => ⟨"BE_NEW", 0x010000000000#48, 0xFFFFFFFFFFFF#48⟩
  | .nalStart _ _ _ _ => ⟨"NAL_START", 0x020000000000#48, 0xFF00FFFFFFFE#48⟩
  | .appendBit _ => ⟨"APPEND_BIT", 0x100000000000#48, 0xFFFF00000000#48⟩
  | .appendBits _ _ => ⟨"APPEND_BITS", 0x110000000000#48, 0xFF0000000000#48⟩
  | .appendUe _ => ⟨"APPEND_UE", 0x120000000000#48, 0xFFFF00000000#48⟩
  | .appendSe _ => ⟨"APPEND_SE", 0x130000000000#48, 0xFFFF00000000#48⟩
  | .bitLength => ⟨"BIT_LENGTH", 0x200000000000#48, 0xFFFFFFFFFFFF#48⟩
  | .toBytes => ⟨"TO_BYTES", 0x210000000000#48, 0xFFFFFFFFFFFF#48⟩
  | .finalize => ⟨"FINALIZE", 0x300000000000#48, 0xFFFFFFFFFFFF#48⟩
  | .flush => ⟨"FLUSH", 0x310000000000#48, 0xFFFFFFFFFFFF#48⟩

/-- The opcode map, the ten rows of R58 in its order. -/
def opcodeMap : List OpRow :=
  [Instr.row .beNew, Instr.row (.nalStart false 0 0 false), Instr.row (.appendBit 0), Instr.row (.appendBits 0 0),
   Instr.row (.appendUe 0), Instr.row (.appendSe 0), Instr.row .bitLength, Instr.row .toBytes, Instr.row .finalize,
   Instr.row .flush]

end Sys2Proof
end

