-- ==== Sys2Proof/Config.lean ====
section
/-! DEFINITION. The parameters of EGNAL-1 (spec/00_scope.md R6) and the model's free values.

The fixed parameters are constants. The open parameter `CAP_BITS` is data a State carries (`State.cap`),
so that every statement quantifies over it. A free value is an opaque constant without a body: nothing
can be proved about what it is. -/

namespace Sys2Proof.Config

/-- `XLEN`: the width of the `imm` field (R6). -/
def xlen : Nat := 32

/-- `WFIELD`: the width of the `aux` field (R6). -/
def wField : Nat := 8

/-- `W_MAX`: the largest width one `APPEND_BITS` can append (R6). -/
def wMax : Nat := 127

/-- `EPB`: emulation-prevention byte insertion, fixed off (R6; 92_eei_decisions.md D20; log 14). -/
def epb : Bool := false

/-- The default of `CAP_BITS` (R6). -/
def capDefault : Nat := 4096

/-- The smallest legal `CAP_BITS` (R6). -/
def capMin : Nat := 112

/-- The legal values of `CAP_BITS`: unbounded (`none`), or a multiple of 8, at least 112, less than 2^31 (R6). -/
def capLegal : Option Nat → Bool
  | none => true
  | some c => c % 8 == 0 && capMin ≤ c && c < 2 ^ 31

/-- FREE VALUE (log 5): what `st_len` shows in `FAILED`, where spec/10_state.md R17 leaves it unspecified
(93_implementation_defined.md U5). Applied to the counter `State.draw`. -/
opaque freeStLen : Nat → BitVec 32

/-- FREE VALUE (log 5): what `st_aligned` shows in `FAILED` (R17; U5). Applied to the counter `State.draw`. -/
opaque freeStAligned : Nat → Bool

/-- FREE VALUE (log 6): what a 32-bit length field shows for a length of 2^32 or more, which only an
unbounded buffer can reach and for which spec/30_encoding.md R54 states no value. -/
opaque freeLongLen : Nat → BitVec 32

/-- FREE VALUE (log 21): what the host driver's setter does with a `level_number` that is no integer, which
spec/44_parameter_set_sequences.md R144 does not treat (91_not_in_source.md N12): the `level_idc` it takes, or `none`
where it refuses the number. -/
opaque freeLevelIdc : Rat → Option Int

end Sys2Proof.Config
end

