-- ==== Sys2Proof/Machine/State.lean ====
section
/-! DEFINITION. The state of EGNAL-1 as plain data (spec/10_state.md; spec/20_memory.md R30, R37; spec/30_encoding.md
R54 to R56), the host's moves, and the reset state (R21, R22). -/

namespace Sys2Proof.Machine

/-- The phase register (R12): `IDLE`, `RAW`, `OPEN`, `FINAL`, `FLUSHED`, `FAILED`. The values 5 and 6 are never
held, so the type has no name for them. -/
inductive Phase where
  /-- `IDLE` (0): after reset, no constructor command has run. -/
  | idle
  /-- `RAW` (1): a bare BitEmitter. -/
  | raw
  /-- `OPEN` (2): a NalUnitWriter accepting payload bits. -/
  | opened
  /-- `FINAL` (3): trailing bits applied, ready to flush. -/
  | finalized
  /-- `FLUSHED` (4): flushed once. -/
  | flushed
  /-- `FAILED` (7): a fatal fault happened. -/
  | failed
deriving DecidableEq, Repr

/-- The causes of spec/60_exceptions.md R171. `unsupportedFeature` is raised by the host driver only (R174). -/
inductive Cause where
  | invalidWidth
  | invalidFieldValue
  | unsupportedFeature
  | invalidState
  | alreadyFlushed
  | notByteAligned
  | illegalCommand
  | bufferOverflow
deriving DecidableEq, Repr

/-- A response word by its two fields (R54). -/
structure Response where
  /-- `rsp_word[39:32]`: 0, or the cause code of the fault. -/
  status : BitVec 8
  /-- `rsp_word[31:0]`: the buffer length on success, 0 on a fault. -/
  data   : BitVec 32
deriving DecidableEq, Repr

/-- The destination mark of a beat (R37, R56): `bo_dest = 1` is `SINK`, 0 is `RET`. -/
inductive Dest where
  | sink
  | ret
deriving DecidableEq, Repr

/-- One beat of the byte port (R56): `bo_data`, `bo_last`, `bo_dest`. -/
structure Beat where
  data : Byte
  last : Bool
  dest : Dest
deriving DecidableEq, Repr

/-- What the host does next (R50, R51, R55, R56; spec/70_reset_and_hazards.md R200, R205; log 1). -/
inductive HostMove where
  /-- One transfer-to-transfer span of R51: the word is transferred, every beat is taken, the response is taken. -/
  | command (w : CmdWord)
  /-- Only the transfer on the command port: the beats and the response stay on their ports. -/
  | offer (w : CmdWord)
  /-- `bo_ready` for one transfer. -/
  | takeBeat
  /-- `rsp_ready` for one transfer. -/
  | takeResponse
  /-- One edge with `rst = 1`, perhaps with a command word on offer at the same edge (60_exceptions.md R190). -/
  | reset (offered : Option CmdWord)
deriving DecidableEq, Repr

/-- The state. `phase`, `buf` and `faults` are the block's own (R22); `bytePort` and `rspPort` are what is still on
its ports (R21, R55, R56); `sink`, `ret` and `responses` are the output logs (R20, R37, R42); `cap` is the parameter
`CAP_BITS` (log 2); `moves` and `draw` are the model's own (logs 1 and 5). -/
structure State where
  /-- `CAP_BITS` (spec/00_scope.md R6), `none` for unbounded. No step writes it. -/
  cap       : Option Nat
  /-- R12. -/
  phase     : Phase
  /-- The bit buffer, first appended bit first (R14). -/
  buf       : List Bit
  /-- The sticky fault mask (R16). -/
  faults    : BitVec 9
  /-- The beats of the command in progress not yet transferred (R56). -/
  bytePort  : List Beat
  /-- The response of the command in progress, until it is transferred (R55). -/
  rspPort   : Option Response
  /-- The bytes the sink has accepted (R37). -/
  sink      : List Byte
  /-- The byte sequences on the return channel, one per `emit` to `RET` (R37). -/
  ret       : List (List Byte)
  /-- The responses transferred, oldest first (R42 item 3). -/
  responses : List Response
  /-- The host's moves not yet made, next first (log 1). -/
  moves     : List HostMove
  /-- The counter free values are applied to (log 5). -/
  draw      : Nat
deriving DecidableEq, Repr

/-- Where the machine stops. -/
inductive Fault where
  /-- Raised by `FLUSH` in `FINAL` when the buffer length is not a multiple of 8: `pack` "is defined only when
  `len mod 8 = 0`" (spec/20_memory.md R35). SAFE: no reachable state meets it (spec/43_nal_framing.md R129, R131;
  log 10), so the stop hides no behaviour of the block. -/
  | packUndefined
deriving DecidableEq, Repr

/-- Where the model has no meaning. -/
inductive Refusal where
  /-- Answered by `exec`'s arm of a command that has no meaning yet. SAFE: the model stops where the block goes on. -/
  | notModelled (mnemonic : String)
deriving DecidableEq, Repr

/-- The machine right after reset (R21, R22): `(IDLE, [], 0)`, nothing pending. The parameter has its default (log 2), the
logs are empty (log 7), the host has made no plans (log 12). -/
def State.reset : State where
  cap := some Config.capDefault
  phase := .idle
  buf := []
  faults := 0
  bytePort := []
  rspPort := none
  sink := []
  ret := []
  responses := []
  moves := []
  draw := 0

end Sys2Proof.Machine
end

