-- ==== Sys2Proof/Machine/Flags.lean ====
section
/-! DEFINITION. The codes of the phases and causes, the sticky fault mask, and the outputs the block drives (spec/10_state.md
R12, R16, R17; spec/30_encoding.md R50, R54 to R56; spec/60_exceptions.md R171, R173). -/

namespace Sys2Proof.Machine

/-- The value of the phase register (R12). -/
def Phase.code : Phase → BitVec 3
  | .idle => 0
  | .raw => 1
  | .opened => 2
  | .finalized => 3
  | .flushed => 4
  | .failed => 7

/-- The cause code (R171). -/
def Cause.code : Cause → Nat
  | .invalidWidth => 1
  | .invalidFieldValue => 2
  | .unsupportedFeature => 3
  | .invalidState => 4
  | .alreadyFlushed => 5
  | .notByteAligned => 6
  | .illegalCommand => 7
  | .bufferOverflow => 8

/-- The causes that end the instance (R173). -/
def Cause.fatal : Cause → Bool
  | .invalidState => true
  | .alreadyFlushed => true
  | .notByteAligned => true
  | .invalidWidth => false
  | .invalidFieldValue => false
  | .unsupportedFeature => false
  | .illegalCommand => false
  | .bufferOverflow => false

/-- `faults[code(c)] <- 1`, every other bit kept (R16, R178). -/
def setFault (faults : BitVec 9) (c : Cause) : BitVec 9 := faults ||| BitVec.twoPow 9 c.code

/-- A length in a 32-bit field (R17, R54). For a length of 2^32 or more no value is stated: a free value (log 6). -/
def lenWord (len : Nat) : BitVec 32 :=
  if len < 2 ^ 32 then BitVec.ofNat 32 len else Config.freeLongLen len

/-- `len` (spec/00_scope.md R8): never stored. -/
def State.len (s : State) : Nat := s.buf.length

/-- The response word (R54). -/
def Response.word (r : Response) : RspWord := r.status ++ r.data

/-- The response of a success: status 0, data the length (R54). -/
def okResponse (len : Nat) : Response := ⟨0, lenWord len⟩

/-- The response of a fault: its code, data 0 (R54). -/
def faultResponse (c : Cause) : Response := ⟨BitVec.ofNat 8 c.code, 0⟩

/-- `st_phase` (R17). What it shows while the beats of a `FLUSH` are pending is the model's choice (log 19). -/
def stPhase (s : State) : BitVec 3 := s.phase.code

/-- `st_len` (R17): unspecified in `FAILED`. -/
def stLen (s : State) : BitVec 32 :=
  match s.phase with
  | .idle => 0
  | .raw => lenWord s.len
  | .opened => lenWord s.len
  | .finalized => lenWord s.len
  | .flushed => lenWord s.len
  | .failed => Config.freeStLen s.draw

/-- `st_aligned` (R17): unspecified in `FAILED`. In `IDLE` there is no buffer and the length shown is 0. -/
def stAligned (s : State) : Bool :=
  match s.phase with
  | .idle => true
  | .raw => s.len % 8 == 0
  | .opened => s.len % 8 == 0
  | .finalized => s.len % 8 == 0
  | .flushed => s.len % 8 == 0
  | .failed => Config.freeStAligned s.draw

/-- `st_faults` (R17). -/
def stFaults (s : State) : BitVec 9 := s.faults

/-- `cmd_ready`: no command is in progress (R51). -/
def cmdReady (s : State) : Bool := s.rspPort.isNone && s.bytePort.isEmpty

/-- `bo_valid`: a beat is on offer (R50, R56). -/
def boValid (s : State) : Bool := !s.bytePort.isEmpty

/-- `bo_data`, `bo_last` and `bo_dest` of the beat on offer (R56). -/
def boBeat (s : State) : Option Beat := s.bytePort.head?

/-- `bo_dest` as a wire: 1 for `SINK` (R50). -/
def Dest.wire : Dest → BitVec 1
  | .sink => 1
  | .ret => 0

/-- `rsp_valid`: the response is offered when every beat of the command has been transferred (R55). -/
def rspValid (s : State) : Bool := s.rspPort.isSome && s.bytePort.isEmpty

/-- `rsp_word` while `rsp_valid` is 1 (R50, R54). -/
def rspWord (s : State) : Option RspWord := if rspValid s then s.rspPort.map Response.word else none

end Sys2Proof.Machine
end

