-- ==== Sys2Proof/Machine/Operands.lean ====
section
/-! DEFINITION. The bit sequences the operands of the commands stand for, on exact integers (spec/00_scope.md R7), and
their packing into bytes (spec/20_memory.md R31, R35). -/

namespace Sys2Proof.Machine

/-- `zeros(k)` (R7). -/
def zeros (k : Nat) : List Bit := List.replicate k false

/-- `bits_msb(x, n)`: the bits `n-1` down to 0 of `x`, bit `i` being `(x div 2^i) mod 2` (R7). -/
def bitsMsb (x : Nat) : Nat → List Bit
  | 0 => []
  | n + 1 => decide (x / 2 ^ n % 2 = 1) :: bitsMsb x n

/-- The number an MSB-first bit sequence stands for: the inverse of `bitsMsb` (R31, R32). -/
def natOfBits : List Bit → Nat
  | [] => 0
  | b :: bs => b.toNat * 2 ^ bs.length + natOfBits bs

/-- `floor_log2(x)` for `x >= 1` (R7). -/
def floorLog2 (x : Nat) : Nat := Nat.log2 x

/-- `ue_code(c)` (spec/41_exp_golomb.md R91): `k` zeros, a 1, and the `k` bits of the suffix. -/
def ueCode (c : Nat) : List Bit :=
  zeros (floorLog2 (c + 1)) ++ true :: bitsMsb (c + 1 - 2 ^ floorLog2 (c + 1)) (floorLog2 (c + 1))

/-- `se_map(v)`, the zig-zag rule (R95). -/
def seMap (v : Int) : Nat := if v ≤ 0 then 2 * v.natAbs else (2 * v - 1).toNat

/-- `se_unmap(c)`, its inverse (R97). -/
def seUnmap (c : Nat) : Int := if c % 2 = 1 then ((c + 1) / 2 : Nat) else -((c / 2 : Nat) : Int)

/-- Count the zeros before the first 1, and give the bits after that 1. -/
def splitZeros : List Bit → Option (Nat × List Bit)
  | [] => none
  | true :: rest => some (0, rest)
  | false :: rest => (splitZeros rest).map fun (k, r) => (k + 1, r)

/-- `ue_decode(s)` and what follows the code (R98). The block has no decoder: this states the property only. -/
def ueDecode (s : List Bit) : Option (Nat × List Bit) :=
  match splitZeros s with
  | none => none
  | some (k, r) => if r.length < k then none else some (2 ^ k - 1 + natOfBits (r.take k), r.drop k)

/-- The start code: the bits of `00 00 00 01` or of `00 00 01` (spec/43_nal_framing.md R121). -/
def startCode (longSc : Bool) : List Bit := zeros (if longSc then 31 else 23) ++ [true]

/-- The header byte's bits: `forbidden_zero_bit = 0`, `nal_ref_idc`, `nal_unit_type` (R121). -/
def headerBits (ref typ : Nat) : List Bit := [false] ++ bitsMsb ref 2 ++ bitsMsb typ 5

/-- The number of zero bits after the stop bit, for a buffer of length `len` (R126). -/
def trailingPad (len : Nat) : Nat := (8 - (len + 1) % 8) % 8

/-- The RBSP trailing bits for a buffer of length `len` (R126). -/
def trailing (len : Nat) : List Bit := [true] ++ zeros (trailingPad len)

/-- One byte of eight bits, the first the `0x80` bit (R31, R35). -/
def byteOf (b0 b1 b2 b3 b4 b5 b6 b7 : Bit) : Byte :=
  BitVec.ofNat 8 (b0.toNat * 2 ^ 7 + b1.toNat * 2 ^ 6 + b2.toNat * 2 ^ 5 + b3.toNat * 2 ^ 4
    + b4.toNat * 2 ^ 3 + b5.toNat * 2 ^ 2 + b6.toNat * 2 ^ 1 + b7.toNat * 2 ^ 0)

/-- `pack` (R35), byte by byte. The rule defines it only where the length is a multiple of 8; every use in a meaning
checks that first. -/
def pack : List Bit → List Byte
  | b0 :: b1 :: b2 :: b3 :: b4 :: b5 :: b6 :: b7 :: rest => byteOf b0 b1 b2 b3 b4 b5 b6 b7 :: pack rest
  | _ => []

end Sys2Proof.Machine
end

