-- ==== Sys2Proof/Machine/Ops.lean ====
section
/-! DEFINITION. The shared operations of the commands and of the ports: raising a fault, responding, appending, emitting
(spec/00_scope.md R8; spec/20_memory.md R33, R37; spec/60_exceptions.md R178), the transfers on the ports
(spec/30_encoding.md R50 to R56) and reset (spec/70_reset_and_hazards.md R200). -/

namespace Sys2Proof.Machine

/-- The outcome of one step of this machine. -/
abbrev Result := Host.Outcome State Fault Refusal

/-- The state after a fault with cause `c` (R175, R178): its bit set in `faults`, `FAILED` if it is fatal, its code on the
response port, nothing else changed. -/
def State.raised (s : State) (c : Cause) : State :=
  { s with
    faults := setFault s.faults c
    phase := if c.fatal then .failed else s.phase
    rspPort := some (faultResponse c) }

/-- TAKING A FAULT, the one shared operation: `raise C` (R8). -/
def raise (c : Cause) (s : State) : Result := .next (s.raised c)

/-- The state with the success response on the response port (R54). -/
def State.responded (s : State) : State := { s with rspPort := some (okResponse s.len) }

/-- `respond(OK, len)` (R8). -/
def respond (s : State) : Result := .next s.responded

/-- `k` more bits fit (R33). An unbounded buffer takes any number. -/
def State.fits (s : State) (k : Nat) : Bool :=
  match s.cap with
  | none => true
  | some c => s.len + k ≤ c

/-- `append(bits)`, then `phase <- p` and `respond(OK, len)`; or `raise BufferOverflow` and nothing appended (R33). -/
def appendRespond (bits : List Bit) (p : Phase) (s : State) : Result :=
  if s.fits bits.length then respond { s with buf := s.buf ++ bits, phase := p }
  else raise .bufferOverflow s

/-- The phases in which an instance accepts bits (spec/40_bit_append.md R80; spec/41_exp_golomb.md R90). -/
def Phase.acceptsBits : Phase → Bool
  | .raw => true
  | .opened => true
  | .idle => false
  | .finalized => false
  | .flushed => false
  | .failed => false

/-- The beats of one `emit`: `bo_last` on the last byte only (R56). -/
def beatsOf (d : Dest) : List Byte → List Beat
  | [] => []
  | [b] => [⟨b, true, d⟩]
  | b :: bs => ⟨b, false, d⟩ :: beatsOf d bs

/-- `emit(dest, bytes)` (R37): the beats go on the byte port in order. An `emit` to `RET` opens its element of the return
log, which its beats then fill (log 4). -/
def State.emit (s : State) (d : Dest) (bytes : List Byte) : State :=
  { s with
    bytePort := s.bytePort ++ beatsOf d bytes
    ret := match d with
      | .ret => s.ret ++ [[]]
      | .sink => s.ret }

/-- One byte more at the end of the last element of the return log. -/
def appendToLast (b : Byte) : List (List Byte) → List (List Byte)
  | [] => [[b]]
  | [x] => [x ++ [b]]
  | x :: xs => x :: appendToLast b xs

/-- One transfer on the byte port (R56): `SINK` bytes go to the sink, `RET` bytes to the caller (R37). With no beat on
offer, `bo_ready` does nothing (R50). -/
def State.takeBeat (s : State) : State :=
  match s.bytePort with
  | [] => s
  | ⟨b, _, .sink⟩ :: rest => { s with bytePort := rest, sink := s.sink ++ [b] }
  | ⟨b, _, .ret⟩ :: rest => { s with bytePort := rest, ret := appendToLast b s.ret }

/-- `n` transfers on the byte port. -/
def State.takeBeats : Nat → State → State
  | 0, s => s
  | n + 1, s => State.takeBeats n s.takeBeat

/-- The transfer on the response port (R55): only when every beat has been transferred. With nothing on offer,
`rsp_ready` does nothing (R50). -/
def State.takeResponse (s : State) : State :=
  match s.bytePort, s.rspPort with
  | [], some r => { s with rspPort := none, responses := s.responses ++ [r] }
  | _, _ => s

/-- The host takes every beat, then the response: the rest of a transfer-to-transfer span (R51). -/
def State.deliver (s : State) : State := (State.takeBeats s.bytePort.length s).takeResponse

/-- One edge with `rst = 1` (R200, R203): `phase`, `buf`, `faults` and the ports at their reset values, a response or beats
in progress dropped. The parameter, the sink (R201) and the other logs stay. -/
def State.hardReset (s : State) : State :=
  { s with phase := .idle, buf := [], faults := 0, bytePort := [], rspPort := none }

/-- A step has begun that makes the host's next move: `rest` are the moves after it. -/
def State.consume (s : State) (rest : List HostMove) : State := { s with moves := rest, draw := s.draw + 1 }

/-- A step in which nothing happens at the ports. -/
def State.tick (s : State) : State := { s with draw := s.draw + 1 }

/-- Go on from a next state. -/
def andThen (o : Result) (f : State → State) : Result :=
  match o with
  | .next s => .next (f s)
  | .fault r => .fault r
  | .refused r => .refused r

end Sys2Proof.Machine
end

