-- ==== Sys2Proof/Machine/BitAppend.lean ====
section
/-! DEFINITION. The fixed-width appends: `APPEND_BIT`, `APPEND_BITS` (spec/40_bit_append.md). -/

namespace Sys2Proof.Machine

/-- `APPEND_BIT b` (R80, R81): phase, then the value of `b`, then the capacity. -/
def execAppendBit (b : Nat) (s : State) : Result :=
  if ¬ s.phase.acceptsBits then raise .invalidState s
  else if 1 < b then raise .invalidWidth s
  else appendRespond [decide (b = 1)] s.phase s

/-- `APPEND_BITS n, raw` (R80, R83): phase, then the sign of `n`, then the fit `raw < 2^n`, then the capacity. -/
def execAppendBits (n : Int) (raw : Nat) (s : State) : Result :=
  if ¬ s.phase.acceptsBits then raise .invalidState s
  else if n < 0 then raise .invalidWidth s
  else if 2 ^ n.toNat ≤ raw then raise .invalidWidth s
  else appendRespond (bitsMsb raw n.toNat) s.phase s

end Sys2Proof.Machine
end

