-- ==== Sys2Proof/Machine/Emitter.lean ====
section
/-! DEFINITION. The bare emitter: `BE_NEW`, `BIT_LENGTH`, `TO_BYTES` (spec/42_emitter_query.md). -/

namespace Sys2Proof.Machine

/-- `BE_NEW` (R112, R113): legal in every phase, reads nothing of the old instance. -/
def execBeNew (s : State) : Result := respond { s with buf := [], phase := .raw }

/-- The phases with a live instance (R114). -/
def Phase.live : Phase → Bool
  | .raw => true
  | .opened => true
  | .finalized => true
  | .flushed => true
  | .idle => false
  | .failed => false

/-- `BIT_LENGTH` (R114). -/
def execBitLength (s : State) : Result :=
  if s.phase.live then respond s else raise .invalidState s

/-- `TO_BYTES` (R116, R117): the phase check before the alignment check. -/
def execToBytes (s : State) : Result :=
  if s.phase ≠ .raw then raise .invalidState s
  else if s.len % 8 ≠ 0 then raise .notByteAligned s
  else respond (s.emit .ret (pack s.buf))

end Sys2Proof.Machine
end

