-- ==== Sys2Proof/Machine/ExpGolomb.lean ====
section
/-! DEFINITION. The Exponential-Golomb appends: `APPEND_UE`, `APPEND_SE` (spec/41_exp_golomb.md). -/

namespace Sys2Proof.Machine

/-- `APPEND_UE v` (R90, R92): phase, then the sign of `v`, then the capacity. -/
def execAppendUe (v : Int) (s : State) : Result :=
  if ¬ s.phase.acceptsBits then raise .invalidState s
  else if v < 0 then raise .invalidFieldValue s
  else appendRespond (ueCode v.toNat) s.phase s

/-- `APPEND_SE v` (R90, R96): every operand is legal. -/
def execAppendSe (v : Int) (s : State) : Result :=
  if ¬ s.phase.acceptsBits then raise .invalidState s
  else appendRespond (ueCode (seMap v)) s.phase s

end Sys2Proof.Machine
end

