-- ==== Sys2Proof/Machine/NalFraming.lean ====
section
/-! DEFINITION. NAL framing: `NAL_START`, `FINALIZE`, `FLUSH` (spec/43_nal_framing.md). -/

namespace Sys2Proof.Machine

/-- `NAL_START` (R121, R122, R125): `forbidden_zero_bit = 1` constructs nothing; else the buffer is replaced by the start
code and the header. Legal in every phase, reads nothing of the old instance. -/
def execNalStart (fzb : Bool) (ref typ : Nat) (longSc : Bool) (s : State) : Result :=
  if fzb then raise .invalidFieldValue s
  else respond { s with buf := startCode longSc ++ headerBits ref typ, phase := .opened }

/-- `FINALIZE` (R127): the trailing bits in one append, then `FINAL`. -/
def execFinalize (s : State) : Result :=
  if s.phase ≠ .opened then raise .invalidState s
  else appendRespond (trailing s.len) .finalized s

/-- `FLUSH` (R131, R132): the packed buffer to the sink, then `FLUSHED`. The buffer stays (R133). In `FINAL` the length is a
multiple of 8 in every reachable state (R129); `pack` is not defined otherwise (R35), and the machine stops there (log 10).
The spec does not say when the phase is written relative to the beats (20_memory.md R40); that `FLUSHED` shows from the
transfer of the word on, while the beats are still pending, is the model's choice (log 19). -/
def execFlush (s : State) : Result :=
  if s.phase = .flushed then raise .alreadyFlushed s
  else if s.phase ≠ .finalized then raise .invalidState s
  else if s.len % 8 ≠ 0 then .fault .packUndefined
  else respond { s.emit .sink (pack s.buf) with phase := .flushed }

end Sys2Proof.Machine
end

