-- ==== Sys2Proof/Machine/Dispatch.lean ====
section
/-! DEFINITION. One arm per command: its meaning. -/

namespace Sys2Proof.Machine

/-- The state writes of a command; its beats and its response are left on the ports. -/
def exec (i : Instr) (s : State) : Host.Outcome State Fault Refusal :=
  match i with
  | .beNew => Sys2Proof.Machine.execBeNew s
  | .nalStart fzb ref typ longSc => Sys2Proof.Machine.execNalStart fzb ref typ longSc s
  | .appendBit b => Sys2Proof.Machine.execAppendBit b s
  | .appendBits n raw => Sys2Proof.Machine.execAppendBits n raw s
  | .appendUe v => Sys2Proof.Machine.execAppendUe v s
  | .appendSe v => Sys2Proof.Machine.execAppendSe v s
  | .bitLength => Sys2Proof.Machine.execBitLength s
  | .toBytes => Sys2Proof.Machine.execToBytes s
  | .finalize => Sys2Proof.Machine.execFinalize s
  | .flush => Sys2Proof.Machine.execFlush s

end Sys2Proof.Machine
end

