-- ==== Sys2Proof/Machine/HostMoves.lean ====
section
/-! DEFINITION. What each move of the host does to the block (spec/30_encoding.md R50, R51, R55, R56;
spec/60_exceptions.md R190; spec/70_reset_and_hazards.md R200 to R203, R205, R209). -/

namespace Sys2Proof.Machine

/-- The transfer of one command word: decode and execute, or raise `IllegalCommand` (30_encoding.md R60), in every phase and
before any other check (60_exceptions.md R176). -/
def execWord (w : CmdWord) (s : State) : Result :=
  match decode w with
  | .legal i => exec i s
  | .unknownOpcode _ => raise .illegalCommand s
  | .reservedField _ => raise .illegalCommand s

/-- The host's next move. A command word is transferred only while `cmd_ready` is 1 (R51); until then it stays on offer and
nothing happens (R50). A reset edge transfers nothing, also not a word on offer (R190). -/
def runMove (s : State) : Result :=
  match s.moves with
  | [] => .next s.tick
  | .command w :: rest =>
    if cmdReady s then andThen (execWord w (s.consume rest)) State.deliver else .next s.tick
  | .offer w :: rest =>
    if cmdReady s then execWord w (s.consume rest) else .next s.tick
  | .takeBeat :: rest => .next (s.consume rest).takeBeat
  | .takeResponse :: rest => .next (s.consume rest).takeResponse
  | .reset _ :: rest => .next (s.consume rest).hardReset

/-- The state with a command word as the host's next move and the block ready for it (log 12). -/
def State.offering (s : State) (w : CmdWord) : State :=
  { s with moves := .command w :: s.moves, bytePort := [], rspPort := none }

end Sys2Proof.Machine
end

