-- ==== Sys2Proof/Machine/Step.lean ====
section
/-! DEFINITION. One step: the host's next move (spec/10_state.md R22; spec/30_encoding.md R51). -/

namespace Sys2Proof.Machine

/-- One step of the machine. -/
def step (s : State) : Host.Outcome State Fault Refusal := runMove s

/-- `s` with the command word made of the `nbits` low bits of `w` as what the next step runs (log 12): a command comes from
the host's command port, so it is put at the head of the host's moves, with no command in progress. -/
def State.withFetchWord (s : State) (nbits w : Nat) : State := s.offering (BitVec.ofNat 48 (w % 2 ^ nbits))

end Sys2Proof.Machine
end

