-- ==== Sys2Proof/Machine/HostDriver.lean ====
section
/-! DEFINITION. Software beside the block: the assembler forms and pseudo-instructions (spec/30_encoding.md R63, R64) and the
host driver that exports parameter sets (spec/44_parameter_set_sequences.md). No step of the machine calls this file
(spec/00_scope.md R4). -/

namespace Sys2Proof.Driver

open Sys2Proof.Machine

/-- One line of R63's assembler, as abstract syntax. -/
inductive AsmLine where
  /-- A mnemonic whose operands are those of the command. -/
  | cmd (i : Instr)
  /-- `NAL_START sc=S, ref=R, type=T`, with `fzb=1` or without. -/
  | nalStart (sc ref typ : Nat) (fzb : Bool)
  /-- `.word 0xHHHHHHHHHHHH`. -/
  | word (w : CmdWord)
deriving DecidableEq, Repr

/-- The command word a line encodes as (R63): for `NAL_START`, `aux = R*32 + T`, 128 more with `fzb=1`, and `imm = 1` if `S = 4`.
R63 gives the operands' ranges and no outcome outside them; that a line outside them is encoded at all, with each field cut to its
width, is the model's choice (log 22). -/
def AsmLine.assemble : AsmLine → CmdWord
  | .cmd i => encode i
  | .nalStart sc ref typ fzb =>
    mkWord 0x02#8 (BitVec.ofNat 8 (fzb.toNat * 128 + ref * 32 + typ)) (if sc = 4 then 1 else 0)
  | .word w => w

/-- `U n, v` (R64). -/
def u (n : Int) (v : Nat) : Instr := .appendBits n v

/-- `FLAG b` (R64). -/
def flag (b : Bool) : Instr := .appendBits 1 b.toNat

/-- `UE v` (R64). -/
def ue (v : Int) : Instr := .appendUe v

/-- `SE v` (R64). -/
def se (v : Int) : Instr := .appendSe v

/-- `TRAILING` (R64). -/
def trailingCmd : Instr := .finalize

/-- `NAL_START` with the operands of R63 and R151. -/
def nalStart (sc ref typ : Nat) : Instr := .nalStart false ref typ (sc == 4)

/-- The domain of a `u(n)` field, with the bounds the command word puts on it (R142). -/
def uLegal (n : Nat) (v : Int) : Bool := n ≤ 127 && 0 ≤ v && v < 2 ^ n && v < 2 ^ 32

/-- The domain of a `ue(v)` field (R142). -/
def ueLegal (v : Int) : Bool := 0 ≤ v && v < 2 ^ 31

/-- The domain of an `se(v)` field (R142), which is also what the signed operand of a command word can carry (R63). -/
def seLegal (v : Int) : Bool := -2 ^ 31 ≤ v && v < 2 ^ 31

/-- The ranges R63 gives the header operands of `NAL_START` (R151). What an export does outside them is the model's choice
(log 20). -/
def headerLegal (sc ref typ : Nat) : Bool := (sc == 3 || sc == 4) && ref < 4 && typ < 32

/-- A field of a parameter set: a value with its encoding (R142, R156; spec/40_bit_append.md R86). -/
inductive FieldCode where
  | u (n : Nat) (v : Int)
  | flag (b : Bool)
  | ue (v : Int)
  | se (v : Int)
deriving DecidableEq, Repr

/-- The value is in the domain of its encoding (R142). -/
def FieldCode.legal : FieldCode → Bool
  | .u n v => uLegal n v
  | .flag _ => true
  | .ue v => ueLegal v
  | .se v => seLegal v

/-- A command word can carry the value (R63), in its domain or not; what is not in its domain the block refuses. -/
def FieldCode.carried : FieldCode → Bool
  | .u n v => n ≤ 127 && 0 ≤ v && v < 2 ^ 32
  | .flag _ => true
  | .ue v => seLegal v
  | .se v => seLegal v

/-- The command that sends a value a command word can carry (R64). -/
def FieldCode.command : FieldCode → Instr
  | .u n v => Driver.u n v.toNat
  | .flag b => Driver.flag b
  | .ue v => Driver.ue v
  | .se v => Driver.se v

/-- The fields of an SPS (R143) and its header operands (R151). -/
structure SpsFields where
  sc  : Nat
  ref : Nat
  typ : Nat
  profileIdc : Int
  cs0 : Bool
  cs1 : Bool
  cs2 : Bool
  levelIdc : Int
  spsId : Int
  log2MaxFrameNumMinus4 : Int
  pocType : Int
  log2MaxPocLsbMinus4 : Int
  numRefFrames : Int
  gaps : Bool
  widthInMbsMinus1 : Int
  heightInMapUnitsMinus1 : Int
  frameMbsOnly : Bool
  direct8x8 : Bool
  cropping : Bool
  vui : Bool
deriving DecidableEq, Repr

/-- The fields of a PPS (R148) and its header operands (R151). -/
structure PpsFields where
  sc  : Nat
  ref : Nat
  typ : Nat
  ppsId : Int
  spsId : Int
  entropy : Bool
  picOrderPresent : Bool
  numSliceGroupsMinus1 : Int
  l0 : Int
  l1 : Int
  weightedPred : Bool
  weightedBipredIdc : Int
  qp : Int
  qs : Int
  chroma : Int
  deblock : Bool
  constrainedIntra : Bool
  redundant : Bool
deriving DecidableEq, Repr

/-- The integer a number of the host is, if it is one. The host's software holds other numbers too (spec/41_exp_golomb.md
R104; 90_conflicts.md C5). -/
def asInt (v : Rat) : Option Int := if v.den = 1 then some v.num else none

/-- What a setter does (R141): the new parameter set, or the old one and `InvalidFieldValue`. No command is issued. -/
def setter {α : Type} (legal : Bool) (old new : α) : α × Option Cause :=
  if legal then (new, none) else (old, some .invalidFieldValue)

/-- A setter of a numeric field: every domain of R142 is one of integers, so a number that is none is refused (R104, R141). -/
def setInt {α : Type} (legal : Int → Bool) (old : α) (update : Int → α) (v : Rat) : α × Option Cause :=
  match asInt v with
  | some n => setter (legal n) old (update n)
  | none => (old, some .invalidFieldValue)

/-! The named setters of an SPS, in the order of R143 (R140, R141). -/

/-- `profile_idc`, "set directly" (R143). -/
def SpsFields.setProfileIdc (f : SpsFields) (v : Rat) : SpsFields × Option Cause :=
  setInt (uLegal 8) f (fun n => { f with profileIdc := n }) v

/-- `constraint_set0_flag` (R143). -/
def SpsFields.setCs0 (f : SpsFields) (b : Bool) : SpsFields × Option Cause := setter true f { f with cs0 := b }

/-- `constraint_set1_flag` (R143). -/
def SpsFields.setCs1 (f : SpsFields) (b : Bool) : SpsFields × Option Cause := setter true f { f with cs1 := b }

/-- `constraint_set2_flag` (R143). -/
def SpsFields.setCs2 (f : SpsFields) (b : Bool) : SpsFields × Option Cause := setter true f { f with cs2 := b }

/-- `level_idc = level_number * 10` (R144), which must fit `u(8)` (R142). What a `level_number` that is no integer gives is a
free value (log 21); it too must fit. -/
def SpsFields.setLevelNumber (f : SpsFields) (level : Rat) : SpsFields × Option Cause :=
  match (asInt level).elim (Config.freeLevelIdc level) fun n => some (n * 10) with
  | some idc => setter (uLegal 8 idc) f { f with levelIdc := idc }
  | none => (f, some .invalidFieldValue)

/-- `seq_parameter_set_id`, "must be >= 0" (R143). -/
def SpsFields.setSpsId (f : SpsFields) (v : Rat) : SpsFields × Option Cause :=
  setInt ueLegal f (fun n => { f with spsId := n }) v

/-- `log2_max_frame_num_minus4` (R143). -/
def SpsFields.setLog2MaxFrameNumMinus4 (f : SpsFields) (v : Rat) : SpsFields × Option Cause :=
  setInt ueLegal f (fun n => { f with log2MaxFrameNumMinus4 := n }) v

/-- `pic_order_cnt_type` (R143, R147). -/
def SpsFields.setPocType (f : SpsFields) (v : Rat) : SpsFields × Option Cause :=
  setInt ueLegal f (fun n => { f with pocType := n }) v

/-- `log2_max_pic_order_cnt_lsb_minus4` (R143 row 7a). -/
def SpsFields.setLog2MaxPocLsbMinus4 (f : SpsFields) (v : Rat) : SpsFields × Option Cause :=
  setInt ueLegal f (fun n => { f with log2MaxPocLsbMinus4 := n }) v

/-- `num_ref_frames` (R143). -/
def SpsFields.setNumRefFrames (f : SpsFields) (v : Rat) : SpsFields × Option Cause :=
  setInt ueLegal f (fun n => { f with numRefFrames := n }) v

/-- `gaps_in_frame_num_value_allowed_flag` (R143). -/
def SpsFields.setGaps (f : SpsFields) (b : Bool) : SpsFields × Option Cause := setter true f { f with gaps := b }

/-- A dimension in pixels is a positive multiple of 16 (R144), and the field it gives can be sent (R142). -/
def pixelsLegal (pixels : Int) : Bool := 0 < pixels && pixels % 16 == 0 && ueLegal (pixels / 16 - 1)

/-- `pic_width_in_mbs_minus_1 = pixelWidth div 16 - 1` (R144). -/
def SpsFields.setPixelWidth (f : SpsFields) (v : Rat) : SpsFields × Option Cause :=
  setInt pixelsLegal f (fun n => { f with widthInMbsMinus1 := n / 16 - 1 }) v

/-- `pic_height_in_map_units_minus_1 = pixelHeight div 16 - 1` (R144). -/
def SpsFields.setPixelHeight (f : SpsFields) (v : Rat) : SpsFields × Option Cause :=
  setInt pixelsLegal f (fun n => { f with heightInMapUnitsMinus1 := n / 16 - 1 }) v

/-- `frame_mbs_only_flag` (R143). False is refused at export only (R146, R152). -/
def SpsFields.setFrameMbsOnly (f : SpsFields) (b : Bool) : SpsFields × Option Cause := setter true f { f with frameMbsOnly := b }

/-- `direct_8x8_inference_flag` (R143). -/
def SpsFields.setDirect8x8 (f : SpsFields) (b : Bool) : SpsFields × Option Cause := setter true f { f with direct8x8 := b }

/-- `frame_cropping_flag` (R143). True is refused at export only (R146, R152). -/
def SpsFields.setCropping (f : SpsFields) (b : Bool) : SpsFields × Option Cause := setter true f { f with cropping := b }

/-- `vui_parameters_present_flag` (R143). True is refused at export only (R146, R152). -/
def SpsFields.setVui (f : SpsFields) (b : Bool) : SpsFields × Option Cause := setter true f { f with vui := b }

/-! The named setters of a PPS, in the order of R148 (R140, R141). -/

/-- `pic_parameter_set_id` (R148). -/
def PpsFields.setPpsId (f : PpsFields) (v : Rat) : PpsFields × Option Cause :=
  setInt ueLegal f (fun n => { f with ppsId := n }) v

/-- `seq_parameter_set_id` of a PPS (R148). -/
def PpsFields.setSpsId (f : PpsFields) (v : Rat) : PpsFields × Option Cause :=
  setInt ueLegal f (fun n => { f with spsId := n }) v

/-- `entropy_coding_mode_flag` (R148). -/
def PpsFields.setEntropy (f : PpsFields) (b : Bool) : PpsFields × Option Cause := setter true f { f with entropy := b }

/-- `pic_order_present_flag` (R148). -/
def PpsFields.setPicOrderPresent (f : PpsFields) (b : Bool) : PpsFields × Option Cause := setter true f { f with picOrderPresent := b }

/-- `num_slice_groups_minus1` (R148). A positive value is refused at export only (R149, R152). -/
def PpsFields.setNumSliceGroupsMinus1 (f : PpsFields) (v : Rat) : PpsFields × Option Cause :=
  setInt ueLegal f (fun n => { f with numSliceGroupsMinus1 := n }) v

/-- `num_ref_idx_l0_active_minus1` (R148). -/
def PpsFields.setL0 (f : PpsFields) (v : Rat) : PpsFields × Option Cause :=
  setInt ueLegal f (fun n => { f with l0 := n }) v

/-- `num_ref_idx_l1_active_minus1` (R148). -/
def PpsFields.setL1 (f : PpsFields) (v : Rat) : PpsFields × Option Cause :=
  setInt ueLegal f (fun n => { f with l1 := n }) v

/-- `weighted_pred_flag` (R148). -/
def PpsFields.setWeightedPred (f : PpsFields) (b : Bool) : PpsFields × Option Cause := setter true f { f with weightedPred := b }

/-- `weighted_bipred_idc` (R148). -/
def PpsFields.setWeightedBipredIdc (f : PpsFields) (v : Rat) : PpsFields × Option Cause :=
  setInt (uLegal 2) f (fun n => { f with weightedBipredIdc := n }) v

/-- `pic_init_qp_minus26` (R148). -/
def PpsFields.setQp (f : PpsFields) (v : Rat) : PpsFields × Option Cause :=
  setInt seLegal f (fun n => { f with qp := n }) v

/-- `pic_init_qs_minus26` (R148). -/
def PpsFields.setQs (f : PpsFields) (v : Rat) : PpsFields × Option Cause :=
  setInt seLegal f (fun n => { f with qs := n }) v

/-- `chroma_qp_index_offset` (R148). -/
def PpsFields.setChroma (f : PpsFields) (v : Rat) : PpsFields × Option Cause :=
  setInt seLegal f (fun n => { f with chroma := n }) v

/-- `deblocking_filter_control_present_flag` (R148). -/
def PpsFields.setDeblock (f : PpsFields) (b : Bool) : PpsFields × Option Cause := setter true f { f with deblock := b }

/-- `constrained_intra_pred_flag` (R148). -/
def PpsFields.setConstrainedIntra (f : PpsFields) (b : Bool) : PpsFields × Option Cause := setter true f { f with constrainedIntra := b }

/-- `redundant_pic_cnt_present_flag` (R148). -/
def PpsFields.setRedundant (f : PpsFields) (b : Bool) : PpsFields × Option Cause := setter true f { f with redundant := b }

/-- What an export pseudo-instruction is: its commands, or a failure with no command issued (R146, R149, R152). -/
inductive Export where
  | commands (is : List Instr)
  | failed (c : Cause)
deriving DecidableEq, Repr

/-- The standard's branches of an SPS that are not implemented (R146). -/
def SpsFields.unsupported (f : SpsFields) : Bool := f.pocType == 1 || !f.frameMbsOnly || f.cropping || f.vui

/-- The fields an SPS sends, in the fixed order (R143, R145); field 7a only when `pic_order_cnt_type = 0` (R147). -/
def SpsFields.codes (f : SpsFields) : List FieldCode :=
  [.u 8 f.profileIdc, .flag f.cs0, .flag f.cs1, .flag f.cs2, .u 5 0, .u 8 f.levelIdc,
   .ue f.spsId, .ue f.log2MaxFrameNumMinus4, .ue f.pocType]
  ++ (if f.pocType = 0 then [.ue f.log2MaxPocLsbMinus4] else [])
  ++ [.ue f.numRefFrames, .flag f.gaps, .ue f.widthInMbsMinus1, .ue f.heightInMapUnitsMinus1,
      .flag f.frameMbsOnly, .flag f.direct8x8, .flag f.cropping, .flag f.vui]

/-- The branch of a PPS that is not implemented (R149). -/
def PpsFields.unsupported (f : PpsFields) : Bool := 0 < f.numSliceGroupsMinus1

/-- The fields a PPS sends, in the fixed order (R148, R150). -/
def PpsFields.codes (f : PpsFields) : List FieldCode :=
  [.ue f.ppsId, .ue f.spsId, .flag f.entropy, .flag f.picOrderPresent, .ue f.numSliceGroupsMinus1, .ue f.l0, .ue f.l1,
   .flag f.weightedPred, .u 2 f.weightedBipredIdc, .se f.qp, .se f.qs, .se f.chroma,
   .flag f.deblock, .flag f.constrainedIntra, .flag f.redundant]

/-- The payload commands of an SPS. -/
def SpsFields.payload (f : SpsFields) : List Instr := f.codes.map FieldCode.command

/-- The payload commands of a PPS. -/
def PpsFields.payload (f : PpsFields) : List Instr := f.codes.map FieldCode.command

/-- Every operand that is sent is in the domain of R142, and the header operands in their ranges. -/
def SpsFields.legal (f : SpsFields) : Bool := headerLegal f.sc f.ref f.typ && f.codes.all FieldCode.legal

/-- Every operand that is sent is in the domain of R142, and the header operands in their ranges. -/
def PpsFields.legal (f : PpsFields) : Bool := headerLegal f.sc f.ref f.typ && f.codes.all FieldCode.legal

/-- The expansion of an export (R145, R150). It does not ask whether a value is in its domain: the block refuses what it can
see. Only what no command word can carry the host must refuse, with `InvalidFieldValue` and no command (R142); that it does
the same for header operands outside R63's ranges is the model's choice (log 20). -/
def expand (sc ref typ : Nat) (codes : List FieldCode) : Export :=
  if headerLegal sc ref typ && codes.all FieldCode.carried then
    .commands (nalStart sc ref typ :: codes.map FieldCode.command ++ [.finalize, .flush])
  else .failed .invalidFieldValue

/-- `SPS_EXPORT` (R145, R146). -/
def spsExport (f : SpsFields) : Export :=
  if f.unsupported then .failed .unsupportedFeature else expand f.sc f.ref f.typ f.codes

/-- `PPS_EXPORT` (R149, R150). R150 gives an expansion for `num_slice_groups_minus1 = 0` and R149 a failure for a positive one;
that a negative one is refused with `InvalidFieldValue` is the model's choice (log 20). -/
def ppsExport (f : PpsFields) : Export :=
  if f.unsupported then .failed .unsupportedFeature
  else if f.numSliceGroupsMinus1 < 0 then .failed .invalidFieldValue
  else expand f.sc f.ref f.typ f.codes

/-- The driver issues one command and takes its beats and its response. That the word is left on offer, untransferred, when an
earlier command is still in progress is the model's choice (log 23). -/
def issue (i : Instr) (s : State) : Result := runMove { s with moves := .command (encode i) :: s.moves }

/-- The last response the host took says that its command succeeded. -/
def lastOk (s : State) : Bool := s.responses.getLast?.any fun r => r.status == 0

/-- The driver runs an expansion and stops at the first non-zero status (R153): `FLUSH` is then never issued.
A run is meant to start with the block ready; what it does when an earlier command's beats or response are pending, where it
goes by the response taken before, is the model's choice (log 23). -/
def drive : List Instr → State → Result
  | [], s => .next s
  | i :: is, s =>
    match issue i s with
    | .next t => if lastOk t then drive is t else .next t
    | .fault r => .fault r
    | .refused r => .refused r

end Sys2Proof.Driver
end

