-- ==== Sys2Proof/Safety.lean ====
section
/-! DEFINITION. What claims about EGNAL-1 speak of: the invariants of spec/10_state.md R23 with those of the ports, runs of
several steps, and the unit a command sequence builds (spec/30_encoding.md R65; spec/43_nal_framing.md R120, R134). -/

namespace Sys2Proof.Machine

/-- The phases in which the buffer holds a NAL unit (R23 I-c). -/
def Phase.framed : Phase → Bool
  | .opened => true
  | .finalized => true
  | .flushed => true
  | .idle => false
  | .raw => false
  | .failed => false

/-- The phases in which the trailing bits are in the buffer (R23 I-d). -/
def Phase.closed : Phase → Bool
  | .finalized => true
  | .flushed => true
  | .idle => false
  | .raw => false
  | .opened => false
  | .failed => false

/-- A status a response can carry (30_encoding.md R54; 60_exceptions.md R171, R174): 0 to 8, never 3. -/
def statusLegal (r : Response) : Bool := r.status.toNat ≤ 8 && r.status != 3

/-- The invariants of every reachable state: I-a to I-e of R23 (I-f holds by the type `Phase`), the legal values of `CAP_BITS`
(00_scope.md R6), and the ports. -/
structure State.Inv (s : State) : Prop where
  /-- R6. -/
  capLegal : Config.capLegal s.cap = true
  /-- I-a. -/
  lenLeCap : ∀ c, s.cap = some c → s.len ≤ c
  /-- I-b. -/
  idleEmpty : s.phase = .idle → s.buf = []
  /-- I-c. -/
  framed : s.phase.framed = true →
    ∃ longSc ref typ, ref < 4 ∧ typ < 32 ∧ (startCode longSc ++ headerBits ref typ) <+: s.buf
  /-- I-d. -/
  closed : s.phase.closed = true →
    s.len % 8 = 0 ∧ 40 ≤ s.len ∧ true ∈ s.buf.drop (s.len - 8)
  /-- I-e. -/
  faultBits : s.faults.getLsbD 0 = false ∧ s.faults.getLsbD 3 = false
  /-- What is on the byte port is the rest of one `emit` (30_encoding.md R56; 20_memory.md R40). -/
  oneEmit : ∃ d bytes, s.bytePort = beatsOf d bytes
  /-- Beats are pending only while a command is in progress, that is before its response is taken (R55). -/
  beatsBeforeResponse : s.bytePort ≠ [] → s.rspPort.isSome = true
  /-- R54: "Values 9 to 255 never occur"; R171: 3 is never raised by the block. -/
  pendingStatus : ∀ r, s.rspPort = some r → statusLegal r = true
  /-- The same for the responses already taken. -/
  takenStatus : ∀ r ∈ s.responses, statusLegal r = true

/-- No fault was recorded since reset: the premise 70_reset_and_hazards.md R206 offers for claims about the sink. -/
def State.noFaultRecorded (s : State) : Prop := s.faults = 0

/-- `n` steps, stopping at a fault or a refusal. -/
def steps : Nat → State → Result
  | 0, s => .next s
  | n + 1, s =>
    match step s with
    | .next t => steps n t
    | .fault r => .fault r
    | .refused r => .refused r

/-- The host will make these moves next. -/
def State.withMoves (s : State) (ms : List HostMove) : State := { s with moves := ms ++ s.moves }

/-- The host issues these commands, each to its response. -/
def commandMoves (is : List Instr) : List HostMove := is.map fun i => .command (encode i)

/-- The four `APPEND_*` commands with operands that raise no operand fault. -/
def legalAppend : Instr → Bool
  | .appendBit b => b ≤ 1
  | .appendBits n raw => 0 ≤ n && raw < 2 ^ n.toNat
  | .appendUe v => 0 ≤ v
  | .appendSe _ => true
  | .beNew => false
  | .nalStart _ _ _ _ => false
  | .bitLength => false
  | .toBytes => false
  | .finalize => false
  | .flush => false

/-- The bits a legal append adds to the buffer (R81, R83, R92, R96). -/
def addedBits : Instr → List Bit
  | .appendBit b => bitsMsb b 1
  | .appendBits n raw => bitsMsb raw n.toNat
  | .appendUe v => ueCode v.toNat
  | .appendSe v => ueCode (seMap v)
  | .beNew => []
  | .nalStart _ _ _ _ => []
  | .bitLength => []
  | .toBytes => []
  | .finalize => []
  | .flush => []

/-- The payload of a unit: what its appends added, in order (43_nal_framing.md R124). -/
def payloadBits (is : List Instr) : List Bit := is.flatMap addedBits

/-- The bytes of one unit in the format of R65: start code, header byte, and the payload packed with the stop bit and the zero
padding. The three parts are whole bytes. -/
def unitBytes (longSc : Bool) (ref typ : Nat) (payload : List Bit) : List Byte :=
  (if longSc then [0x00#8, 0x00#8, 0x00#8, 0x01#8] else [0x00#8, 0x00#8, 0x01#8])
    ++ [BitVec.ofNat 8 (ref * 32 + typ)] ++ pack (payload ++ trailing payload.length)

/-- The bits of the start code and the header byte (R121). -/
def headerLen (longSc : Bool) : Nat := if longSc then 40 else 32

end Sys2Proof.Machine
end

