-- ==== Sys2Proof/Certificates/Slice0/Obligations.lean ====
section
/-! DEFINITION. The statements for the provers, from the numbered rules of spec/. The definitions under `Sys2Proof.Spec` restate
in the rules' own words what the statements compare the machine with. -/

namespace Sys2Proof.Spec

open Sys2Proof.Machine

/-- The response of a success (30_encoding.md R54): status 0, data the length; for a length of 2^32 or more, which R54 gives no
value for, the free value of log 6. -/
def okRsp (n : Nat) : Response := ⟨0, if n < 2 ^ 32 then BitVec.ofNat 32 n else Config.freeLongLen n⟩

/-- The causes that are fatal, by code (60_exceptions.md R173). -/
def fatalCode (c : Nat) : Bool := c == 4 || c == 5 || c == 6

/-- The state after a fault with this code (R175, R178): its one bit in `faults`, `FAILED` if it is fatal, the code and data 0 on
the response port; everything else as before. -/
def faulted (s : State) (c : Nat) : State :=
  { s with
    faults := s.faults ||| (1#9 <<< c)
    phase := if fatalCode c then .failed else s.phase
    rspPort := some ⟨BitVec.ofNat 8 c, 0⟩ }

/-- An append of `k` bits fits (20_memory.md R33). -/
def room (s : State) (k : Nat) : Prop := ∀ c, s.cap = some c → s.buf.length + k ≤ c

/-- An instance exists that accepts bits (40_bit_append.md R80; 41_exp_golomb.md R90). -/
def accepts (s : State) : Prop := s.phase = .raw ∨ s.phase = .opened

/-- `s` with bits added at the end of its buffer and the success response (R33, R54). -/
def appended (s : State) (bits : List Bit) : State :=
  { s with buf := s.buf ++ bits, rspPort := some (okRsp (s.buf.length + bits.length)) }

/-- The two constructor commands (10_state.md R24). -/
def isConstructor : Instr → Bool
  | .beNew => true
  | .nalStart _ _ _ _ => true
  | .appendBit _ => false
  | .appendBits _ _ => false
  | .appendUe _ => false
  | .appendSe _ => false
  | .bitLength => false
  | .toBytes => false
  | .finalize => false
  | .flush => false

/-- The four `APPEND_*` commands. -/
def isAppend : Instr → Bool
  | .beNew => false
  | .nalStart _ _ _ _ => false
  | .appendBit _ => true
  | .appendBits _ _ => true
  | .appendUe _ => true
  | .appendSe _ => true
  | .bitLength => false
  | .toBytes => false
  | .finalize => false
  | .flush => false

/-- The only state and command for which `pack` is asked for an unaligned buffer (log 10). No reachable state meets it. -/
def unalignedFlush (i : Instr) (s : State) : Prop := i = .flush ∧ s.phase = .finalized ∧ s.buf.length % 8 ≠ 0

/-- The cells `IS` (4) and `AF` (5) of the phase table (60_exceptions.md R180). -/
def phaseFault (i : Instr) (p : Phase) : Option Nat :=
  match i, p with
  | .beNew, _ => none
  | .nalStart _ _ _ _, _ => none
  | .bitLength, .idle => some 4
  | .bitLength, .failed => some 4
  | .bitLength, _ => none
  | .toBytes, .raw => none
  | .toBytes, _ => some 4
  | .finalize, .opened => none
  | .finalize, _ => some 4
  | .flush, .finalized => none
  | .flush, .flushed => some 5
  | .flush, _ => some 4
  | _, .raw => none
  | _, .opened => none
  | _, _ => some 4

/-- The new phase a cell of the phase table names, where the command succeeds (R180). -/
def phaseAfter (i : Instr) (p : Phase) : Phase :=
  match i with
  | .beNew => .raw
  | .nalStart _ _ _ _ => .opened
  | .finalize => .finalized
  | .flush => .flushed
  | _ => p

/-- The number of bits a command asks `append` for, if it appends (R81, R83, R92, R96, R127). -/
def askedBits (i : Instr) (s : State) : Option Nat :=
  match i with
  | .appendBit _ => some 1
  | .appendBits n _ => some n.toNat
  | .appendUe v => some (ueCode v.toNat).length
  | .appendSe v => some (ueCode (seMap v)).length
  | .finalize => some (trailing s.buf.length).length
  | _ => none

/-- Whether the cause with this code applies to a word in a state, each check taken by itself (60_exceptions.md R171). -/
def applies (w : CmdWord) (s : State) (c : Nat) : Bool :=
  match decode w with
  | .legal i =>
    match c with
    | 1 => match i with
      | .appendBit b => 1 < b
      | .appendBits n raw => n < 0 || 2 ^ n.toNat ≤ raw
      | _ => false
    | 2 => match i with
      | .appendUe v => v < 0
      | .nalStart fzb _ _ _ => fzb
      | _ => false
    | 4 => (phaseFault i s.phase).isSome
    | 5 => phaseFault i s.phase == some 5
    | 6 => i == .toBytes && s.buf.length % 8 != 0
    | 8 => match s.cap, askedBits i s with
      | some cap, some k => cap < s.buf.length + k
      | _, _ => false
    | _ => false
  | _ => c == 7

/-- The causes in the order of priority (60_exceptions.md R176). -/
def priority : List Nat := [7, 5, 4, 1, 2, 6, 8]

/-- The causes a command can raise (60_exceptions.md R177). -/
def canRaise : Instr → List Nat
  | .beNew => []
  | .nalStart _ _ _ _ => [2]
  | .appendBit _ => [1, 4, 8]
  | .appendBits _ _ => [1, 4, 8]
  | .appendUe _ => [2, 4, 8]
  | .appendSe _ => [4, 8]
  | .bitLength => [4]
  | .toBytes => [4, 6]
  | .finalize => [4, 8]
  | .flush => [4, 5]

/-- The words with this opcode: where the reserved fields are as R57 asks they are the command, and otherwise they are no command
at all (30_encoding.md R57, R58, R59). -/
def encodedAs (op : BitVec 8) (legal : BitVec 8 → BitVec 32 → Prop) (i : BitVec 8 → BitVec 32 → Instr) : Prop :=
  ∀ aux imm, (legal aux imm → decode (op ++ aux ++ imm) = .legal (i aux imm)) ∧
    (¬ legal aux imm → ∀ j, decode (op ++ aux ++ imm) ≠ .legal j)

/-- The bits R57 marks "must be 0", by opcode; nothing where the opcode is none of the ten (R58, R59). -/
def mustBeZero (op : BitVec 8) : Option CmdWord :=
  if op = 0x01 ∨ op = 0x20 ∨ op = 0x21 ∨ op = 0x30 ∨ op = 0x31 then some 0x00FFFFFFFFFF
  else if op = 0x02 then some 0x0000FFFFFFFE
  else if op = 0x10 ∨ op = 0x12 ∨ op = 0x13 then some 0x00FF00000000
  else if op = 0x11 then some 0
  else none

/-- The number of bits of a finalized unit with this payload. -/
def unitLen (longSc : Bool) (is : List Instr) : Nat :=
  headerLen longSc + (payloadBits is ++ trailing (payloadBits is).length).length

/-- The commands with the mark (op) in the phase table: the operand and capacity checks of their own rules apply in the cells that
name a phase (60_exceptions.md R180). -/
def hasOperandChecks : Instr → Bool
  | .nalStart _ _ _ _ => true
  | .appendBit _ => true
  | .appendBits _ _ => true
  | .appendUe _ => true
  | .appendSe _ => true
  | .finalize => true
  | .beNew => false
  | .bitLength => false
  | .toBytes => false
  | .flush => false

/-- A numeric setter (44_parameter_set_sequences.md R141): an integer in the field's domain changes that field, and every other
number is refused with `InvalidFieldValue` and changes nothing. -/
def setterObeys {α : Type} (set : α → Rat → α × Option Cause) (legal : Int → Prop) (update : α → Int → α) : Prop :=
  ∀ (f : α) (v : Rat),
    (∀ n : Int, v = n → legal n → set f v = (update f n, none)) ∧
    ((∀ n : Int, v = n → ¬ legal n) → set f v = (f, some .invalidFieldValue))

/-- The domain of a `u(w)` field (R142). -/
def uDomain (w : Nat) (n : Int) : Prop := 0 ≤ n ∧ n < 2 ^ w

/-- The domain of a `ue(v)` field (R142). -/
def ueDomain (n : Int) : Prop := 0 ≤ n ∧ n < 2 ^ 31

/-- The domain of an `se(v)` field (R142). -/
def seDomain (n : Int) : Prop := -2 ^ 31 ≤ n ∧ n < 2 ^ 31

/-- The widths in pixels that give a field value that can be sent (R144, R142). -/
def pixelDomain (n : Int) : Prop := 0 < n ∧ n % 16 = 0 ∧ n / 16 - 1 < 2 ^ 31

/-- The value R35 gives byte `j`: the sum over `k` in 0..7 of `buf[8*j + k] * 2^(7 - k)`. -/
def packedByte (buf : List Bit) (j : Nat) : Nat :=
  ((List.range 8).map fun k => (buf[8 * j + k]?.getD false).toNat * 2 ^ (7 - k)).sum

end Sys2Proof.Spec

open Sys2Proof Sys2Proof.Machine Sys2Proof.Spec

/-! ### Reset, step, encoding -/

/-- R21, R22: the state right after reset, with the status outputs that follow from it. -/
def Obligations.ResetStateIsIdleEmptyNoFaults : Prop :=
  State.reset.phase = .idle ∧ State.reset.buf = [] ∧ State.reset.faults = 0 ∧ State.reset.rspPort = none ∧
    State.reset.bytePort = [] ∧ stPhase State.reset = 0 ∧ stLen State.reset = 0 ∧ stAligned State.reset = true ∧
    stFaults State.reset = 0 ∧ cmdReady State.reset = true

/-- R21, R190, R201: an edge with `rst = 1` in any state brings the reset state with its status outputs, drops what is on the
ports, executes no command word on offer, and does not reach the sink. -/
def Obligations.ResetEdgeGivesResetState : Prop :=
  ∀ (s : State) (offered : Option CmdWord) (rest : List HostMove), s.moves = .reset offered :: rest →
    ∃ t, step s = .next t ∧ t.phase = .idle ∧ t.buf = [] ∧ t.faults = 0 ∧ t.rspPort = none ∧ t.bytePort = [] ∧
      stPhase t = 0 ∧ stLen t = 0 ∧ stAligned t = true ∧ stFaults t = 0 ∧ cmdReady t = true ∧
      t.sink = s.sink ∧ t.cap = s.cap ∧ t.moves = rest

/-- A step with a command word on offer and the block ready runs the decoded command, and what the step adds around `exec` is the
host's move taken from its list and, for a whole span of R51, the delivery of the beats and the response. The list of moves and the
counter are the model's own (logs 1, 5 and 12). -/
def Obligations.StepRunsDecodedCommand : Prop :=
  ∀ (s : State) (w : CmdWord) (i : Instr) (rest : List HostMove), cmdReady s = true → decode w = .legal i →
    (s.moves = .offer w :: rest → step s = exec i { s with moves := rest, draw := s.draw + 1 }) ∧
    (s.moves = .command w :: rest →
      step s = andThen (exec i { s with moves := rest, draw := s.draw + 1 }) State.deliver)

/-- R66: the worked encodings, each both ways, and its note on the header byte. -/
def Obligations.WorkedEncodingsDecode : Prop :=
  (∀ p ∈ [(Instr.beNew, 0x010000000000#48), (.nalStart false 3 7 true, 0x026700000001#48),
      (.nalStart false 3 8 false, 0x026800000000#48), (.appendBit 1, 0x100000000001#48),
      (.appendBits 8 66, 0x110800000042#48), (.appendBits (-1) 0, 0x11FF00000000#48), (.appendUe 31, 0x12000000001F#48),
      (.appendUe (-1), 0x1200FFFFFFFF#48), (.appendSe (-3), 0x1300FFFFFFFD#48), (.bitLength, 0x200000000000#48),
      (.toBytes, 0x210000000000#48), (.finalize, 0x300000000000#48), (.flush, 0x310000000000#48)],
    encode p.1 = p.2 ∧ decode p.2 = .legal p.1) ∧
  auxField 0x026700000001#48 = 0x67#8 ∧ pack (headerBits 3 7) = [0x67#8]

/-- R58: the ten rows, and that a command word is a row's command if and only if it matches the row under the row's mask. -/
def Obligations.WordIsCommandIffItMatchesRow : Prop :=
  (opcodeMap.map fun r => (r.mnemonic, r.pattern, r.mask)) =
    [("BE_NEW", 0x010000000000, 0xFFFFFFFFFFFF), ("NAL_START", 0x020000000000, 0xFF00FFFFFFFE),
     ("APPEND_BIT", 0x100000000000, 0xFFFF00000000), ("APPEND_BITS", 0x110000000000, 0xFF0000000000),
     ("APPEND_UE", 0x120000000000, 0xFFFF00000000), ("APPEND_SE", 0x130000000000, 0xFFFF00000000),
     ("BIT_LENGTH", 0x200000000000, 0xFFFFFFFFFFFF), ("TO_BYTES", 0x210000000000, 0xFFFFFFFFFFFF),
     ("FINALIZE", 0x300000000000, 0xFFFFFFFFFFFF), ("FLUSH", 0x310000000000, 0xFFFFFFFFFFFF)] ∧
  (∀ i : Instr, i.row ∈ opcodeMap) ∧
  ∀ (w : CmdWord) (r : OpRow), r ∈ opcodeMap →
    (w &&& r.mask = r.pattern ↔ ∃ i, decode w = .legal i ∧ i.row = r)

/-- R59, R60: a word that matches no row raises `IllegalCommand`, a rejecting fault, in every phase: nothing of the block changes
but `faults[7]`, and the response has status 7 and data 0. The words that match no row are those with an opcode that is none of
the ten or with a non-zero reserved bit; the all-zero and the all-one word are such words. -/
def Obligations.UnmatchedWordIsIllegalCommand : Prop :=
  (∀ (s : State) (w : CmdWord) (rest : List HostMove), cmdReady s = true → s.moves = .command w :: rest →
    (∀ r ∈ opcodeMap, w &&& r.mask ≠ r.pattern) →
    step s = .next { s with
      moves := rest, draw := s.draw + 1, faults := s.faults ||| 0x080#9, responses := s.responses ++ [⟨7, 0⟩] }) ∧
  (∀ w : CmdWord, (∀ r ∈ opcodeMap, w &&& r.mask ≠ r.pattern) ↔
    ∀ m, mustBeZero (opField w) = some m → w &&& m ≠ 0) ∧
  (∀ r ∈ opcodeMap, (0#48) &&& r.mask ≠ r.pattern ∧ 0xFFFFFFFFFFFF#48 &&& r.mask ≠ r.pattern)

/-- R53, R57, R58, R63: no bit of an operand is dropped. -/
def Obligations.DecodeOfEncodeIsTheCommand : Prop :=
  ∀ i : Instr, i.wf = true → decode (encode i) = .legal i

/-- R53, R57, R58: a word has one meaning, and a decoded command is well formed and encodes to the word it came from. -/
def Obligations.EncodeOfDecodeIsTheWord : Prop :=
  ∀ (w : CmdWord) (i : Instr), decode w = .legal i → i.wf = true ∧ encode i = w

/-! ### What each command does -/

/-- R112, R113: `BE_NEW` in every phase. `faults` is kept. -/
def Obligations.BeNewCreatesEmptyEmitter : Prop :=
  encodedAs 0x01 (fun aux imm => aux = 0 ∧ imm = 0) (fun _ _ => .beNew) ∧
  ∀ s : State, exec .beNew s = .next { s with buf := [], phase := .raw, rspPort := some ⟨0, 0⟩ }

/-- R121, R122: `NAL_START` in every phase; with `forbidden_zero_bit = 1` it constructs nothing. -/
def Obligations.NalStartWritesStartCodeAndHeader : Prop :=
  encodedAs 0x02 (fun _ imm => imm >>> 1 = 0)
    (fun aux imm =>
      .nalStart (aux.getLsbD 7) (aux.extractLsb' 5 2).toNat (aux.extractLsb' 0 5).toNat (imm.getLsbD 0)) ∧
  ∀ (s : State) (ref typ : Nat) (longSc : Bool),
    exec (.nalStart false ref typ longSc) s = .next { s with
      buf := (zeros (if longSc then 31 else 23) ++ [true]) ++ ([false] ++ bitsMsb ref 2 ++ bitsMsb typ 5)
      phase := .opened
      rspPort := some ⟨0, if longSc then 40 else 32⟩ } ∧
    exec (.nalStart true ref typ longSc) s = .next (faulted s 2)

/-- R123: the layout of what `NAL_START` writes, bit by bit and as bytes; the header byte is the `aux` byte of its word. -/
def Obligations.NalStartLayout : Prop :=
  ∀ (s : State) (ref typ : Nat) (longSc : Bool), ref < 4 → typ < 32 →
    ∃ t, exec (.nalStart false ref typ longSc) s = .next t ∧
      auxField (encode (.nalStart false ref typ longSc)) = BitVec.ofNat 8 (ref * 32 + typ) ∧
      (longSc = true →
        t.buf.take 31 = zeros 31 ∧ t.buf[31]? = some true ∧ t.buf[32]? = some false ∧
        natOfBits ((t.buf.drop 33).take 2) = ref ∧ natOfBits ((t.buf.drop 35).take 5) = typ ∧ t.buf.length = 40 ∧
        pack t.buf = [0x00#8, 0x00#8, 0x00#8, 0x01#8, BitVec.ofNat 8 (ref * 32 + typ)]) ∧
      (longSc = false →
        t.buf.take 23 = zeros 23 ∧ t.buf[23]? = some true ∧ t.buf[24]? = some false ∧
        natOfBits ((t.buf.drop 25).take 2) = ref ∧ natOfBits ((t.buf.drop 27).take 5) = typ ∧ t.buf.length = 32 ∧
        pack t.buf = [0x00#8, 0x00#8, 0x01#8, BitVec.ofNat 8 (ref * 32 + typ)])

/-- R81: `APPEND_BIT`, with its checks in order. -/
def Obligations.AppendBitAppendsOneBit : Prop :=
  encodedAs 0x10 (fun aux _ => aux = 0) (fun _ imm => .appendBit imm.toNat) ∧
  ∀ (s : State) (b : Nat),
    (¬ accepts s → exec (.appendBit b) s = .next (faulted s 4)) ∧
    (accepts s → 1 < b → exec (.appendBit b) s = .next (faulted s 1)) ∧
    (accepts s → b ≤ 1 → ¬ room s 1 → exec (.appendBit b) s = .next (faulted s 8)) ∧
    (accepts s → b ≤ 1 → room s 1 → exec (.appendBit b) s = .next (appended s [decide (b = 1)]))

/-- R83: `APPEND_BITS`, with its checks in order. -/
def Obligations.AppendBitsAppendsField : Prop :=
  encodedAs 0x11 (fun _ _ => True) (fun aux imm => .appendBits aux.toInt imm.toNat) ∧
  ∀ (s : State) (n : Int) (raw : Nat),
    (¬ accepts s → exec (.appendBits n raw) s = .next (faulted s 4)) ∧
    (accepts s → (n < 0 ∨ 2 ^ n.toNat ≤ raw) → exec (.appendBits n raw) s = .next (faulted s 1)) ∧
    (accepts s → 0 ≤ n → raw < 2 ^ n.toNat → ¬ room s n.toNat → exec (.appendBits n raw) s = .next (faulted s 8)) ∧
    (accepts s → 0 ≤ n → raw < 2 ^ n.toNat → room s n.toNat →
      exec (.appendBits n raw) s = .next (appended s (bitsMsb raw n.toNat)))

/-- R83: the bits a field adds, read as an MSB-first number, are the field's value. -/
def Obligations.AppendedFieldReadsBack : Prop :=
  ∀ (s : State) (n raw : Nat), accepts s → raw < 2 ^ n → room s n →
    ∃ t, exec (.appendBits n raw) s = .next t ∧ s.buf <+: t.buf ∧ t.buf.length = s.buf.length + n ∧
      natOfBits (t.buf.drop s.buf.length) = raw

/-- R84: a value fits when it is below `2^n`; for a width of 32 or more every 32-bit value fits, and the field is `n - 32` zero bits
and the 32 bits of the value. No word carries a value of 2^32 or more or a width above 127. -/
def Obligations.WideFieldIsZeroExtended : Prop :=
  (∀ (s : State) (n raw : Nat), accepts s → room s n →
    (raw < 2 ^ n ↔ exec (.appendBits n raw) s = .next (appended s (bitsMsb raw n)))) ∧
  (∀ (s : State) (n raw : Nat), 32 ≤ n → raw < 2 ^ 32 → raw < 2 ^ n ∧ (accepts s → room s n →
    exec (.appendBits n raw) s = .next (appended s (zeros (n - 32) ++ bitsMsb raw 32)))) ∧
  (∀ (w : CmdWord) (n : Int) (raw : Nat), decode w = .legal (.appendBits n raw) → raw < 2 ^ 32 ∧ n ≤ 127)

/-- R82: `APPEND_BIT b` and `APPEND_BITS 1, b` are the same function of the state. -/
def Obligations.AppendBitIsAppendBitsOfWidthOne : Prop :=
  ∀ (s : State) (b : Nat), exec (.appendBit b) s = exec (.appendBits 1 b) s

/-- R45: one field of width `a + b` gives the same buffer as its high part of width `a` and then its low part of width `b`. -/
def Obligations.SplitFieldGivesSameBuffer : Prop :=
  ∀ (s : State) (a b v : Nat), accepts s → v < 2 ^ (a + b) → room s (a + b) →
    ∃ t t1 t2, exec (.appendBits (a + b) v) s = .next t ∧ exec (.appendBits a (v / 2 ^ b)) s = .next t1 ∧
      exec (.appendBits b (v % 2 ^ b)) t1 = .next t2 ∧ t2 = t

/-- R92: `APPEND_UE`, with its checks in order. -/
def Obligations.AppendUeAppendsCode : Prop :=
  encodedAs 0x12 (fun aux _ => aux = 0) (fun _ imm => .appendUe imm.toInt) ∧
  ∀ (s : State) (v : Int),
    (¬ accepts s → exec (.appendUe v) s = .next (faulted s 4)) ∧
    (accepts s → v < 0 → exec (.appendUe v) s = .next (faulted s 2)) ∧
    (accepts s → 0 ≤ v → ¬ room s (2 * floorLog2 (v.toNat + 1) + 1) → exec (.appendUe v) s = .next (faulted s 8)) ∧
    (accepts s → 0 ≤ v → room s (2 * floorLog2 (v.toNat + 1) + 1) →
      exec (.appendUe v) s = .next (appended s (ueCode v.toNat)))

/-- R96: `APPEND_SE`, with its checks in order; every operand is legal. -/
def Obligations.AppendSeAppendsCode : Prop :=
  encodedAs 0x13 (fun aux _ => aux = 0) (fun _ imm => .appendSe imm.toInt) ∧
  ∀ (s : State) (v : Int),
    (¬ accepts s → exec (.appendSe v) s = .next (faulted s 4)) ∧
    (accepts s → ¬ room s (ueCode (seMap v)).length → exec (.appendSe v) s = .next (faulted s 8)) ∧
    (accepts s → room s (ueCode (seMap v)).length → exec (.appendSe v) s = .next (appended s (ueCode (seMap v))))

/-- R91, R93: the unsigned code, with `k` the exact integer logarithm, and the equal form that needs no subtraction. -/
def Obligations.UeCodeIsZerosOneSuffix : Prop :=
  ∀ c : Nat, ∃ k, k = floorLog2 (c + 1) ∧ 2 ^ k ≤ c + 1 ∧ c + 1 < 2 ^ (k + 1) ∧ c + 1 - 2 ^ k < 2 ^ k ∧
    ueCode c = zeros k ++ [true] ++ bitsMsb (c + 1 - 2 ^ k) k ∧ (ueCode c).length = 2 * k + 1 ∧
    ueCode c = zeros k ++ bitsMsb (c + 1) (k + 1)

/-- R98: decoding a code followed by any bits gives the codeNum back and leaves exactly those bits; with the signed mapping too. -/
def Obligations.ExpGolombRoundTrip : Prop :=
  (∀ (c : Nat) (r : List Bit), ueDecode (ueCode c ++ r) = some (c, r)) ∧
  ∀ (v : Int) (r : List Bit), (ueDecode (ueCode (seMap v) ++ r)).map (fun x => seUnmap x.1) = some v

/-- R99: the code is prefix-free, and no two operands of one command give the same bits. -/
def Obligations.ExpGolombIsPrefixFree : Prop :=
  (∀ c1 c2 : Nat, c1 ≠ c2 → ¬ ueCode c1 <+: ueCode c2) ∧
  (∀ v1 v2 : Int, ueCode (seMap v1) = ueCode (seMap v2) → v1 = v2)

/-- R95, R97: the zig-zag rule, R97's table of it, and that it is a bijection with the inverse R97 gives. -/
def Obligations.SignedMappingIsBijection : Prop :=
  (∀ v : Int, v ≤ 0 → (seMap v : Int) = 2 * (v.natAbs : Int)) ∧ (∀ v : Int, 0 < v → (seMap v : Int) = 2 * v - 1) ∧
  (∀ v : Int, seUnmap (seMap v) = v) ∧ (∀ c : Nat, seMap (seUnmap c) = c) ∧
  (∀ v : Int, 0 < v ↔ seMap v % 2 = 1) ∧
  ([0, 1, -1, 2, -2, 3, -3, 4, -4] : List Int).map seMap = [0, 1, 2, 3, 4, 5, 6, 7, 8] ∧
  ([0, 1, -1, 2, -2, 3, -3, 4, -4] : List Int).map (fun v => ueCode (seMap v)) =
    [bitsMsb 0b1 1, bitsMsb 0b010 3, bitsMsb 0b011 3, bitsMsb 0b00100 5, bitsMsb 0b00101 5, bitsMsb 0b00110 5,
     bitsMsb 0b00111 5, bitsMsb 0b0001000 7, bitsMsb 0b0001001 7]

/-- R100, R101: the length law of the two commands, that the growth is odd, and the ranges for the operands a command word can
carry. -/
def Obligations.ExpGolombLengthLaw : Prop :=
  (∀ (s : State) (v : Int), accepts s → 0 ≤ v → room s (2 * floorLog2 (v.toNat + 1) + 1) →
    ∃ t, exec (.appendUe v) s = .next t ∧ t.buf.length = s.buf.length + (2 * floorLog2 (v.toNat + 1) + 1) ∧
      (t.buf.length - s.buf.length) % 2 = 1) ∧
  (∀ (s : State) (v : Int), accepts s → room s (2 * floorLog2 (seMap v + 1) + 1) →
    ∃ t, exec (.appendSe v) s = .next t ∧ t.buf.length = s.buf.length + (2 * floorLog2 (seMap v + 1) + 1) ∧
      (t.buf.length - s.buf.length) % 2 = 1) ∧
  (∀ v : Int, 0 ≤ v → v < 2 ^ 31 → v.toNat + 1 ≤ 2 ^ 31 ∧ floorLog2 (v.toNat + 1) ≤ 31 ∧ (ueCode v.toNat).length ≤ 63) ∧
  (∀ v : Int, -2 ^ 31 ≤ v → v < 2 ^ 31 → v.natAbs ≤ 2 ^ 31 ∧ seMap v ≤ 2 ^ 32 ∧ seMap v + 1 ≤ 2 ^ 32 + 1 ∧
    floorLog2 (seMap v + 1) ≤ 32 ∧ (ueCode (seMap v)).length ≤ 65)

/-- R114: `BIT_LENGTH`. -/
def Obligations.BitLengthReportsLength : Prop :=
  encodedAs 0x20 (fun aux imm => aux = 0 ∧ imm = 0) (fun _ _ => .bitLength) ∧
  ∀ s : State,
    (s.phase = .idle ∨ s.phase = .failed → exec .bitLength s = .next (faulted s 4)) ∧
    (s.phase ≠ .idle → s.phase ≠ .failed → exec .bitLength s = .next { s with rspPort := some (okRsp s.buf.length) })

/-- R116, R117: `TO_BYTES`, with its checks in order. That the return log's new element is opened by the `emit` and filled by the
beats is the model's choice (log 4). -/
def Obligations.ToBytesEmitsPackedBuffer : Prop :=
  encodedAs 0x21 (fun aux imm => aux = 0 ∧ imm = 0) (fun _ _ => .toBytes) ∧
  ∀ s : State,
    (s.phase ≠ .raw → exec .toBytes s = .next (faulted s 4)) ∧
    (s.phase = .raw → s.buf.length % 8 ≠ 0 → exec .toBytes s = .next (faulted s 6)) ∧
    (s.phase = .raw → s.buf.length % 8 = 0 → exec .toBytes s = .next { s with
      bytePort := s.bytePort ++ beatsOf .ret (pack s.buf), ret := s.ret ++ [[]],
      rspPort := some (okRsp s.buf.length) })

/-- R127: `FINALIZE`, with its checks in order. Since `CAP_BITS` is a multiple of 8, it overflows only when the buffer is
exactly full. -/
def Obligations.FinalizeAppendsTrailingBits : Prop :=
  encodedAs 0x30 (fun aux imm => aux = 0 ∧ imm = 0) (fun _ _ => .finalize) ∧
  ∀ s : State,
    (s.phase ≠ .opened → exec .finalize s = .next (faulted s 4)) ∧
    (s.phase = .opened → ¬ room s (8 - s.buf.length % 8) → exec .finalize s = .next (faulted s 8)) ∧
    (s.phase = .opened → room s (8 - s.buf.length % 8) →
      exec .finalize s = .next { appended s (trailing s.buf.length) with phase := .finalized }) ∧
    (∀ c, s.cap = some c → Config.capLegal s.cap = true → s.buf.length ≤ c →
      (¬ room s (8 - s.buf.length % 8) ↔ s.buf.length = c))

/-- R126: the trailing bits of a buffer of length `L`. -/
def Obligations.TrailingBitsReachByteBoundary : Prop :=
  ∀ L : Nat, trailing L = [true] ++ zeros ((8 - (L + 1) % 8) % 8) ∧ trailing L = [true] ++ zeros (7 - L % 8) ∧
    (trailing L).length = 8 - L % 8 ∧ 1 ≤ (trailing L).length ∧ (trailing L).length ≤ 8 ∧
    (L + (trailing L).length) % 8 = 0

/-- R129: after a successful `FINALIZE` the length is a multiple of 8, the last byte is not zero, and the last 1 bit of the buffer
is the stop bit, so that the payload's end is found by scanning back; and the buffer stays so while the phase is `FINAL` or
`FLUSHED`. -/
def Obligations.FinalizedBufferEndsInStopBit : Prop :=
  (∀ s : State, s.phase = .opened → room s (8 - s.buf.length % 8) →
    ∃ t b, exec .finalize s = .next t ∧ t.phase = .finalized ∧ t.buf.length % 8 = 0 ∧
      (pack t.buf).getLast? = some b ∧ b ≠ 0 ∧
      (t.buf.reverse.dropWhile fun x => !x) = true :: s.buf.reverse) ∧
  (∀ (s t : State) (w : CmdWord), s.phase.closed = true → execWord w s = .next t → t.phase.closed = true → t.buf = s.buf)

/-- R131: `FLUSH` in every phase; in `FINAL` for the aligned buffers R129 promises. The buffer is kept. `exec` answers the state
writes with the beats still pending; that the phase is `FLUSHED` already there is the model's choice (log 19). -/
def Obligations.FlushEmitsUnitToSink : Prop :=
  encodedAs 0x31 (fun aux imm => aux = 0 ∧ imm = 0) (fun _ _ => .flush) ∧
  ∀ s : State,
    (s.phase = .flushed → exec .flush s = .next (faulted s 5)) ∧
    (s.phase ≠ .flushed → s.phase ≠ .finalized → exec .flush s = .next (faulted s 4)) ∧
    (s.phase = .finalized → s.buf.length % 8 = 0 → exec .flush s = .next { s with
      bytePort := s.bytePort ++ beatsOf .sink (pack s.buf), phase := .flushed,
      rspPort := some (okRsp s.buf.length) })

/-- Log 10, the model's choice: where R35 does not define `pack`, the machine stops, and only there; no state that meets the
invariant is such a state. -/
def Obligations.MachineStopsOnlyWherePackIsUndefined : Prop :=
  (∀ (i : Instr) (s : State), unalignedFlush i s → exec i s = .fault .packUndefined) ∧
  (∀ (i : Instr) (s : State), ¬ unalignedFlush i s → ∃ t, exec i s = .next t) ∧
  (∀ (i : Instr) (s : State), s.Inv → ¬ unalignedFlush i s)

/-! ### Bytes and ports -/

/-- R31, R35: `pack`, byte by byte and bit by bit: bit `buf[i]` is bit `7 - (i mod 8)` of byte `i div 8`. -/
def Obligations.PackIsMsbFirst : Prop :=
  pack [] = [] ∧ ∀ buf : List Bit, buf.length % 8 = 0 →
    (pack buf).length = buf.length / 8 ∧
    (∀ (j : Nat) (b : Byte), (pack buf)[j]? = some b → b.toNat = packedByte buf j) ∧
    (∀ (i : Nat) (x : Bit), buf[i]? = some x → ((pack buf)[i / 8]?.map fun b => b.getLsbD (7 - i % 8)) = some x)

/-- R56: the beats of one `emit`. -/
def Obligations.EmitBeatsCarryBytesInOrder : Prop :=
  ∀ (d : Dest) (bytes : List Byte), (beatsOf d bytes).length = bytes.length ∧
    ∀ j : Nat, (beatsOf d bytes)[j]? =
      bytes[j]?.map fun b => { data := b, last := decide (j + 1 = bytes.length), dest := d }

/-- R131, R116, R37, R39: a whole `FLUSH` span puts the packed buffer in the sink, in order, and nothing on the return channel; a
whole `TO_BYTES` span returns it to the caller, sends nothing to the sink and changes nothing of the block, so that it may be
repeated. -/
def Obligations.ByteSpansDeliverPackedBuffer : Prop :=
  (∀ (s : State) (rest : List HostMove), cmdReady s = true → s.moves = .command 0x310000000000#48 :: rest →
    s.phase = .finalized → s.buf.length % 8 = 0 →
    step s = .next { s with
      moves := rest, draw := s.draw + 1, phase := .flushed, sink := s.sink ++ pack s.buf,
      responses := s.responses ++ [okRsp s.buf.length] }) ∧
  (∀ (s : State) (rest : List HostMove), cmdReady s = true → s.moves = .command 0x210000000000#48 :: rest →
    s.phase = .raw → s.buf.length % 8 = 0 →
    step s = .next { s with
      moves := rest, draw := s.draw + 1, ret := s.ret ++ [pack s.buf],
      responses := s.responses ++ [okRsp s.buf.length] })

/-- R55, R209: a command other than `FLUSH` and `TO_BYTES` offers its response at once; those two offer it when their beats have
been taken, and until then the next beat is on offer. -/
def Obligations.ResponseFollowsLastBeat : Prop :=
  ∀ (s t : State) (w : CmdWord), cmdReady s = true → execWord w s = .next t →
    (decode w ≠ .legal .flush → decode w ≠ .legal .toBytes → rspValid t = true) ∧
    (∀ k, k < t.bytePort.length → rspValid (State.takeBeats k t) = false ∧ boValid (State.takeBeats k t) = true) ∧
    rspValid (State.takeBeats t.bytePort.length t) = true ∧ cmdReady t = false

/-- R51, R209: while a command is in progress no command word is transferred: the word stays on offer and nothing of the block or
its ports changes; a reset edge ends the wait. That a step is one move (logs 1 and 9), and that the
edge leaves `ret` and `responses` as they are (log 7), is the model's choice. -/
def Obligations.BusyBlockAcceptsNoCommand : Prop :=
  (∀ (s : State) (w : CmdWord) (rest : List HostMove), cmdReady s = false →
    s.moves = .command w :: rest ∨ s.moves = .offer w :: rest → step s = .next { s with draw := s.draw + 1 }) ∧
  (∀ (s : State) (o : Option CmdWord) (rest : List HostMove), cmdReady s = false → s.moves = .reset o :: rest →
    ∃ t, step s = .next t ∧ cmdReady t = true ∧ t.ret = s.ret ∧ t.responses = s.responses)

/-- R51, R55, R56: the whole span is the transfer of the word, the transfers of its beats, and the transfer of its response. That a
step is one move of the host's list is the model's form (log 1). -/
def Obligations.CommandSpanIsItsTransfers : Prop :=
  ∀ (s t : State) (w : CmdWord), cmdReady s = true → execWord w s = .next t →
    ∃ u v, steps 1 (s.withMoves [.command w]) = .next u ∧
      steps (t.bytePort.length + 2)
        (s.withMoves (.offer w :: List.replicate t.bytePort.length .takeBeat ++ [.takeResponse])) = .next v ∧
      u = { v with draw := s.draw + 1 }

/-- R203: reset in mid-command, for every prefix length. The state is the reset state, the response is dropped, and exactly the
bytes taken before the reset have left. What the return log holds after a cut `TO_BYTES` (log 4), and that the reset leaves `ret` and
`responses` as they were (log 7), is the model's choice. -/
def Obligations.ResetMidCommandLeavesPrefix : Prop :=
  (∀ (s : State) (k : Nat) (o : Option CmdWord) (rest : List HostMove), cmdReady s = true → s.phase = .finalized →
    s.buf.length % 8 = 0 → k ≤ s.buf.length / 8 →
    s.moves = .offer 0x310000000000#48 :: List.replicate k .takeBeat ++ .reset o :: rest →
    ∃ t, steps (k + 2) s = .next t ∧ t.phase = .idle ∧ t.buf = [] ∧ t.faults = 0 ∧ t.bytePort = [] ∧ t.rspPort = none ∧
      t.sink = s.sink ++ (pack s.buf).take k ∧ t.ret = s.ret ∧ t.responses = s.responses ∧ t.moves = rest) ∧
  (∀ (s : State) (k : Nat) (o : Option CmdWord) (rest : List HostMove), cmdReady s = true → s.phase = .raw →
    s.buf.length % 8 = 0 → k ≤ s.buf.length / 8 →
    s.moves = .offer 0x210000000000#48 :: List.replicate k .takeBeat ++ .reset o :: rest →
    ∃ t, steps (k + 2) s = .next t ∧ t.phase = .idle ∧ t.buf = [] ∧ t.faults = 0 ∧ t.bytePort = [] ∧ t.rspPort = none ∧
      t.sink = s.sink ∧ t.ret = s.ret ++ [(pack s.buf).take k] ∧ t.responses = s.responses ∧ t.moves = rest)

/-- R17: the status outputs. Nothing is said of `st_len` and `st_aligned` in `FAILED`. -/
def Obligations.StatusOutputsShowTheState : Prop :=
  ∀ s : State, stFaults s = s.faults ∧
    (s.phase = .idle → stPhase s = 0 ∧ stLen s = 0 ∧ stAligned s = true) ∧
    (s.phase = .raw → stPhase s = 1) ∧ (s.phase = .opened → stPhase s = 2) ∧ (s.phase = .finalized → stPhase s = 3) ∧
    (s.phase = .flushed → stPhase s = 4) ∧ (s.phase = .failed → stPhase s = 7) ∧
    (s.phase ≠ .idle → s.phase ≠ .failed → s.buf.length < 2 ^ 32 →
      stLen s = BitVec.ofNat 32 s.buf.length ∧ (stAligned s = true ↔ s.buf.length % 8 = 0))

/-- R115: the response data of a successful command, `st_len` after it, and a `BIT_LENGTH` issued next agree. -/
def Obligations.ThreeViewsOfLengthAgree : Prop :=
  ∀ (s t : State) (w : CmdWord) (r : Response) (rest : List HostMove), cmdReady s = true →
    s.moves = .command w :: rest → step s = .next t → t.responses = s.responses ++ [r] → r.status = 0 →
    r.data = stLen t ∧
    ∃ u, step (t.withMoves [.command 0x200000000000#48]) = .next u ∧ u.responses = t.responses ++ [r]

/-! ### Faults and the phase machine -/

/-- R175, R178, R173: a transfer whose response is a fault has done nothing but what a fault does: no bit, no beat, its one bit in
`faults`, `FAILED` exactly for the fatal causes. -/
def Obligations.FaultLeavesNoPartialEffect : Prop :=
  ∀ (s t : State) (w : CmdWord) (r : Response), execWord w s = .next t → t.rspPort = some r → r.status ≠ 0 →
    ∃ c, 1 ≤ c ∧ c ≤ 8 ∧ c ≠ 3 ∧ r = ⟨BitVec.ofNat 8 c, 0⟩ ∧ t = faulted s c

/-- R176: a command reports the first applicable cause in the order of priority, and succeeds if none applies. -/
def Obligations.FirstApplicableCauseIsReported : Prop :=
  ∀ (s : State) (w : CmdWord), (∀ i, decode w = .legal i → ¬ unalignedFlush i s) →
    ∃ t r, execWord w s = .next t ∧ t.rspPort = some r ∧
      r.status = BitVec.ofNat 8 ((priority.find? (applies w s)).getD 0)

/-- R177: which command can raise which cause, and that it can. -/
def Obligations.CommandsRaiseOnlyTheirCauses : Prop :=
  (∀ (i : Instr) (s t : State) (r : Response), exec i s = .next t → t.rspPort = some r →
    r.status = 0 ∨ ∃ c ∈ canRaise i, r.status = BitVec.ofNat 8 c) ∧
  (∀ (i : Instr) (c : Nat), c ∈ canRaise i →
    ∃ (j : Instr) (s t : State) (r : Response), j.opcode = i.opcode ∧ j.wf = true ∧ exec j s = .next t ∧
      t.rspPort = some r ∧ r.status = BitVec.ofNat 8 c)

/-- R180: the complete phase table. The new phase is the one once the command has been answered; a rejecting fault leaves it as it
was, and only the commands marked (op) raise one. -/
def Obligations.PhaseTable : Prop :=
  ∀ (i : Instr) (s : State), ¬ unalignedFlush i s →
    ∃ t r, exec i s = .next t ∧ t.rspPort = some r ∧
      (∀ c, phaseFault i s.phase = some c → r.status = BitVec.ofNat 8 c ∧ t.deliver.phase = .failed) ∧
      (phaseFault i s.phase = none → r.status = 0 → t.deliver.phase = phaseAfter i s.phase) ∧
      (phaseFault i s.phase = none → r.status ≠ 0 →
        (i = .toBytes ∧ r.status = 6 ∧ t.deliver.phase = .failed) ∨
        (hasOperandChecks i = true ∧ (r.status = 1 ∨ r.status = 2 ∨ r.status = 8) ∧ t.deliver.phase = s.phase))

/-- R179: only `BE_NEW` and `NAL_START` with `aux[7] = 0` leave `FAILED`, besides reset; what any other word is answered there;
`faults` keeps every bit. -/
def Obligations.OnlyConstructorsLeaveFailed : Prop :=
  ∀ (s t : State) (w : CmdWord), s.phase = .failed → execWord w s = .next t →
    (t.phase ≠ .failed ↔
      decode w = .legal .beNew ∨ ∃ ref typ longSc, decode w = .legal (.nalStart false ref typ longSc)) ∧
    (∀ c, s.faults.getLsbD c = true → t.faults.getLsbD c = true) ∧
    (∀ r, t.rspPort = some r →
      (∀ i, decode w = .legal i → isConstructor i = false → r.status = 4) ∧
      ((∀ i, decode w ≠ .legal i) → r.status = 7) ∧
      (∀ ref typ longSc, decode w = .legal (.nalStart true ref typ longSc) → r.status = 2))

/-- R16: `faults` is sticky and unread: no step but a reset edge clears a bit, bits 0 and 3 are never set, and a command does the
same whatever the mask holds; a command that faults sets the bit of its code. -/
def Obligations.FaultMaskIsStickyAndUnread : Prop :=
  (∀ s t : State, step s = .next t → (∀ o rest, s.moves ≠ .reset o :: rest) →
    (∀ c, s.faults.getLsbD c = true → t.faults.getLsbD c = true) ∧
    t.faults.getLsbD 0 = s.faults.getLsbD 0 ∧ t.faults.getLsbD 3 = s.faults.getLsbD 3) ∧
  (∀ (s t : State) (w : CmdWord), execWord w s = .next t →
    ∃ d : BitVec 9, t.faults = s.faults ||| d ∧
      ∀ f : BitVec 9, execWord w { s with faults := f } = .next { t with faults := f ||| d }) ∧
  (∀ (s t : State) (w : CmdWord) (r : Response), execWord w s = .next t → t.rspPort = some r → r.status ≠ 0 →
    t.faults.getLsbD r.status.toNat = true)

/-- R15: within the life of one instance the buffer only grows, at its end, and a command that faults leaves it as it was. -/
def Obligations.BufferGrowsOnlyAtItsEnd : Prop :=
  ∀ (s t : State) (w : CmdWord), execWord w s = .next t →
    ((∀ i, decode w = .legal i → isConstructor i = false) → s.buf <+: t.buf) ∧
    (∀ r, t.rspPort = some r → r.status ≠ 0 → t.buf = s.buf)

/-- The frame of the ten commands: the parameter, the sink, the responses taken, the host's moves and the counter are unchanged by
each; only `TO_BYTES` and `FLUSH` touch the byte port, only `TO_BYTES` the return log, only appends, `FINALIZE` and the
constructors the buffer, and a success touches no fault bit. -/
def Obligations.CommandFrame : Prop :=
  ∀ (i : Instr) (s t : State), exec i s = .next t →
    t.cap = s.cap ∧ t.sink = s.sink ∧ t.responses = s.responses ∧ t.moves = s.moves ∧ t.draw = s.draw ∧
    (i ≠ .toBytes → i ≠ .flush → t.bytePort = s.bytePort) ∧ (i ≠ .toBytes → t.ret = s.ret) ∧
    (isAppend i = false → isConstructor i = false → i ≠ .finalize → t.buf = s.buf) ∧
    (t.rspPort = some (okRsp t.buf.length) → t.faults = s.faults) ∧
    (isAppend i = true → t.phase = s.phase ∨ t.phase = .failed)

/-- R23, R54, R56: the invariants hold in the reset state. -/
def Obligations.ResetMeetsInvariant : Prop := State.reset.Inv

/-- R23 I-a to I-e, with the port invariants: every step of the machine, whatever the host does, keeps them. -/
def Obligations.EveryStepKeepsInvariant : Prop := ∀ s t : State, s.Inv → step s = .next t → t.Inv

/-- R22: the step is total: from a state that meets the invariant it always answers a next state. -/
def Obligations.NoStepStopsUnderInvariant : Prop := ∀ s : State, s.Inv → ∃ t, step s = .next t

/-- R55, R42 item 3: one response per command, in order, and the host's other moves add none but the one on offer. -/
def Obligations.OneResponsePerCommand : Prop :=
  ∀ (s t : State) (w : CmdWord) (rest : List HostMove), cmdReady s = true → s.moves = .command w :: rest →
    step s = .next t → cmdReady t = true ∧ ∃ r, t.responses = s.responses ++ [r] ∧ statusLegal r = true

/-! ### Whole units -/

/-- R131, R132, R134: a command span changes the sink only if it is a `FLUSH` in `FINAL`, and then by exactly the packed buffer,
which begins with a start code. -/
def Obligations.SinkGrowsOnlyByWholeUnits : Prop :=
  ∀ (s t : State) (w : CmdWord) (rest : List HostMove), s.Inv → cmdReady s = true → s.moves = .command w :: rest →
    step s = .next t → t.sink ≠ s.sink →
    decode w = .legal .flush ∧ s.phase = .finalized ∧ t.phase = .flushed ∧ t.sink = s.sink ++ pack s.buf ∧
      ([0x00#8, 0x00#8, 0x00#8, 0x01#8] <+: pack s.buf ∨ [0x00#8, 0x00#8, 0x01#8] <+: pack s.buf)

/-- R65, R120, R134: `NAL_START`, any appends with legal operands, `FINALIZE`, `FLUSH`, from any state in which the block is ready
and with room for the unit, puts exactly one unit in the output format into the sink; every command succeeds. -/
def Obligations.FlushedUnitHasOutputFormat : Prop :=
  ∀ (s : State) (longSc : Bool) (ref typ : Nat) (is : List Instr), cmdReady s = true → ref < 4 → typ < 32 →
    (∀ i ∈ is, legalAppend i = true ∧ i.wf = true) →
    (∀ c, s.cap = some c → unitLen longSc is ≤ c) →
    ∃ t, steps (is.length + 3)
        (s.withMoves (commandMoves (.nalStart false ref typ longSc :: is ++ [.finalize, .flush]))) = .next t ∧
      t.sink = s.sink ++ unitBytes longSc ref typ (payloadBits is) ∧ t.ret = s.ret ∧ t.faults = s.faults ∧
      t.phase = .flushed ∧ t.moves = s.moves ∧ cmdReady t = true ∧
      ∃ rs, t.responses = s.responses ++ rs ∧ rs.length = is.length + 3 ∧ ∀ r ∈ rs, r.status = 0

/-- R24, R136: what the block does after a `NAL_START` depends on the command words alone: from any two states in which the block
is ready (whatever earlier units, faults or logs they hold), the same words give the same phase, buffer, bytes and responses. -/
def Obligations.UnitDependsOnItsCommandsOnly : Prop :=
  ∀ (s1 s2 t1 : State) (longSc : Bool) (ref typ : Nat) (ws : List CmdWord), cmdReady s1 = true → cmdReady s2 = true →
    s1.cap = s2.cap → ref < 4 → typ < 32 →
    steps (ws.length + 1)
      (s1.withMoves (.command (encode (.nalStart false ref typ longSc)) :: ws.map HostMove.command)) = .next t1 →
    ∃ t2 bytes rets rsps,
      steps (ws.length + 1)
        (s2.withMoves (.command (encode (.nalStart false ref typ longSc)) :: ws.map HostMove.command)) = .next t2 ∧
      t2.phase = t1.phase ∧ t2.buf = t1.buf ∧
      t1.sink = s1.sink ++ bytes ∧ t2.sink = s2.sink ++ bytes ∧ t1.ret = s1.ret ++ rets ∧ t2.ret = s2.ret ++ rets ∧
      t1.responses = s1.responses ++ rsps ∧ t2.responses = s2.responses ++ rsps

/-! ### The host driver -/

/-- R146, R149: an export fails with `UnsupportedFeature`, before any command is issued, exactly for these configurations. -/
def Obligations.UnsupportedExportsFail : Prop :=
  (∀ f : Driver.SpsFields, Driver.spsExport f = .failed .unsupportedFeature ↔
    f.pocType = 1 ∨ f.frameMbsOnly = false ∨ f.cropping = true ∨ f.vui = true) ∧
  (∀ f : Driver.PpsFields, Driver.ppsExport f = .failed .unsupportedFeature ↔ 0 < f.numSliceGroupsMinus1)

/-- R157: an exported SPS has at most 512 bits and an exported PPS at most 504, trailing bits included; and the smallest ones. -/
def Obligations.ExportsAreBounded : Prop :=
  (∀ f : Driver.SpsFields, f.legal = true → f.unsupported = false →
    unitLen (f.sc == 4) f.payload ≤ 512 ∧ headerLen (f.sc == 4) + 40 ≤ unitLen (f.sc == 4) f.payload) ∧
  (∀ f : Driver.PpsFields, f.legal = true → f.unsupported = false →
    unitLen (f.sc == 4) f.payload ≤ 504 ∧ headerLen (f.sc == 4) + 24 ≤ unitLen (f.sc == 4) f.payload) ∧
  (∃ f : Driver.SpsFields, f.legal = true ∧ f.unsupported = false ∧ unitLen (f.sc == 4) f.payload = 80) ∧
  (∃ f : Driver.PpsFields, f.legal = true ∧ f.unsupported = false ∧ unitLen (f.sc == 4) f.payload = 64)

/-- R145, R150: the two expansions, for all operands a command word can carry, in their domains or not; with every operand in its
domain and `CAP_BITS >= 512` the export runs to its end with no fault and puts one unit into the sink. That field 7a is a `ue(v)`
directly after field 7 is presumed (log 15); what an export does with operands no word can carry is not stated here (log 20). -/
def Obligations.LegalExportDeliversOneUnit : Prop :=
  (∀ f : Driver.SpsFields, f.unsupported = false → Driver.headerLegal f.sc f.ref f.typ = true →
    f.codes.all Driver.FieldCode.carried = true →
    Driver.spsExport f = .commands (
      [.nalStart false f.ref f.typ (f.sc == 4), .appendBits 8 f.profileIdc.toNat, .appendBits 1 f.cs0.toNat,
       .appendBits 1 f.cs1.toNat, .appendBits 1 f.cs2.toNat, .appendBits 5 0, .appendBits 8 f.levelIdc.toNat,
       .appendUe f.spsId, .appendUe f.log2MaxFrameNumMinus4, .appendUe f.pocType] ++
      (if f.pocType = 0 then [.appendUe f.log2MaxPocLsbMinus4] else []) ++
      [.appendUe f.numRefFrames, .appendBits 1 f.gaps.toNat, .appendUe f.widthInMbsMinus1,
       .appendUe f.heightInMapUnitsMinus1, .appendBits 1 1, .appendBits 1 f.direct8x8.toNat, .appendBits 1 0,
       .appendBits 1 0, .finalize, .flush])) ∧
  (∀ f : Driver.PpsFields, f.numSliceGroupsMinus1 = 0 → Driver.headerLegal f.sc f.ref f.typ = true →
    f.codes.all Driver.FieldCode.carried = true →
    Driver.ppsExport f = .commands
      [.nalStart false f.ref f.typ (f.sc == 4), .appendUe f.ppsId, .appendUe f.spsId, .appendBits 1 f.entropy.toNat,
       .appendBits 1 f.picOrderPresent.toNat, .appendUe 0, .appendUe f.l0, .appendUe f.l1,
       .appendBits 1 f.weightedPred.toNat, .appendBits 2 f.weightedBipredIdc.toNat, .appendSe f.qp, .appendSe f.qs,
       .appendSe f.chroma, .appendBits 1 f.deblock.toNat, .appendBits 1 f.constrainedIntra.toNat,
       .appendBits 1 f.redundant.toNat, .finalize, .flush]) ∧
  (∀ (f : Driver.SpsFields) (s : State), f.legal = true → f.unsupported = false → cmdReady s = true →
    (∀ c, s.cap = some c → 512 ≤ c) →
    ∃ is t, Driver.spsExport f = .commands is ∧ is.length = (if f.pocType = 0 then 21 else 20) ∧
      Driver.drive is s = .next t ∧ t.phase = .flushed ∧ t.faults = s.faults ∧
      t.sink = s.sink ++ unitBytes (f.sc == 4) f.ref f.typ (payloadBits f.payload)) ∧
  (∀ (f : Driver.PpsFields) (s : State), f.legal = true → f.unsupported = false → cmdReady s = true →
    (∀ c, s.cap = some c → 512 ≤ c) →
    ∃ is t, Driver.ppsExport f = .commands is ∧ is.length = 18 ∧
      Driver.drive is s = .next t ∧ t.phase = .flushed ∧ t.faults = s.faults ∧
      t.sink = s.sink ++ unitBytes (f.sc == 4) f.ref f.typ (payloadBits f.payload))

/-- R153: the driver stops at the first non-zero status, so a failed export sends nothing to the sink. That a run
of the driver is a list of moves is the model's form (log 1). -/
def Obligations.FailedExportSendsNothing : Prop :=
  ∀ (is : List Instr) (s t : State), cmdReady s = true → Instr.flush ∉ is →
    Driver.drive (is ++ [.flush]) s = .next t → Driver.lastOk t = false → t.sink = s.sink

/-- R141, R142, R144: the setters. A numeric setter takes the integers in its field's domain, after R144's derivation for the two
dimensions, and refuses every other number, the non-integers among them, with the parameter set as it was; a flag takes both
values; an integer level gives `level * 10` if that fits `u(8)`. Of a level that is no integer, which R144 does not treat, only
that it is refused or gives a value that fits (log 21). That field 7a has the domain of a `ue(v)` is presumed (log 15). -/
def Obligations.SettersTakeDomainOrRefuse : Prop :=
  setterObeys Driver.SpsFields.setProfileIdc (uDomain 8) (fun f n => { f with profileIdc := n }) ∧
  setterObeys Driver.SpsFields.setSpsId ueDomain (fun f n => { f with spsId := n }) ∧
  setterObeys Driver.SpsFields.setLog2MaxFrameNumMinus4 ueDomain (fun f n => { f with log2MaxFrameNumMinus4 := n }) ∧
  setterObeys Driver.SpsFields.setPocType ueDomain (fun f n => { f with pocType := n }) ∧
  setterObeys Driver.SpsFields.setLog2MaxPocLsbMinus4 ueDomain (fun f n => { f with log2MaxPocLsbMinus4 := n }) ∧
  setterObeys Driver.SpsFields.setNumRefFrames ueDomain (fun f n => { f with numRefFrames := n }) ∧
  setterObeys Driver.SpsFields.setPixelWidth pixelDomain (fun f n => { f with widthInMbsMinus1 := n / 16 - 1 }) ∧
  setterObeys Driver.SpsFields.setPixelHeight pixelDomain (fun f n => { f with heightInMapUnitsMinus1 := n / 16 - 1 }) ∧
  setterObeys Driver.PpsFields.setPpsId ueDomain (fun f n => { f with ppsId := n }) ∧
  setterObeys Driver.PpsFields.setSpsId ueDomain (fun f n => { f with spsId := n }) ∧
  setterObeys Driver.PpsFields.setNumSliceGroupsMinus1 ueDomain (fun f n => { f with numSliceGroupsMinus1 := n }) ∧
  setterObeys Driver.PpsFields.setL0 ueDomain (fun f n => { f with l0 := n }) ∧
  setterObeys Driver.PpsFields.setL1 ueDomain (fun f n => { f with l1 := n }) ∧
  setterObeys Driver.PpsFields.setWeightedBipredIdc (uDomain 2) (fun f n => { f with weightedBipredIdc := n }) ∧
  setterObeys Driver.PpsFields.setQp seDomain (fun f n => { f with qp := n }) ∧
  setterObeys Driver.PpsFields.setQs seDomain (fun f n => { f with qs := n }) ∧
  setterObeys Driver.PpsFields.setChroma seDomain (fun f n => { f with chroma := n }) ∧
  (∀ (f : Driver.SpsFields) (b : Bool),
    f.setCs0 b = ({ f with cs0 := b }, none) ∧ f.setCs1 b = ({ f with cs1 := b }, none) ∧
    f.setCs2 b = ({ f with cs2 := b }, none) ∧ f.setGaps b = ({ f with gaps := b }, none) ∧
    f.setFrameMbsOnly b = ({ f with frameMbsOnly := b }, none) ∧ f.setDirect8x8 b = ({ f with direct8x8 := b }, none) ∧
    f.setCropping b = ({ f with cropping := b }, none) ∧ f.setVui b = ({ f with vui := b }, none)) ∧
  (∀ (f : Driver.PpsFields) (b : Bool),
    f.setEntropy b = ({ f with entropy := b }, none) ∧ f.setPicOrderPresent b = ({ f with picOrderPresent := b }, none) ∧
    f.setWeightedPred b = ({ f with weightedPred := b }, none) ∧ f.setDeblock b = ({ f with deblock := b }, none) ∧
    f.setConstrainedIntra b = ({ f with constrainedIntra := b }, none) ∧
    f.setRedundant b = ({ f with redundant := b }, none)) ∧
  (∀ (f : Driver.SpsFields) (n : Int),
    (uDomain 8 (n * 10) → f.setLevelNumber n = ({ f with levelIdc := n * 10 }, none)) ∧
    (¬ uDomain 8 (n * 10) → f.setLevelNumber n = (f, some .invalidFieldValue))) ∧
  (∀ (f : Driver.SpsFields) (level : Rat),
    f.setLevelNumber level = (f, some .invalidFieldValue) ∨
    ∃ n, uDomain 8 n ∧ f.setLevelNumber level = ({ f with levelIdc := n }, none))
end

