-- ==== Sys2Proof/Laws/Bits.lean ====
section
/-! SUPPORT. The small lemmas of the bit sequences: lengths, the bits of a number, packing by whole bytes. -/

namespace Sys2Proof.Machine

@[simp] theorem zeros_length (k : Nat) : (zeros k).length = k := by simp [zeros]

@[simp] theorem zeros_zero : zeros 0 = [] := rfl

theorem zeros_succ (k : Nat) : zeros (k + 1) = false :: zeros k := rfl

@[simp] theorem zeros_append (a b : Nat) : zeros a ++ zeros b = zeros (a + b) := by
  simp [zeros]

@[simp] theorem bitsMsb_zero (x : Nat) : bitsMsb x 0 = [] := rfl

theorem bitsMsb_succ (x n : Nat) : bitsMsb x (n + 1) = decide (x / 2 ^ n % 2 = 1) :: bitsMsb x n := rfl

@[simp] theorem bitsMsb_length (x n : Nat) : (bitsMsb x n).length = n := by
  induction n with
  | zero => rfl
  | succ n ih => simp [bitsMsb_succ, ih]

/-- Bits above position `n-1` are dropped: `bits_msb` sees `x mod 2^n` only. -/
theorem bitsMsb_mod (x n m : Nat) (h : n ≤ m) : bitsMsb (x % 2 ^ m) n = bitsMsb x n := by
  induction n with
  | zero => rfl
  | succ n ih =>
    rw [bitsMsb_succ, bitsMsb_succ, ih (by omega)]
    congr 2
    obtain ⟨d, rfl⟩ : ∃ d, m = n + 1 + d := ⟨m - (n + 1), by omega⟩
    have h1 : x % 2 ^ (n + 1 + d) / 2 ^ n % 2 = x / 2 ^ n % 2 := by
      rw [show 2 ^ (n + 1 + d) = 2 ^ n * 2 ^ (d + 1) by rw [← pow_add]; congr 1; omega,
        Nat.mod_mul_right_div_self, pow_succ, Nat.mod_mul_left_mod]
    rw [h1]

/-- The `i`-th bit from the front is bit `n - 1 - i` of the number. -/
theorem bitsMsb_getElem? (x n i : Nat) (h : i < n) :
    (bitsMsb x n)[i]? = some (decide (x / 2 ^ (n - 1 - i) % 2 = 1)) := by
  induction n generalizing i with
  | zero => omega
  | succ n ih =>
    cases i with
    | zero => simp [bitsMsb_succ]
    | succ i =>
      rw [bitsMsb_succ, List.getElem?_cons_succ, ih i (by omega), show n + 1 - 1 - (i + 1) = n - 1 - i by omega]

/-- A field is its high part and then its low part (20_memory.md R45). -/
theorem bitsMsb_append (v a b : Nat) : bitsMsb v (a + b) = bitsMsb (v / 2 ^ b) a ++ bitsMsb v b := by
  induction a with
  | zero => simp
  | succ a ih =>
    rw [show a + 1 + b = (a + b) + 1 by omega, bitsMsb_succ, bitsMsb_succ, ih, Nat.div_div_eq_div_mul, ← pow_add,
      Nat.add_comm b a]
    rfl

/-- Reading the bits back gives the low `n` bits of the number. -/
theorem natOfBits_bitsMsb (v n : Nat) : natOfBits (bitsMsb v n) = v % 2 ^ n := by
  induction n with
  | zero => simp [natOfBits, Nat.mod_one]
  | succ n ih =>
    rw [bitsMsb_succ, natOfBits, bitsMsb_length, ih, pow_succ, Nat.mod_mul]
    rcases Nat.mod_two_eq_zero_or_one (v / 2 ^ n) with h | h <;> simp [h, Nat.add_comm]

theorem bitsMsb_zero_left (n : Nat) : bitsMsb 0 n = zeros n := by
  induction n with
  | zero => rfl
  | succ n ih => simp [bitsMsb_succ, ih, zeros_succ]

@[simp] theorem startCode_length (longSc : Bool) : (startCode longSc).length = if longSc then 32 else 24 := by
  cases longSc <;> simp [startCode]

@[simp] theorem headerBits_length (ref typ : Nat) : (headerBits ref typ).length = 8 := by
  simp [headerBits]

@[simp] theorem trailing_length (len : Nat) : (trailing len).length = 8 - len % 8 := by
  simp [trailing, trailingPad]; omega

theorem ueCode_length (c : Nat) : (ueCode c).length = 2 * floorLog2 (c + 1) + 1 := by
  simp [ueCode]; omega

/-- `floor_log2` is the exponent R7 defines: `2^k <= x < 2^(k+1)`. -/
theorem floorLog2_spec (x : Nat) (h : x ≠ 0) : 2 ^ floorLog2 x ≤ x ∧ x < 2 ^ (floorLog2 x + 1) := by
  refine ⟨Nat.log2_self_le h, ?_⟩
  exact (Nat.log2_lt h).1 (Nat.lt_succ_self _)

/-- A bound on the number bounds its logarithm. -/
theorem floorLog2_lt (x n : Nat) (h0 : x ≠ 0) (h : x < 2 ^ n) : floorLog2 x < n := (Nat.log2_lt h0).2 h

@[simp] theorem pack_nil : pack [] = [] := rfl

theorem pack_cons8 (b0 b1 b2 b3 b4 b5 b6 b7 : Bit) (r : List Bit) :
    pack (b0 :: b1 :: b2 :: b3 :: b4 :: b5 :: b6 :: b7 :: r) = byteOf b0 b1 b2 b3 b4 b5 b6 b7 :: pack r := rfl

/-- A list of a whole number of bytes, more than none, starts with eight bits. -/
theorem exists_cons8 (l : List Bit) (h : 8 ≤ l.length) :
    ∃ b0 b1 b2 b3 b4 b5 b6 b7 r, l = b0 :: b1 :: b2 :: b3 :: b4 :: b5 :: b6 :: b7 :: r := by
  match l, h with
  | b0 :: b1 :: b2 :: b3 :: b4 :: b5 :: b6 :: b7 :: r, _ => exact ⟨b0, b1, b2, b3, b4, b5, b6, b7, r, rfl⟩

/-- Induction by whole bytes. -/
theorem byte_induction {P : List Bit → Prop} (nil : P [])
    (cons : ∀ b0 b1 b2 b3 b4 b5 b6 b7 r, P r → P (b0 :: b1 :: b2 :: b3 :: b4 :: b5 :: b6 :: b7 :: r)) :
    ∀ (n : Nat) (l : List Bit), l.length = 8 * n → P l
  | 0, l, h => by
    have : l = [] := List.length_eq_zero_iff.1 (by omega)
    exact this ▸ nil
  | n + 1, l, h => by
    obtain ⟨b0, b1, b2, b3, b4, b5, b6, b7, r, rfl⟩ := exists_cons8 l (by omega)
    exact cons _ _ _ _ _ _ _ _ r (byte_induction nil cons n r (by simp at h; omega))

/-- Packing a whole number of bytes, then more. -/
theorem pack_append (l m : List Bit) (h : l.length % 8 = 0) : pack (l ++ m) = pack l ++ pack m := by
  refine byte_induction (P := fun l => pack (l ++ m) = pack l ++ pack m) rfl ?_ (l.length / 8) l (by omega)
  intro b0 b1 b2 b3 b4 b5 b6 b7 r ih
  simp [pack_cons8, ih]

theorem pack_length (l : List Bit) (h : l.length % 8 = 0) : (pack l).length = l.length / 8 := by
  refine byte_induction (P := fun l => (pack l).length = l.length / 8) rfl ?_ (l.length / 8) l (by omega)
  intro b0 b1 b2 b3 b4 b5 b6 b7 r ih
  simp [pack_cons8, ih]
  omega

end Sys2Proof.Machine
end

