-- ==== Sys2Proof/Laws/Driver.lean ====
section
/-! SUPPORT. One lemma per operation of the host driver: the setters, the field codes, the expansion of an export. -/

namespace Sys2Proof.Driver

open Sys2Proof.Machine

@[simp] theorem asInt_intCast (n : Int) : asInt n = some n := by simp [asInt]

theorem asInt_eq_some (v : Rat) (n : Int) : asInt v = some n ↔ v = n := by
  constructor
  · intro h
    unfold asInt at h
    split at h
    · rename_i hd
      obtain rfl := Option.some.inj h
      exact (Rat.coe_int_num_of_den_eq_one hd).symm
    · cases h
  · rintro rfl
    exact asInt_intCast n

/-- An integer in the field's domain is taken. -/
theorem setInt_legal {α : Type} (legal : Int → Bool) (old : α) (update : Int → α) (n : Int) (h : legal n = true) :
    setInt legal old update n = (update n, none) := by
  simp [setInt, setter, h]

/-- Every other number is refused, and the parameter set stays as it was. -/
theorem setInt_refused {α : Type} (legal : Int → Bool) (old : α) (update : Int → α) (v : Rat)
    (h : ∀ n : Int, v = n → legal n = false) : setInt legal old update v = (old, some .invalidFieldValue) := by
  cases hv : asInt v with
  | none => simp [setInt, hv]
  | some n => simp [setInt, hv, setter, h n ((asInt_eq_some v n).1 hv)]

/-- The level setter on integers. -/
theorem setLevelNumber_int (f : SpsFields) (n : Int) :
    f.setLevelNumber n = setter (uLegal 8 (n * 10)) f { f with levelIdc := n * 10 } := by
  simp [SpsFields.setLevelNumber]

/-- The level setter takes a value that fits `u(8)`, or refuses, whatever it is given. -/
theorem setLevelNumber_cases (f : SpsFields) (level : Rat) :
    f.setLevelNumber level = (f, some .invalidFieldValue) ∨
      ∃ n, uLegal 8 n = true ∧ f.setLevelNumber level = ({ f with levelIdc := n }, none) := by
  unfold SpsFields.setLevelNumber
  split
  · rename_i idc _
    by_cases h : uLegal 8 idc = true
    · exact .inr ⟨idc, h, by simp [setter, h]⟩
    · exact .inl (by simp [setter, h])
  · exact .inl rfl

/-- A value in its domain can be carried by a command word. -/
theorem FieldCode.carried_of_legal (c : FieldCode) (h : c.legal = true) : c.carried = true := by
  cases c <;> simp_all [FieldCode.legal, FieldCode.carried, uLegal, ueLegal, seLegal]
  omega

/-- What can be carried gives a command a word encodes. -/
theorem FieldCode.command_wf (c : FieldCode) (h : c.carried = true) : c.command.wf = true := by
  cases c with
  | u n v => simp_all [FieldCode.carried, FieldCode.command, Driver.u, Instr.wf]
  | flag b => cases b <;> decide
  | ue v => simpa [FieldCode.carried, FieldCode.command, Driver.ue, Instr.wf, seLegal] using h
  | se v => simpa [FieldCode.carried, FieldCode.command, Driver.se, Instr.wf, seLegal] using h

/-- What an export can answer: its commands, for operands that can be carried, or `InvalidFieldValue`. -/
theorem expand_cases (sc ref typ : Nat) (codes : List FieldCode) :
    (headerLegal sc ref typ = true ∧ codes.all FieldCode.carried = true ∧
      expand sc ref typ codes = .commands (nalStart sc ref typ :: codes.map FieldCode.command ++ [.finalize, .flush])) ∨
    ((headerLegal sc ref typ = false ∨ codes.all FieldCode.carried = false) ∧
      expand sc ref typ codes = .failed .invalidFieldValue) := by
  by_cases h1 : headerLegal sc ref typ = true <;> by_cases h2 : codes.all FieldCode.carried = true <;>
    simp_all [expand]

end Sys2Proof.Driver
end

