-- ==== Sys2Proof/Laws/Encoding.lean ====
section
/-! SUPPORT. The fields of a command word: a word is its three fields, and masking a word masks its fields. -/

namespace Sys2Proof

/-- Bit by bit, a command word is its fields. -/
theorem getLsbD_mkWord (op aux : BitVec 8) (imm : BitVec 32) (i : Nat) :
    (mkWord op aux imm).getLsbD i =
      if i < 32 then imm.getLsbD i else if i < 40 then aux.getLsbD (i - 32) else op.getLsbD (i - 40) := by
  show ((op ++ aux ++ imm : BitVec (8 + 8 + 32))).getLsbD i = _
  rw [BitVec.getLsbD_append, BitVec.getLsbD_append]
  split
  · rfl
  · have h : i - 32 < 8 ↔ i < 40 := by omega
    simp only [h]
    split
    · rfl
    · rw [show i - 32 - 8 = i - 40 by omega]

theorem getLsbD_opField (w : CmdWord) (i : Nat) : (opField w).getLsbD i = (decide (i < 8) && w.getLsbD (40 + i)) := by
  simp [opField, BitVec.getLsbD_extractLsb']

theorem getLsbD_auxField (w : CmdWord) (i : Nat) : (auxField w).getLsbD i = (decide (i < 8) && w.getLsbD (32 + i)) := by
  simp [auxField, BitVec.getLsbD_extractLsb']

theorem getLsbD_immField (w : CmdWord) (i : Nat) : (immField w).getLsbD i = (decide (i < 32) && w.getLsbD i) := by
  simp [immField, BitVec.getLsbD_extractLsb']

@[simp] theorem opField_mkWord (op aux : BitVec 8) (imm : BitVec 32) : opField (mkWord op aux imm) = op := by
  apply BitVec.eq_of_getLsbD_eq
  intro i hi
  rw [getLsbD_opField, getLsbD_mkWord, if_neg (by omega), if_neg (by omega)]
  simp [hi]

@[simp] theorem auxField_mkWord (op aux : BitVec 8) (imm : BitVec 32) : auxField (mkWord op aux imm) = aux := by
  apply BitVec.eq_of_getLsbD_eq
  intro i hi
  rw [getLsbD_auxField, getLsbD_mkWord, if_neg (by omega), if_pos (by omega)]
  simp [hi]

@[simp] theorem immField_mkWord (op aux : BitVec 8) (imm : BitVec 32) : immField (mkWord op aux imm) = imm := by
  apply BitVec.eq_of_getLsbD_eq
  intro i hi
  rw [getLsbD_immField, getLsbD_mkWord, if_pos hi]
  simp [hi]

/-- A word is its three fields. -/
theorem mkWord_fields (w : CmdWord) : mkWord (opField w) (auxField w) (immField w) = w := by
  apply BitVec.eq_of_getLsbD_eq
  intro i hi
  rw [getLsbD_mkWord, getLsbD_opField, getLsbD_auxField, getLsbD_immField]
  split
  · simp [*]
  · split
    · rw [show 32 + (i - 32) = i by omega]
      simp
      omega
    · rw [show 40 + (i - 40) = i by omega]
      simp
      omega

/-- Two words are equal if and only if their fields are. -/
theorem mkWord_inj (op aux op' aux' : BitVec 8) (imm imm' : BitVec 32) :
    mkWord op aux imm = mkWord op' aux' imm' ↔ op = op' ∧ aux = aux' ∧ imm = imm' := by
  constructor
  · intro h
    exact ⟨by simpa using congrArg opField h, by simpa using congrArg auxField h, by simpa using congrArg immField h⟩
  · rintro ⟨rfl, rfl, rfl⟩
    rfl

/-- Masking a word masks its fields. -/
theorem mkWord_and (op aux op' aux' : BitVec 8) (imm imm' : BitVec 32) :
    mkWord op aux imm &&& mkWord op' aux' imm' = mkWord (op &&& op') (aux &&& aux') (imm &&& imm') := by
  apply BitVec.eq_of_getLsbD_eq
  intro i hi
  rw [BitVec.getLsbD_and, getLsbD_mkWord, getLsbD_mkWord, getLsbD_mkWord]
  split
  · rw [BitVec.getLsbD_and]
  · split <;> rw [BitVec.getLsbD_and]

theorem decode_mkWord (op aux : BitVec 8) (imm : BitVec 32) : decode (mkWord op aux imm) = decodeFields op aux imm := by
  simp [decode]

theorem needZero_legal (m : String) (z : Bool) (i j : Instr) (h : needZero m z i = .legal j) : z = true ∧ j = i := by
  cases z with
  | false => simp [needZero] at h
  | true => exact ⟨rfl, by simpa [needZero] using h.symm⟩

/-- The inversion of the decoder: which fields a decoded command came from (R57, R58). -/
theorem decodeFields_cases (op aux : BitVec 8) (imm : BitVec 32) (i : Instr) (h : decodeFields op aux imm = .legal i) :
    op = i.opcode ∧
      ((i = .beNew ∧ aux = 0 ∧ imm = 0) ∨ (i = decodeNalStart aux imm ∧ imm.extractLsb' 1 31 = 0) ∨
        (i = .appendBit imm.toNat ∧ aux = 0) ∨ i = .appendBits aux.toInt imm.toNat ∨
        (i = .appendUe imm.toInt ∧ aux = 0) ∨ (i = .appendSe imm.toInt ∧ aux = 0) ∨
        (i = .bitLength ∧ aux = 0 ∧ imm = 0) ∨ (i = .toBytes ∧ aux = 0 ∧ imm = 0) ∨
        (i = .finalize ∧ aux = 0 ∧ imm = 0) ∨ (i = .flush ∧ aux = 0 ∧ imm = 0)) := by
  have plain : ∀ m k, needZero m (aux == 0 && imm == 0) k = .legal i → i = k ∧ aux = 0 ∧ imm = 0 := by
    intro m k hk
    obtain ⟨hz, hi⟩ := needZero_legal _ _ _ _ hk
    simp only [Bool.and_eq_true, beq_iff_eq] at hz
    exact ⟨hi, hz⟩
  have one : ∀ m k, needZero m (aux == 0) k = .legal i → i = k ∧ aux = 0 := by
    intro m k hk
    obtain ⟨hz, hi⟩ := needZero_legal _ _ _ _ hk
    exact ⟨hi, by simpa using hz⟩
  unfold decodeFields at h
  split at h
  · have := plain _ _ h
    exact ⟨by rw [this.1]; assumption, .inl this⟩
  split at h
  · obtain ⟨hz, hi⟩ := needZero_legal _ _ _ _ h
    exact ⟨by rw [hi]; assumption, .inr (.inl ⟨hi, by simpa using hz⟩)⟩
  split at h
  · have := one _ _ h
    exact ⟨by rw [this.1]; assumption, .inr (.inr (.inl this))⟩
  split at h
  · injection h with h
    subst h
    exact ⟨by assumption, .inr (.inr (.inr (.inl rfl)))⟩
  split at h
  · have := one _ _ h
    exact ⟨by rw [this.1]; assumption, .inr (.inr (.inr (.inr (.inl this))))⟩
  split at h
  · have := one _ _ h
    exact ⟨by rw [this.1]; assumption, .inr (.inr (.inr (.inr (.inr (.inl this)))))⟩
  split at h
  · have := plain _ _ h
    exact ⟨by rw [this.1]; assumption, .inr (.inr (.inr (.inr (.inr (.inr (.inl this))))))⟩
  split at h
  · have := plain _ _ h
    exact ⟨by rw [this.1]; assumption, .inr (.inr (.inr (.inr (.inr (.inr (.inr (.inl this)))))))⟩
  split at h
  · have := plain _ _ h
    exact ⟨by rw [this.1]; assumption, .inr (.inr (.inr (.inr (.inr (.inr (.inr (.inr (.inl this))))))))⟩
  split at h
  · have := plain _ _ h
    exact ⟨by rw [this.1]; assumption, .inr (.inr (.inr (.inr (.inr (.inr (.inr (.inr (.inr this))))))))⟩
  · simp at h

end Sys2Proof
end

