-- ==== Sys2Proof/Laws/State.lean ====
section
/-! SUPPORT. One lemma per field per update of the state: what each named operation leaves in each field. -/

namespace Sys2Proof.Machine.State

@[simp] theorem raised_cap (s : State) (c : Cause) : (s.raised c).cap = s.cap := rfl
@[simp] theorem raised_phase (s : State) (c : Cause) : (s.raised c).phase = if c.fatal then .failed else s.phase := rfl
@[simp] theorem raised_buf (s : State) (c : Cause) : (s.raised c).buf = s.buf := rfl
@[simp] theorem raised_faults (s : State) (c : Cause) : (s.raised c).faults = setFault s.faults c := rfl
@[simp] theorem raised_bytePort (s : State) (c : Cause) : (s.raised c).bytePort = s.bytePort := rfl
@[simp] theorem raised_rspPort (s : State) (c : Cause) : (s.raised c).rspPort = some (faultResponse c) := rfl
@[simp] theorem raised_sink (s : State) (c : Cause) : (s.raised c).sink = s.sink := rfl
@[simp] theorem raised_ret (s : State) (c : Cause) : (s.raised c).ret = s.ret := rfl
@[simp] theorem raised_responses (s : State) (c : Cause) : (s.raised c).responses = s.responses := rfl
@[simp] theorem raised_moves (s : State) (c : Cause) : (s.raised c).moves = s.moves := rfl
@[simp] theorem raised_draw (s : State) (c : Cause) : (s.raised c).draw = s.draw := rfl
@[simp] theorem raised_len (s : State) (c : Cause) : (s.raised c).len = s.len := rfl

@[simp] theorem responded_cap (s : State) : s.responded.cap = s.cap := rfl
@[simp] theorem responded_phase (s : State) : s.responded.phase = s.phase := rfl
@[simp] theorem responded_buf (s : State) : s.responded.buf = s.buf := rfl
@[simp] theorem responded_faults (s : State) : s.responded.faults = s.faults := rfl
@[simp] theorem responded_bytePort (s : State) : s.responded.bytePort = s.bytePort := rfl
@[simp] theorem responded_rspPort (s : State) : s.responded.rspPort = some (okResponse s.len) := rfl
@[simp] theorem responded_sink (s : State) : s.responded.sink = s.sink := rfl
@[simp] theorem responded_ret (s : State) : s.responded.ret = s.ret := rfl
@[simp] theorem responded_responses (s : State) : s.responded.responses = s.responses := rfl
@[simp] theorem responded_moves (s : State) : s.responded.moves = s.moves := rfl
@[simp] theorem responded_draw (s : State) : s.responded.draw = s.draw := rfl
@[simp] theorem responded_len (s : State) : s.responded.len = s.len := rfl

@[simp] theorem emit_sink_cap (s : State) (bs : List Byte) : (s.emit .sink bs).cap = s.cap := rfl
@[simp] theorem emit_sink_phase (s : State) (bs : List Byte) : (s.emit .sink bs).phase = s.phase := rfl
@[simp] theorem emit_sink_buf (s : State) (bs : List Byte) : (s.emit .sink bs).buf = s.buf := rfl
@[simp] theorem emit_sink_faults (s : State) (bs : List Byte) : (s.emit .sink bs).faults = s.faults := rfl
@[simp] theorem emit_sink_bytePort (s : State) (bs : List Byte) : (s.emit .sink bs).bytePort = s.bytePort ++ beatsOf .sink bs := rfl
@[simp] theorem emit_sink_rspPort (s : State) (bs : List Byte) : (s.emit .sink bs).rspPort = s.rspPort := rfl
@[simp] theorem emit_sink_sink (s : State) (bs : List Byte) : (s.emit .sink bs).sink = s.sink := rfl
@[simp] theorem emit_sink_ret (s : State) (bs : List Byte) : (s.emit .sink bs).ret = s.ret := rfl
@[simp] theorem emit_sink_responses (s : State) (bs : List Byte) : (s.emit .sink bs).responses = s.responses := rfl
@[simp] theorem emit_sink_moves (s : State) (bs : List Byte) : (s.emit .sink bs).moves = s.moves := rfl
@[simp] theorem emit_sink_draw (s : State) (bs : List Byte) : (s.emit .sink bs).draw = s.draw := rfl
@[simp] theorem emit_sink_len (s : State) (bs : List Byte) : (s.emit .sink bs).len = s.len := rfl

@[simp] theorem emit_ret_cap (s : State) (bs : List Byte) : (s.emit .ret bs).cap = s.cap := rfl
@[simp] theorem emit_ret_phase (s : State) (bs : List Byte) : (s.emit .ret bs).phase = s.phase := rfl
@[simp] theorem emit_ret_buf (s : State) (bs : List Byte) : (s.emit .ret bs).buf = s.buf := rfl
@[simp] theorem emit_ret_faults (s : State) (bs : List Byte) : (s.emit .ret bs).faults = s.faults := rfl
@[simp] theorem emit_ret_bytePort (s : State) (bs : List Byte) : (s.emit .ret bs).bytePort = s.bytePort ++ beatsOf .ret bs := rfl
@[simp] theorem emit_ret_rspPort (s : State) (bs : List Byte) : (s.emit .ret bs).rspPort = s.rspPort := rfl
@[simp] theorem emit_ret_sink (s : State) (bs : List Byte) : (s.emit .ret bs).sink = s.sink := rfl
@[simp] theorem emit_ret_ret (s : State) (bs : List Byte) : (s.emit .ret bs).ret = s.ret ++ [[]] := rfl
@[simp] theorem emit_ret_responses (s : State) (bs : List Byte) : (s.emit .ret bs).responses = s.responses := rfl
@[simp] theorem emit_ret_moves (s : State) (bs : List Byte) : (s.emit .ret bs).moves = s.moves := rfl
@[simp] theorem emit_ret_draw (s : State) (bs : List Byte) : (s.emit .ret bs).draw = s.draw := rfl
@[simp] theorem emit_ret_len (s : State) (bs : List Byte) : (s.emit .ret bs).len = s.len := rfl

@[simp] theorem hardReset_cap (s : State) : s.hardReset.cap = s.cap := rfl
@[simp] theorem hardReset_phase (s : State) : s.hardReset.phase = .idle := rfl
@[simp] theorem hardReset_buf (s : State) : s.hardReset.buf = [] := rfl
@[simp] theorem hardReset_faults (s : State) : s.hardReset.faults = 0 := rfl
@[simp] theorem hardReset_bytePort (s : State) : s.hardReset.bytePort = [] := rfl
@[simp] theorem hardReset_rspPort (s : State) : s.hardReset.rspPort = none := rfl
@[simp] theorem hardReset_sink (s : State) : s.hardReset.sink = s.sink := rfl
@[simp] theorem hardReset_ret (s : State) : s.hardReset.ret = s.ret := rfl
@[simp] theorem hardReset_responses (s : State) : s.hardReset.responses = s.responses := rfl
@[simp] theorem hardReset_moves (s : State) : s.hardReset.moves = s.moves := rfl
@[simp] theorem hardReset_draw (s : State) : s.hardReset.draw = s.draw := rfl

@[simp] theorem consume_cap (s : State) (rest : List HostMove) : (s.consume rest).cap = s.cap := rfl
@[simp] theorem consume_phase (s : State) (rest : List HostMove) : (s.consume rest).phase = s.phase := rfl
@[simp] theorem consume_buf (s : State) (rest : List HostMove) : (s.consume rest).buf = s.buf := rfl
@[simp] theorem consume_faults (s : State) (rest : List HostMove) : (s.consume rest).faults = s.faults := rfl
@[simp] theorem consume_bytePort (s : State) (rest : List HostMove) : (s.consume rest).bytePort = s.bytePort := rfl
@[simp] theorem consume_rspPort (s : State) (rest : List HostMove) : (s.consume rest).rspPort = s.rspPort := rfl
@[simp] theorem consume_sink (s : State) (rest : List HostMove) : (s.consume rest).sink = s.sink := rfl
@[simp] theorem consume_ret (s : State) (rest : List HostMove) : (s.consume rest).ret = s.ret := rfl
@[simp] theorem consume_responses (s : State) (rest : List HostMove) : (s.consume rest).responses = s.responses := rfl
@[simp] theorem consume_moves (s : State) (rest : List HostMove) : (s.consume rest).moves = rest := rfl
@[simp] theorem consume_draw (s : State) (rest : List HostMove) : (s.consume rest).draw = s.draw + 1 := rfl
@[simp] theorem consume_len (s : State) (rest : List HostMove) : (s.consume rest).len = s.len := rfl

@[simp] theorem tick_cap (s : State) : s.tick.cap = s.cap := rfl
@[simp] theorem tick_phase (s : State) : s.tick.phase = s.phase := rfl
@[simp] theorem tick_buf (s : State) : s.tick.buf = s.buf := rfl
@[simp] theorem tick_faults (s : State) : s.tick.faults = s.faults := rfl
@[simp] theorem tick_bytePort (s : State) : s.tick.bytePort = s.bytePort := rfl
@[simp] theorem tick_rspPort (s : State) : s.tick.rspPort = s.rspPort := rfl
@[simp] theorem tick_sink (s : State) : s.tick.sink = s.sink := rfl
@[simp] theorem tick_ret (s : State) : s.tick.ret = s.ret := rfl
@[simp] theorem tick_responses (s : State) : s.tick.responses = s.responses := rfl
@[simp] theorem tick_moves (s : State) : s.tick.moves = s.moves := rfl
@[simp] theorem tick_draw (s : State) : s.tick.draw = s.draw + 1 := rfl
@[simp] theorem tick_len (s : State) : s.tick.len = s.len := rfl

@[simp] theorem offering_cap (s : State) (w : CmdWord) : (s.offering w).cap = s.cap := rfl
@[simp] theorem offering_phase (s : State) (w : CmdWord) : (s.offering w).phase = s.phase := rfl
@[simp] theorem offering_buf (s : State) (w : CmdWord) : (s.offering w).buf = s.buf := rfl
@[simp] theorem offering_faults (s : State) (w : CmdWord) : (s.offering w).faults = s.faults := rfl
@[simp] theorem offering_bytePort (s : State) (w : CmdWord) : (s.offering w).bytePort = [] := rfl
@[simp] theorem offering_rspPort (s : State) (w : CmdWord) : (s.offering w).rspPort = none := rfl
@[simp] theorem offering_sink (s : State) (w : CmdWord) : (s.offering w).sink = s.sink := rfl
@[simp] theorem offering_ret (s : State) (w : CmdWord) : (s.offering w).ret = s.ret := rfl
@[simp] theorem offering_responses (s : State) (w : CmdWord) : (s.offering w).responses = s.responses := rfl
@[simp] theorem offering_moves (s : State) (w : CmdWord) : (s.offering w).moves = .command w :: s.moves := rfl
@[simp] theorem offering_draw (s : State) (w : CmdWord) : (s.offering w).draw = s.draw := rfl
@[simp] theorem offering_len (s : State) (w : CmdWord) : (s.offering w).len = s.len := rfl

/-- The port on which a beat was taken moves on; nothing but the two byte logs changes beside it. -/
@[simp] theorem takeBeat_cap (s : State) : s.takeBeat.cap = s.cap := by
  unfold takeBeat; split <;> rfl
@[simp] theorem takeBeat_phase (s : State) : s.takeBeat.phase = s.phase := by
  unfold takeBeat; split <;> rfl
@[simp] theorem takeBeat_buf (s : State) : s.takeBeat.buf = s.buf := by
  unfold takeBeat; split <;> rfl
@[simp] theorem takeBeat_faults (s : State) : s.takeBeat.faults = s.faults := by
  unfold takeBeat; split <;> rfl
@[simp] theorem takeBeat_bytePort (s : State) : s.takeBeat.bytePort = s.bytePort.tail := by
  unfold takeBeat; split <;> simp_all
@[simp] theorem takeBeat_rspPort (s : State) : s.takeBeat.rspPort = s.rspPort := by
  unfold takeBeat; split <;> rfl
@[simp] theorem takeBeat_responses (s : State) : s.takeBeat.responses = s.responses := by
  unfold takeBeat; split <;> rfl
@[simp] theorem takeBeat_moves (s : State) : s.takeBeat.moves = s.moves := by
  unfold takeBeat; split <;> rfl
@[simp] theorem takeBeat_draw (s : State) : s.takeBeat.draw = s.draw := by
  unfold takeBeat; split <;> rfl

@[simp] theorem takeResponse_cap (s : State) : s.takeResponse.cap = s.cap := by
  unfold takeResponse; split <;> rfl
@[simp] theorem takeResponse_phase (s : State) : s.takeResponse.phase = s.phase := by
  unfold takeResponse; split <;> rfl
@[simp] theorem takeResponse_buf (s : State) : s.takeResponse.buf = s.buf := by
  unfold takeResponse; split <;> rfl
@[simp] theorem takeResponse_faults (s : State) : s.takeResponse.faults = s.faults := by
  unfold takeResponse; split <;> rfl
@[simp] theorem takeResponse_bytePort (s : State) : s.takeResponse.bytePort = s.bytePort := by
  unfold takeResponse; split <;> rfl
@[simp] theorem takeResponse_sink (s : State) : s.takeResponse.sink = s.sink := by
  unfold takeResponse; split <;> rfl
@[simp] theorem takeResponse_ret (s : State) : s.takeResponse.ret = s.ret := by
  unfold takeResponse; split <;> rfl
@[simp] theorem takeResponse_moves (s : State) : s.takeResponse.moves = s.moves := by
  unfold takeResponse; split <;> rfl
@[simp] theorem takeResponse_draw (s : State) : s.takeResponse.draw = s.draw := by
  unfold takeResponse; split <;> rfl

end Sys2Proof.Machine.State
end

