-- ==== Sys2Proof/Laws/Ops.lean ====
section
/-! SUPPORT. One lemma per shared operation that says everything it can do: raising, responding, appending, emitting, the
transfers on the ports, and the inversion of `exec` and `execWord`. -/

namespace Sys2Proof.Machine

theorem raise_eq (c : Cause) (s : State) : raise c s = .next (s.raised c) := rfl

theorem respond_eq (s : State) : respond s = .next s.responded := rfl

theorem fits_iff (s : State) (k : Nat) : s.fits k = true ↔ ∀ c, s.cap = some c → s.len + k ≤ c := by
  unfold State.fits
  split <;> simp_all

/-- `append` either adds every bit and responds, or raises `BufferOverflow` on the old state (R33). -/
theorem appendRespond_eq (bits : List Bit) (p : Phase) (s : State) :
    appendRespond bits p s =
      if s.fits bits.length then .next { s with buf := s.buf ++ bits, phase := p }.responded
      else .next (s.raised .bufferOverflow) := rfl

@[simp] theorem beatsOf_length (d : Dest) (bs : List Byte) : (beatsOf d bs).length = bs.length := by
  induction bs with
  | nil => rfl
  | cons b bs ih =>
    cases bs with
    | nil => rfl
    | cons c cs => simpa [beatsOf] using ih

@[simp] theorem beatsOf_data (d : Dest) (bs : List Byte) : (beatsOf d bs).map Beat.data = bs := by
  induction bs with
  | nil => rfl
  | cons b bs ih =>
    cases bs with
    | nil => rfl
    | cons c cs => simpa [beatsOf] using ih

theorem beatsOf_dest (d : Dest) (bs : List Byte) (b : Beat) (h : b ∈ beatsOf d bs) : b.dest = d := by
  induction bs with
  | nil => simp [beatsOf] at h
  | cons x bs ih =>
    cases bs with
    | nil => simp [beatsOf] at h; simp [h]
    | cons c cs =>
      simp only [beatsOf, List.mem_cons] at h
      rcases h with rfl | h
      · rfl
      · exact ih (by simpa [beatsOf] using h)

@[simp] theorem beatsOf_eq_nil (d : Dest) (bs : List Byte) : beatsOf d bs = [] ↔ bs = [] := by
  rw [← List.length_eq_zero_iff, beatsOf_length, List.length_eq_zero_iff]

/-- The rest of an `emit` after one beat is an `emit` of the remaining bytes. -/
theorem beatsOf_tail (d : Dest) (bs : List Byte) : (beatsOf d bs).tail = beatsOf d bs.tail := by
  match bs with
  | [] => rfl
  | [_] => rfl
  | _ :: _ :: _ => rfl

/-- The bytes of a list of beats that go to the sink. -/
def sinkData (bs : List Beat) : List Byte := (bs.filter fun b => b.dest = .sink).map Beat.data

@[simp] theorem sinkData_beatsOf_sink (bs : List Byte) : sinkData (beatsOf .sink bs) = bs := by
  have h : (beatsOf .sink bs).filter (fun b => b.dest = .sink) = beatsOf .sink bs := by
    rw [List.filter_eq_self]
    intro b hb
    simp [beatsOf_dest _ _ _ hb]
  simp [sinkData, h]

@[simp] theorem sinkData_beatsOf_ret (bs : List Byte) : sinkData (beatsOf .ret bs) = [] := by
  have h : (beatsOf .ret bs).filter (fun b => b.dest = .sink) = [] := by
    rw [List.filter_eq_nil_iff]
    intro b hb
    simp [beatsOf_dest _ _ _ hb]
  simp [sinkData, h]

theorem takeBeat_sink (s : State) : s.takeBeat.sink = s.sink ++ sinkData (s.bytePort.take 1) := by
  unfold State.takeBeat
  split <;> simp_all [sinkData]

/-- `n` transfers on the byte port change the byte port and the two byte logs only. -/
theorem takeBeats_frame (n : Nat) (s : State) :
    (State.takeBeats n s).cap = s.cap ∧ (State.takeBeats n s).phase = s.phase ∧ (State.takeBeats n s).buf = s.buf ∧
      (State.takeBeats n s).faults = s.faults ∧ (State.takeBeats n s).rspPort = s.rspPort ∧
      (State.takeBeats n s).responses = s.responses ∧ (State.takeBeats n s).moves = s.moves ∧
      (State.takeBeats n s).draw = s.draw ∧ (State.takeBeats n s).bytePort = s.bytePort.drop n := by
  induction n generalizing s with
  | zero => simp [State.takeBeats]
  | succ n ih =>
    have := ih s.takeBeat
    simp_all [State.takeBeats, List.drop_tail]

theorem takeBeats_sink (n : Nat) (s : State) :
    (State.takeBeats n s).sink = s.sink ++ sinkData (s.bytePort.take n) := by
  induction n generalizing s with
  | zero => simp [State.takeBeats, sinkData]
  | succ n ih =>
    rw [State.takeBeats, ih, takeBeat_sink]
    cases h : s.bytePort with
    | nil => simp [h, sinkData]
    | cons b bs => simp [h, sinkData, List.filter_cons]; split <;> simp

theorem appendToLast_snoc (b : Byte) (l : List (List Byte)) (x : List Byte) :
    appendToLast b (l ++ [x]) = l ++ [x ++ [b]] := by
  induction l with
  | nil => rfl
  | cons y l ih =>
    cases l with
    | nil => rfl
    | cons z l => simpa [appendToLast] using ih

/-- Beats to `SINK` leave the return log alone. -/
theorem takeBeats_ret_sink (bs : List Byte) (n : Nat) (s : State) (h : s.bytePort = beatsOf .sink bs) :
    (State.takeBeats n s).ret = s.ret := by
  induction n generalizing s bs with
  | zero => rfl
  | succ n ih =>
    rw [State.takeBeats, ih bs.tail s.takeBeat (by simp [h, beatsOf_tail])]
    unfold State.takeBeat
    split
    · rfl
    · rfl
    · rename_i hb
      have := beatsOf_dest .sink bs ⟨_, _, .ret⟩ (by rw [← h, hb]; exact List.mem_cons_self ..)
      simp at this

/-- Beats to `RET` fill the last element of the return log, in order. -/
theorem takeBeats_ret_ret (bs : List Byte) (n : Nat) (s : State) (l : List (List Byte)) (x : List Byte)
    (h : s.bytePort = beatsOf .ret bs) (hr : s.ret = l ++ [x]) :
    (State.takeBeats n s).ret = l ++ [x ++ bs.take n] := by
  induction n generalizing s bs x with
  | zero => simp [State.takeBeats, hr]
  | succ n ih =>
    rw [State.takeBeats]
    match bs, h with
    | [], h =>
      have ht : s.takeBeat = s := by unfold State.takeBeat; rw [h]; rfl
      rw [ht, ih [] s x h hr]
      simp
    | b :: bs, h =>
      have ht : s.takeBeat.ret = l ++ [x ++ [b]] := by
        unfold State.takeBeat
        cases bs <;> rw [h] <;> simp [beatsOf, hr, appendToLast_snoc]
      rw [ih bs s.takeBeat (x ++ [b]) (by simp [h, beatsOf_tail]) ht]
      simp

/-- Delivery when the response of the command is on its port: every beat and the response are transferred, and the ports are
empty (R55, R56). -/
theorem deliver_eq (s : State) (r : Response) (h : s.rspPort = some r) :
    s.deliver = { State.takeBeats s.bytePort.length s with
      rspPort := none, responses := s.responses ++ [r], bytePort := [] } := by
  obtain ⟨h1, h2, h3, h4, h5, h6, h7, h8, h9⟩ := takeBeats_frame s.bytePort.length s
  rw [List.drop_length] at h9
  unfold State.deliver State.takeResponse
  rw [h9, h5, h]
  simp [h6]

@[simp] theorem deliver_cap (s : State) : s.deliver.cap = s.cap := by
  simp [State.deliver, takeBeats_frame]
@[simp] theorem deliver_phase (s : State) : s.deliver.phase = s.phase := by
  simp [State.deliver, takeBeats_frame]
@[simp] theorem deliver_buf (s : State) : s.deliver.buf = s.buf := by
  simp [State.deliver, takeBeats_frame]
@[simp] theorem deliver_faults (s : State) : s.deliver.faults = s.faults := by
  simp [State.deliver, takeBeats_frame]
@[simp] theorem deliver_moves (s : State) : s.deliver.moves = s.moves := by
  simp [State.deliver, takeBeats_frame]
@[simp] theorem deliver_draw (s : State) : s.deliver.draw = s.draw := by
  simp [State.deliver, takeBeats_frame]
@[simp] theorem deliver_bytePort (s : State) : s.deliver.bytePort = [] := by
  simp [State.deliver, takeBeats_frame]
@[simp] theorem deliver_sink (s : State) : s.deliver.sink = s.sink ++ sinkData s.bytePort := by
  simp [State.deliver, takeBeats_sink]

/-- Delivery with no beat pending is the transfer of the response alone. -/
theorem deliver_no_beats (s : State) (r : Response) (hb : s.bytePort = []) (h : s.rspPort = some r) :
    s.deliver = { s with rspPort := none, responses := s.responses ++ [r] } := by
  unfold State.deliver State.takeResponse
  simp [hb, State.takeBeats, h]

/-- The effect of a command that succeeds, before its response: the conditions under which it does, and the state it
leaves. -/
def Effect (i : Instr) (s t : State) : Prop :=
  match i with
  | .beNew => t = { s with buf := [], phase := .raw }
  | .nalStart fzb ref typ longSc =>
    fzb = false ∧ t = { s with buf := startCode longSc ++ headerBits ref typ, phase := .opened }
  | .appendBit b =>
    s.phase.acceptsBits = true ∧ b ≤ 1 ∧ s.fits 1 = true ∧ t = { s with buf := s.buf ++ [decide (b = 1)] }
  | .appendBits n raw =>
    s.phase.acceptsBits = true ∧ 0 ≤ n ∧ raw < 2 ^ n.toNat ∧ s.fits n.toNat = true ∧
      t = { s with buf := s.buf ++ bitsMsb raw n.toNat }
  | .appendUe v =>
    s.phase.acceptsBits = true ∧ 0 ≤ v ∧ s.fits (ueCode v.toNat).length = true ∧
      t = { s with buf := s.buf ++ ueCode v.toNat }
  | .appendSe v =>
    s.phase.acceptsBits = true ∧ s.fits (ueCode (seMap v)).length = true ∧
      t = { s with buf := s.buf ++ ueCode (seMap v) }
  | .bitLength => s.phase.live = true ∧ t = s
  | .toBytes => s.phase = .raw ∧ s.len % 8 = 0 ∧ t = s.emit .ret (pack s.buf)
  | .finalize =>
    s.phase = .opened ∧ s.fits (trailing s.len).length = true ∧
      t = { s with buf := s.buf ++ trailing s.len, phase := .finalized }
  | .flush =>
    s.phase = .finalized ∧ s.len % 8 = 0 ∧ t = { s.emit .sink (pack s.buf) with phase := .flushed }

/-- The inversion of `exec`: it succeeds with its effect, or raises a cause on the old state, or (only `FLUSH`, only in an
unaligned `FINAL`) stops. -/
theorem exec_cases (i : Instr) (s : State) :
    (∃ t, Effect i s t ∧ exec i s = .next t.responded) ∨
    (∃ c, c ≠ .unsupportedFeature ∧ c ≠ .illegalCommand ∧ exec i s = .next (s.raised c)) ∨
    (i = .flush ∧ s.phase = .finalized ∧ s.len % 8 ≠ 0 ∧ exec i s = .fault .packUndefined) := by
  cases i with
  | beNew => exact .inl ⟨_, rfl, rfl⟩
  | nalStart fzb ref typ longSc =>
    cases fzb with
    | true => exact .inr (.inl ⟨.invalidFieldValue, by decide, by decide, rfl⟩)
    | false => exact .inl ⟨_, ⟨rfl, rfl⟩, rfl⟩
  | appendBit b =>
    simp only [exec, execAppendBit, appendRespond_eq, raise_eq, Effect]
    split
    · exact .inr (.inl ⟨_, by decide, by decide, rfl⟩)
    · split
      · exact .inr (.inl ⟨_, by decide, by decide, rfl⟩)
      · split
        · exact .inl ⟨_, ⟨Decidable.not_not.1 ‹¬¬s.phase.acceptsBits = true›, by omega, ‹_›, rfl⟩, rfl⟩
        · exact .inr (.inl ⟨_, by decide, by decide, rfl⟩)
  | appendBits n raw =>
    simp only [exec, execAppendBits, appendRespond_eq, raise_eq, Effect, bitsMsb_length]
    split
    · exact .inr (.inl ⟨_, by decide, by decide, rfl⟩)
    · split
      · exact .inr (.inl ⟨_, by decide, by decide, rfl⟩)
      · split
        · exact .inr (.inl ⟨_, by decide, by decide, rfl⟩)
        · split
          · exact .inl ⟨_, ⟨Decidable.not_not.1 ‹¬¬s.phase.acceptsBits = true›, by omega, by omega, ‹_›, rfl⟩, rfl⟩
          · exact .inr (.inl ⟨_, by decide, by decide, rfl⟩)
  | appendUe v =>
    simp only [exec, execAppendUe, appendRespond_eq, raise_eq, Effect]
    split
    · exact .inr (.inl ⟨_, by decide, by decide, rfl⟩)
    · split
      · exact .inr (.inl ⟨_, by decide, by decide, rfl⟩)
      · split
        · exact .inl ⟨_, ⟨Decidable.not_not.1 ‹¬¬s.phase.acceptsBits = true›, by omega, ‹_›, rfl⟩, rfl⟩
        · exact .inr (.inl ⟨_, by decide, by decide, rfl⟩)
  | appendSe v =>
    simp only [exec, execAppendSe, appendRespond_eq, raise_eq, Effect]
    split
    · exact .inr (.inl ⟨_, by decide, by decide, rfl⟩)
    · split
      · exact .inl ⟨_, ⟨Decidable.not_not.1 ‹¬¬s.phase.acceptsBits = true›, ‹_›, rfl⟩, rfl⟩
      · exact .inr (.inl ⟨_, by decide, by decide, rfl⟩)
  | bitLength =>
    simp only [exec, execBitLength, respond_eq, raise_eq, Effect]
    split
    · exact .inl ⟨_, ⟨‹_›, rfl⟩, rfl⟩
    · exact .inr (.inl ⟨_, by decide, by decide, rfl⟩)
  | toBytes =>
    simp only [exec, execToBytes, respond_eq, raise_eq, Effect]
    split
    · exact .inr (.inl ⟨_, by decide, by decide, rfl⟩)
    · split
      · exact .inr (.inl ⟨_, by decide, by decide, rfl⟩)
      · exact .inl ⟨_, ⟨by simpa using ‹¬s.phase ≠ .raw›, by omega, rfl⟩, rfl⟩
  | finalize =>
    simp only [exec, execFinalize, appendRespond_eq, raise_eq, Effect]
    split
    · exact .inr (.inl ⟨_, by decide, by decide, rfl⟩)
    · split
      · exact .inl ⟨_, ⟨by simpa using ‹¬s.phase ≠ .opened›, ‹_›, rfl⟩, rfl⟩
      · exact .inr (.inl ⟨_, by decide, by decide, rfl⟩)
  | flush =>
    simp only [exec, execFlush, respond_eq, raise_eq, Effect]
    split
    · exact .inr (.inl ⟨_, by decide, by decide, rfl⟩)
    · split
      · exact .inr (.inl ⟨_, by decide, by decide, rfl⟩)
      · split
        · exact .inr (.inr ⟨trivial, by simpa using ‹¬s.phase ≠ .finalized›, ‹_›, rfl⟩)
        · exact .inl ⟨_, ⟨by simpa using ‹¬s.phase ≠ .finalized›, by omega, rfl⟩, rfl⟩

/-- The block is ready exactly when both of its output ports are empty (30_encoding.md R51). -/
theorem cmdReady_iff (s : State) : cmdReady s = true ↔ s.rspPort = none ∧ s.bytePort = [] := by
  simp [cmdReady, List.isEmpty_iff]

/-- The inversion of the transfer of a word: a decoded command runs, any other word raises `IllegalCommand`. -/
theorem execWord_cases (w : CmdWord) (s : State) :
    (∃ i, decode w = .legal i ∧ execWord w s = exec i s) ∨
    ((∀ i, decode w ≠ .legal i) ∧ execWord w s = .next (s.raised .illegalCommand)) := by
  unfold execWord
  split
  · exact .inl ⟨_, ‹_›, rfl⟩
  · exact .inr ⟨by simp [*], rfl⟩
  · exact .inr ⟨by simp [*], rfl⟩

/-- What a legal word does. -/
theorem execWord_legal (w : CmdWord) (i : Instr) (s : State) (h : decode w = .legal i) : execWord w s = exec i s := by
  simp [execWord, h]

end Sys2Proof.Machine
end

