-- ==== Sys2Proof/Laws/Local.lean ====
section
/-! SUPPORT. A command reads the parameter, the phase and the buffer, and nothing else of the state; and the moves of the host
pass through a command and the byte port unread. -/

namespace Sys2Proof.Machine

/-- Everything a command can write: the phase, the buffer, bits of `faults`, beats, the response, new elements of the return
log. -/
def State.write (s : State) (p : Phase) (b : List Bit) (d : BitVec 9) (bs : List Beat) (r : Response)
    (rs : List (List Byte)) : State :=
  { s with
    phase := p
    buf := b
    faults := s.faults ||| d
    bytePort := s.bytePort ++ bs
    rspPort := some r
    ret := s.ret ++ rs }

/-- Two states agree on what a command reads. -/
def Agree (s s' : State) : Prop := s'.cap = s.cap ∧ s'.phase = s.phase ∧ s'.buf = s.buf

/-- `f` writes by `State.write`, and writes the same to every state that agrees on what it reads. -/
def Local (f : State → Result) : Prop :=
  ∀ s t, f s = .next t → ∃ p b d bs r rs, t = s.write p b d bs r rs ∧
    ∀ s', Agree s s' → f s' = .next (s'.write p b d bs r rs)

theorem raise_local (c : Cause) : Local (raise c) := by
  intro s t h
  injection h with h
  subst h
  refine ⟨if c.fatal then .failed else s.phase, s.buf, BitVec.twoPow 9 c.code, [], faultResponse c, [], ?_, ?_⟩
  · simp [State.raised, State.write, setFault]
  · rintro s' ⟨-, h2, h3⟩
    simp [raise, State.raised, State.write, setFault, h2, h3]

theorem fault_local (r : Fault) : Local fun _ => .fault r := by
  intro s t h
  simp at h

theorem ite_local {P : State → Prop} [DecidablePred P] {f g : State → Result}
    (hP : ∀ s s', Agree s s' → (P s' ↔ P s)) (hf : Local f) (hg : Local g) :
    Local fun s => if P s then f s else g s := by
  intro s t h
  by_cases hp : P s
  · simp only [hp, if_true] at h
    obtain ⟨p, b, d, bs, r, rs, h1, h2⟩ := hf s t h
    exact ⟨p, b, d, bs, r, rs, h1, fun s' ha => by simp [(hP s s' ha).2 hp, h2 s' ha]⟩
  · simp only [hp, if_false] at h
    obtain ⟨p, b, d, bs, r, rs, h1, h2⟩ := hg s t h
    exact ⟨p, b, d, bs, r, rs, h1, fun s' ha => by simp [mt (hP s s' ha).1 hp, h2 s' ha]⟩

/-- A success: the new phase and buffer are computed from what a command reads. -/
theorem respond_local (p : State → Phase) (b : State → List Bit) (hp : ∀ s s', Agree s s' → p s' = p s)
    (hb : ∀ s s', Agree s s' → b s' = b s) : Local fun s => respond { s with buf := b s, phase := p s } := by
  intro s t h
  injection h with h
  subst h
  refine ⟨p s, b s, 0, [], okResponse (b s).length, [], ?_, ?_⟩
  · simp [State.responded, State.write, State.len]
  · intro s' ha
    simp [respond, State.responded, State.write, State.len, hp s s' ha, hb s s' ha]

theorem emitRespond_local (d : Dest) (p : State → Phase) (hp : ∀ s s', Agree s s' → p s' = p s) :
    Local fun s => respond { s.emit d (pack s.buf) with phase := p s } := by
  intro s t h
  injection h with h
  subst h
  refine ⟨p s, s.buf, 0, beatsOf d (pack s.buf), okResponse s.buf.length, match d with | .ret => [[]] | .sink => [], ?_, ?_⟩
  · cases d <;> simp [State.responded, State.emit, State.write, State.len]
  · intro s' ha
    cases d <;> simp [respond, State.responded, State.emit, State.write, State.len, hp s s' ha, ha.2.2]

theorem appendRespond_local (bits : State → List Bit) (p : State → Phase) (hb : ∀ s s', Agree s s' → bits s' = bits s)
    (hp : ∀ s s', Agree s s' → p s' = p s) : Local fun s => appendRespond (bits s) (p s) s := by
  refine ite_local (P := fun s => s.fits (bits s).length = true) ?_ ?_ (raise_local _)
  · intro s s' ha
    rw [fits_iff, fits_iff, hb s s' ha, ha.1]
    simp [State.len, ha.2.2]
  · exact respond_local p _ hp fun s s' ha => by rw [ha.2.2, hb s s' ha]

theorem exec_local (i : Instr) : Local (exec i) := by
  have acc : ∀ s s', Agree s s' → ((¬ s'.phase.acceptsBits) ↔ (¬ s.phase.acceptsBits)) := fun s s' ha => by rw [ha.2.1]
  cases i with
  | beNew => exact respond_local (fun _ => .raw) (fun _ => []) (fun _ _ _ => rfl) fun _ _ _ => rfl
  | nalStart fzb ref typ longSc =>
    exact ite_local (P := fun _ => fzb = true) (fun _ _ _ => Iff.rfl) (raise_local _)
      (respond_local (fun _ => .opened) (fun _ => _) (fun _ _ _ => rfl) fun _ _ _ => rfl)
  | appendBit b =>
    exact ite_local acc (raise_local _) (ite_local (P := fun _ => 1 < b) (fun _ _ _ => Iff.rfl) (raise_local _)
      (appendRespond_local (fun _ => [decide (b = 1)]) State.phase (fun _ _ _ => rfl) fun _ _ ha => ha.2.1))
  | appendBits n raw =>
    exact ite_local acc (raise_local _) (ite_local (P := fun _ => n < 0) (fun _ _ _ => Iff.rfl) (raise_local _)
      (ite_local (P := fun _ => 2 ^ n.toNat ≤ raw) (fun _ _ _ => Iff.rfl) (raise_local _)
        (appendRespond_local (fun _ => bitsMsb raw n.toNat) State.phase (fun _ _ _ => rfl) fun _ _ ha => ha.2.1)))
  | appendUe v =>
    exact ite_local acc (raise_local _) (ite_local (P := fun _ => v < 0) (fun _ _ _ => Iff.rfl) (raise_local _)
      (appendRespond_local (fun _ => ueCode v.toNat) State.phase (fun _ _ _ => rfl) fun _ _ ha => ha.2.1))
  | appendSe v =>
    exact ite_local acc (raise_local _)
      (appendRespond_local (fun _ => ueCode (seMap v)) State.phase (fun _ _ _ => rfl) fun _ _ ha => ha.2.1)
  | bitLength =>
    exact ite_local (P := fun s => s.phase.live = true) (fun _ _ ha => by rw [ha.2.1])
      (respond_local State.phase State.buf (fun _ _ ha => ha.2.1) fun _ _ ha => ha.2.2) (raise_local _)
  | toBytes =>
    exact ite_local (P := fun s => s.phase ≠ .raw) (fun _ _ ha => by rw [ha.2.1]) (raise_local _)
      (ite_local (P := fun s => s.len % 8 ≠ 0) (fun _ _ ha => by simp [State.len, ha.2.2]) (raise_local _)
        (emitRespond_local .ret State.phase fun _ _ ha => ha.2.1))
  | finalize =>
    exact ite_local (P := fun s => s.phase ≠ .opened) (fun _ _ ha => by rw [ha.2.1]) (raise_local _)
      (appendRespond_local (fun s => trailing s.len) (fun _ => .finalized)
        (fun _ _ ha => by simp [State.len, ha.2.2]) fun _ _ _ => rfl)
  | flush =>
    exact ite_local (P := fun s => s.phase = .flushed) (fun _ _ ha => by rw [ha.2.1]) (raise_local _)
      (ite_local (P := fun s => s.phase ≠ .finalized) (fun _ _ ha => by rw [ha.2.1]) (raise_local _)
        (ite_local (P := fun s => s.len % 8 ≠ 0) (fun _ _ ha => by simp [State.len, ha.2.2]) (fault_local _)
          (emitRespond_local .sink (fun _ => .flushed) fun _ _ _ => rfl)))

theorem execWord_local (w : CmdWord) : Local (execWord w) := by
  intro s t h
  rcases hd : decode w with i | op | m
  · rw [execWord_legal w i s hd] at h
    obtain ⟨p, b, d, bs, r, rs, h1, h2⟩ := exec_local i s t h
    exact ⟨p, b, d, bs, r, rs, h1, fun s' ha => by rw [execWord_legal w i s' hd, h2 s' ha]⟩
  all_goals
    simp only [execWord, hd] at h
    obtain ⟨p, b, d, bs, r, rs, h1, h2⟩ := raise_local _ s t h
    exact ⟨p, b, d, bs, r, rs, h1, fun s' ha => by simp only [execWord, hd]; exact h2 s' ha⟩

/-- The host's later moves and the counter pass through a command unread. -/
theorem execWord_consume (w : CmdWord) (s t : State) (ms : List HostMove) (h : execWord w s = .next t) :
    execWord w (s.consume ms) = .next { t with moves := ms, draw := s.draw + 1 } := by
  obtain ⟨p, b, d, bs, r, rs, rfl, h2⟩ := execWord_local w s t h
  exact h2 _ ⟨rfl, rfl, rfl⟩

theorem takeBeat_carry (s : State) (ms : List HostMove) (d : Nat) :
    State.takeBeat { s with moves := ms, draw := d } = { s.takeBeat with moves := ms, draw := d } := by
  obtain ⟨cap, phase, buf, faults, bytePort, rspPort, sink, ret, responses, moves, draw⟩ := s
  rcases bytePort with _ | ⟨⟨b, l, _ | _⟩, rest⟩ <;> rfl

theorem takeBeats_carry (k : Nat) (s : State) (ms : List HostMove) (d : Nat) :
    State.takeBeats k { s with moves := ms, draw := d } = { State.takeBeats k s with moves := ms, draw := d } := by
  induction k generalizing s with
  | zero => rfl
  | succ k ih => rw [State.takeBeats, State.takeBeats, ← ih, takeBeat_carry]

/-- Delivery of one `emit` to the sink: its bytes reach the sink, and the response is taken. -/
theorem deliver_sink_emit (s : State) (bs : List Byte) (r : Response) (hb : s.bytePort = beatsOf .sink bs)
    (hr : s.rspPort = some r) :
    s.deliver = { s with bytePort := [], rspPort := none, sink := s.sink ++ bs, responses := s.responses ++ [r] } := by
  rw [deliver_eq _ r hr]
  have g := takeBeats_sink s.bytePort.length s
  have k := takeBeats_ret_sink _ s.bytePort.length s hb
  rw [List.take_length, hb, sinkData_beatsOf_sink, ← hb] at g
  obtain ⟨f1, f2, f3, f4, f5, f6, f7, f8, f9⟩ := takeBeats_frame s.bytePort.length s
  generalize State.takeBeats s.bytePort.length s = u at *
  dsimp only
  rw [f1, f2, f3, f4, f7, f8, g, k]

/-- Delivery of one `emit` to the caller: its bytes fill the element the `emit` opened. -/
theorem deliver_ret_emit (s : State) (bs : List Byte) (l : List (List Byte)) (r : Response)
    (hb : s.bytePort = beatsOf .ret bs) (hr : s.rspPort = some r) (hl : s.ret = l ++ [[]]) :
    s.deliver = { s with bytePort := [], rspPort := none, ret := l ++ [bs], responses := s.responses ++ [r] } := by
  rw [deliver_eq _ r hr]
  have hn : s.bytePort.length = bs.length := by rw [hb]; simp
  have g := takeBeats_sink s.bytePort.length s
  have k := takeBeats_ret_ret _ s.bytePort.length s l [] hb hl
  rw [List.take_length, hb, sinkData_beatsOf_ret, ← hb, hn] at g
  rw [hn, List.take_length] at k
  rw [hn]
  obtain ⟨f1, f2, f3, f4, f5, f6, f7, f8, f9⟩ := takeBeats_frame bs.length s
  generalize State.takeBeats bs.length s = u at *
  dsimp only
  rw [f1, f2, f3, f4, f7, f8, g, k]
  simp

end Sys2Proof.Machine
end

