-- ==== Sys2Proof/Laws/PerInstr.lean ====
section
/-! SUPPORT. Per-instruction facts about the syntax: the fields of the word each command encodes as. -/

namespace Sys2Proof.Laws.EncodeFields

/-- The three fields of a command's word are its opcode, its `aux` and its `imm` (R53, R57), and the opcode is its row's. -/
def Statement (i : Instr) : Prop :=
  opField (encode i) = i.opcode ∧ auxField (encode i) = i.aux ∧ immField (encode i) = i.imm ∧
    opField i.row.pattern = i.opcode

theorem beNew : Statement .beNew := by unfold Statement; decide
theorem nalStart (fzb : Bool) (ref typ : Nat) (longSc : Bool) : Statement (.nalStart fzb ref typ longSc) := by
  refine ⟨by simp [encode], by simp [encode], by simp [encode], by simp only [Instr.row, Instr.opcode]; decide⟩
theorem appendBit (b : Nat) : Statement (.appendBit b) := by
  refine ⟨by simp [encode], by simp [encode], by simp [encode], by simp only [Instr.row, Instr.opcode]; decide⟩
theorem appendBits (n : Int) (raw : Nat) : Statement (.appendBits n raw) := by
  refine ⟨by simp [encode], by simp [encode], by simp [encode], by simp only [Instr.row, Instr.opcode]; decide⟩
theorem appendUe (v : Int) : Statement (.appendUe v) := by
  refine ⟨by simp [encode], by simp [encode], by simp [encode], by simp only [Instr.row, Instr.opcode]; decide⟩
theorem appendSe (v : Int) : Statement (.appendSe v) := by
  refine ⟨by simp [encode], by simp [encode], by simp [encode], by simp only [Instr.row, Instr.opcode]; decide⟩
theorem bitLength : Statement .bitLength := by unfold Statement; decide
theorem toBytes : Statement .toBytes := by unfold Statement; decide
theorem finalize : Statement .finalize := by unfold Statement; decide
theorem flush : Statement .flush := by unfold Statement; decide

end Sys2Proof.Laws.EncodeFields
end

