-- ==== Sys2Proof/Tests/Slice0.lean ====
section
/-! SUPPORT. Tests: ill-formed terms the checks refuse, words written out from the encoding, one small step per command with the
expected value from spec/95_test_vectors.md, and a witness for every statement that has hypotheses. -/

namespace Sys2Proof.Tests

open Sys2Proof.Machine Sys2Proof.Spec

/-! ### Sample states -/

/-- The bits of a list of bytes. -/
def bytesBits (bs : List Nat) : List Bit := bs.flatMap fun b => bitsMsb b 8

/-- The reset state in another phase, with this buffer. -/
def inPhase (p : Phase) (bits : List Bit) : State := { State.reset with phase := p, buf := bits }

/-- A bare emitter, empty. -/
def rawEmpty : State := inPhase .raw []

/-- A bare emitter with the byte `3D`. -/
def rawByte : State := inPhase .raw [false, false, true, true, true, true, false, true]

/-- A bare emitter with nine bits. -/
def rawNine : State := inPhase .raw (rawByte.buf ++ [true])

/-- An open unit, `00 00 00 01 67`. -/
def open40 : State := inPhase .opened (bytesBits [0x00, 0x00, 0x00, 0x01, 0x67])

/-- The open unit with room for one more bit only. -/
def almostFull : State := { open40 with cap := some 112, buf := open40.buf ++ zeros 71 }

/-- The open unit at its capacity, the smallest legal one. -/
def full : State := { open40 with cap := some 112, buf := open40.buf ++ zeros 72 }

/-- The finalized unit of 95_test_vectors.md 2.6, `00 00 01 67 C0`. -/
def final40 : State := inPhase .finalized (bytesBits [0x00, 0x00, 0x01, 0x67, 0xC0])

/-- A finalized phase with an unaligned buffer: no run reaches it (log 10). -/
def finalOdd : State := inPhase .finalized (final40.buf.take 39)

/-- The unit of `final40`, flushed. -/
def flushed40 : State := { final40 with phase := .flushed }

/-- A dead instance, `faults = 0x010`. -/
def dead : State := { inPhase .failed [true] with faults := 0x010 }

/-- A block whose `FLUSH` has one beat and the response left. -/
def busy : State :=
  { flushed40 with
    bytePort := [⟨0xC0, true, .sink⟩]
    rspPort := some ⟨0, 40⟩
    sink := [0x00, 0x00, 0x01, 0x67] }

/-- A state with these host moves next. -/
def withMoves (s : State) (ms : List HostMove) : State := { s with moves := ms }

/-- What the tests look at after a command: phase, buffer, `faults`, response word, beats. -/
structure View where
  phase  : Phase
  buf    : List Bit
  faults : BitVec 9
  rsp    : Option RspWord
  beats  : List Beat
deriving DecidableEq, Repr

/-- What the tests look at after a step: phase, `faults`, response words, sink, return log. -/
structure Logs where
  phase  : Phase
  faults : BitVec 9
  rsps   : List RspWord
  sink   : List Byte
  ret    : List (List Byte)
deriving DecidableEq, Repr

/-- The view of a next state. -/
def after (o : Result) : Option View :=
  match o with
  | .next t => some ⟨t.phase, t.buf, t.faults, t.rspPort.map Response.word, t.bytePort⟩
  | .fault _ => none
  | .refused _ => none

/-- The logs of a next state. -/
def shown (o : Result) : Option Logs :=
  match o with
  | .next t => some ⟨t.phase, t.faults, t.responses.map Response.word, t.sink, t.ret⟩
  | .fault _ => none
  | .refused _ => none

/-! ### WellFormed: one ill-formed term for each check -/

theorem test_wf_ref : (Instr.nalStart false 4 7 true).wf = false := by decide
theorem test_wf_typ : (Instr.nalStart false 3 32 true).wf = false := by decide
theorem test_wf_bit : (Instr.appendBit (2 ^ 32)).wf = false := by decide
theorem test_wf_width_low : (Instr.appendBits (-129) 0).wf = false := by decide
theorem test_wf_width_high : (Instr.appendBits 128 0).wf = false := by decide
theorem test_wf_raw : (Instr.appendBits 8 (2 ^ 32)).wf = false := by decide
theorem test_wf_ue : (Instr.appendUe (-2 ^ 31 - 1)).wf = false ∧ (Instr.appendUe (2 ^ 31)).wf = false := by decide
theorem test_wf_se : (Instr.appendSe (-2 ^ 31 - 1)).wf = false ∧ (Instr.appendSe (2 ^ 31)).wf = false := by decide

/-! ### Decoding: words written out field by field from 30_encoding.md R53, R57, R58 -/

/-- A command word from its three fields, written in binary. -/
def word (op aux : BitVec 8) (imm : BitVec 32) : CmdWord := op ++ aux ++ imm

theorem test_decode_beNew : decode (word 0b00000001 0b00000000 0b0) = .legal .beNew := by decide
theorem test_decode_nalStart :
    decode (word 0b00000010 0b01100111 0b1) = .legal (.nalStart false 3 7 true) ∧
      decode (word 0b00000010 0b11000001 0b0) = .legal (.nalStart true 2 1 false) := by decide
theorem test_decode_appendBit :
    decode (word 0b00010000 0b00000000 0b10000000000000000000000000000001) = .legal (.appendBit 2147483649) := by decide
theorem test_decode_appendBits :
    decode (word 0b00010001 0b01111111 0b11111111111111111111111111111101) = .legal (.appendBits 127 4294967293) ∧
      decode (word 0b00010001 0b10000000 0b0) = .legal (.appendBits (-128) 0) := by decide
theorem test_decode_appendUe :
    decode (word 0b00010010 0b00000000 0b11111111111111111111111111111101) = .legal (.appendUe (-3)) := by decide
theorem test_decode_appendSe :
    decode (word 0b00010011 0b00000000 0b10000000000000000000000000000000) = .legal (.appendSe (-2147483648)) := by decide
theorem test_decode_bitLength : decode (word 0b00100000 0b00000000 0b0) = .legal .bitLength := by decide
theorem test_decode_toBytes : decode (word 0b00100001 0b00000000 0b0) = .legal .toBytes := by decide
theorem test_decode_finalize : decode (word 0b00110000 0b00000000 0b0) = .legal .finalize := by decide
theorem test_decode_flush : decode (word 0b00110001 0b00000000 0b0) = .legal .flush := by decide

/-- R59, R60: reserved fields, the neighbours of every opcode group, the all-zero and the all-one word. -/
theorem test_decode_rejects :
    decode 0x000000000000#48 = .unknownOpcode 0x00 ∧ decode 0xFFFFFFFFFFFF#48 = .unknownOpcode 0xFF ∧
      decode 0x140000000000#48 = .unknownOpcode 0x14 ∧ decode 0x026700000002#48 = .reservedField "NAL_START" ∧
      decode 0x100100000001#48 = .reservedField "APPEND_BIT" ∧ decode 0x120100000000#48 = .reservedField "APPEND_UE" ∧
      decode 0x138000000000#48 = .reservedField "APPEND_SE" ∧ decode 0x310000000001#48 = .reservedField "FLUSH" := by decide

/-- The table's own numbering. -/
theorem test_decodeTableWord :
    decodeTableWord 48 0x026700000001 = some (.nalStart false 3 7 true) ∧ decodeTableWord 48 0 = none := by decide

/-- R63: the lines of the assembler and the words 95_test_vectors.md gives for them. -/
theorem test_assemble :
    Driver.AsmLine.assemble (.nalStart 4 3 7 false) = 0x026700000001#48 ∧
      Driver.AsmLine.assemble (.nalStart 4 3 7 true) = 0x02E700000001#48 ∧
      Driver.AsmLine.assemble (.cmd (.appendBits (-1) 0)) = 0x11FF00000000#48 ∧
      Driver.AsmLine.assemble (.cmd (.appendSe (-3))) = 0x1300FFFFFFFD#48 ∧
      Driver.AsmLine.assemble (.word 0x310000000001#48) = 0x310000000001#48 := by decide

/-! ### One step of each command (95_test_vectors.md 2.1 to 2.8) -/

/-- 2.7 step 1, and recovery keeps `faults` (2.6 step 5). -/
theorem test_beNew : after (exec .beNew dead) = some ⟨.raw, [], 0x010, some 0x0000000000, []⟩ := by decide

/-- 2.4, first row; and the row with `fzb=1` on an open unit, which stays as it is. -/
theorem test_nalStart :
    after (exec (.nalStart false 3 7 true) State.reset)
      = some ⟨.opened, bytesBits [0x00, 0x00, 0x00, 0x01, 0x67], 0, some 0x0000000028, []⟩ := by decide
theorem test_nalStart_fzb :
    after (exec (.nalStart true 0 0 false) open40) = some ⟨.opened, open40.buf, 0x004, some 0x0200000000, []⟩ := by
  decide

/-- 2.1: `APPEND_BIT 1`; `APPEND_BIT 2` is checked, not truncated. -/
theorem test_appendBit : after (exec (.appendBit 1) rawEmpty) = some ⟨.raw, [true], 0, some 0x0000000001, []⟩ := by decide
theorem test_appendBit_two : after (exec (.appendBit 2) rawEmpty) = some ⟨.raw, [], 0x002, some 0x0100000000, []⟩ := by decide

/-- 2.1: `APPEND_BITS 8, 66`; `APPEND_BITS 8, 256`. -/
theorem test_appendBits :
    after (exec (.appendBits 8 66) rawEmpty)
      = some ⟨.raw, [false, true, false, false, false, false, true, false], 0, some 0x0000000008, []⟩ := by decide
theorem test_appendBits_wide :
    after (exec (.appendBits 8 256) rawEmpty) = some ⟨.raw, [], 0x002, some 0x0100000000, []⟩ := by decide

/-- 2.2: `APPEND_UE 6`; 2.8: `APPEND_UE -1` in `FINAL` reports the phase, not the operand. -/
theorem test_appendUe :
    after (exec (.appendUe 6) rawEmpty) = some ⟨.raw, [false, false, true, true, true], 0, some 0x0000000005, []⟩ := by decide
theorem test_appendUe_priority :
    after (exec (.appendUe (-1)) final40) = some ⟨.failed, final40.buf, 0x010, some 0x0400000000, []⟩ := by decide

/-- 2.3: `APPEND_SE -2` and the longest code. -/
theorem test_appendSe :
    after (exec (.appendSe (-2)) rawEmpty) = some ⟨.raw, [false, false, true, false, true], 0, some 0x0000000005, []⟩ := by decide
theorem test_appendSe_longest :
    after (exec (.appendSe (-2147483648)) rawEmpty)
      = some ⟨.raw, zeros 32 ++ [true] ++ zeros 31 ++ [true], 0, some 0x0000000041, []⟩ := by decide

/-- 2.7 steps 5 and 10. -/
theorem test_bitLength : after (exec .bitLength rawByte) = some ⟨.raw, rawByte.buf, 0, some 0x0000000008, []⟩ := by decide
theorem test_bitLength_dead : after (exec .bitLength dead) = some ⟨.failed, [true], 0x010, some 0x0400000000, []⟩ := by decide

/-- 2.7 steps 6 and 9. -/
theorem test_toBytes :
    after (exec .toBytes rawByte) = some ⟨.raw, rawByte.buf, 0, some 0x0000000008, [⟨0x3D, true, .ret⟩]⟩ := by decide
theorem test_toBytes_unaligned :
    after (exec .toBytes rawNine) = some ⟨.failed, rawNine.buf, 0x040, some 0x0600000000, []⟩ := by decide

/-- 2.5 row 0: an aligned payload gains a whole byte `80`; 43_nal_framing.md R127: the full buffer. -/
theorem test_finalize :
    after (exec .finalize open40)
      = some ⟨.finalized, bytesBits [0x00, 0x00, 0x00, 0x01, 0x67, 0x80], 0, some 0x0000000030, []⟩ := by decide
theorem test_finalize_full : after (exec .finalize full) = some ⟨.opened, full.buf, 0x100, some 0x0800000000, []⟩ := by
  decide

/-- 2.6 steps 1 and 3. -/
theorem test_flush :
    after (exec .flush final40) = some ⟨.flushed, final40.buf, 0, some 0x0000000028,
      [⟨0x00, false, .sink⟩, ⟨0x00, false, .sink⟩, ⟨0x01, false, .sink⟩, ⟨0x67, false, .sink⟩, ⟨0xC0, true, .sink⟩]⟩ := by
  decide
theorem test_flush_twice :
    after (exec .flush flushed40) = some ⟨.failed, flushed40.buf, 0x020, some 0x0500000000, []⟩ := by decide

/-- 2.6 step 1 as a whole span: the sink, and the response. -/
theorem test_step_flush :
    shown (step (final40.withFetchWord 48 0x310000000000))
      = some ⟨.flushed, 0, [0x0000000028], [0x00, 0x00, 0x01, 0x67, 0xC0], []⟩ := by decide

/-- 2.7 step 2 as a whole span: the empty byte sequence is one empty element. -/
theorem test_step_toBytes_empty :
    shown (step (rawEmpty.withFetchWord 48 0x210000000000)) = some ⟨.raw, 0, [0x0000000000], [], [[]]⟩ := by decide

/-- 2.8: `FLUSH` with `imm = 1` in `FLUSHED` is no `FLUSH`, and the instance survives. -/
theorem test_step_illegal :
    shown (step (flushed40.withFetchWord 48 0x310000000001)) = some ⟨.flushed, 0x080, [0x0700000000], [], []⟩ := by
  decide

/-- R203: a reset edge in mid-`FLUSH` drops the last beat and the response; the sink keeps what it has. -/
theorem test_step_reset :
    shown (step (withMoves busy [.reset none])) = some ⟨.idle, 0, [], [0x00, 0x00, 0x01, 0x67], []⟩ := by decide

/-! ### Codes and packing -/

/-- The bits of a code as a binary number and its length, to write the tables with. -/
def isCode (bits : List Bit) (value length : Nat) : Bool := bits == bitsMsb value length

/-- The table of 41_exp_golomb.md R94, with the row for 119 of 95_test_vectors.md 2.2. -/
theorem test_ue_table :
    isCode (ueCode 0) 0b1 1 ∧ isCode (ueCode 1) 0b010 3 ∧ isCode (ueCode 2) 0b011 3 ∧ isCode (ueCode 3) 0b00100 5 ∧
      isCode (ueCode 7) 0b0001000 7 ∧ isCode (ueCode 14) 0b0001111 7 ∧ isCode (ueCode 15) 0b000010000 9 ∧
      isCode (ueCode 30) 0b000011111 9 ∧ isCode (ueCode 31) 0b00000100000 11 ∧ isCode (ueCode 119) 0b0000001111000 13 := by
  decide

/-- The table of R97 and rows of R103. -/
theorem test_se_table :
    seMap 0 = 0 ∧ seMap 1 = 1 ∧ seMap (-1) = 2 ∧ seMap 2 = 3 ∧ seMap (-2) = 4 ∧ seMap 4 = 7 ∧ seMap (-4) = 8 ∧
      seMap 127 = 253 ∧ seMap (-128) = 256 ∧ seMap (-2147483648) = 4294967296 := by decide

/-- 20_memory.md R36 and the field across a byte boundary of 95_test_vectors.md 2.1. -/
theorem test_pack :
    pack (ueCode 6 ++ bitsMsb 5 3) = [0x3D] ∧ pack (bitsMsb 10 4 ++ bitsMsb 0xBEE 12) = [0xAB, 0xEE] := by decide

/-- The eight rows of 43_nal_framing.md R128. -/
theorem test_trailing :
    (List.range 8).map (fun l => (trailing l).length) = [8, 7, 6, 5, 4, 3, 2, 1] ∧
      (List.range 8).all (fun l => (trailing l).head? == some true) = true := by decide

/-- The SPS of program P1. -/
def spsSample : Driver.SpsFields :=
  ⟨4, 3, 7, 66, false, false, false, 30, 0, 0, 0, 0, 1, false, 31, 31, true, false, false, false⟩
/-- A PPS with every field zero (program P2). -/
def ppsSample : Driver.PpsFields := ⟨4, 3, 8, 0, 0, false, false, 0, 0, 0, false, 0, 0, 0, 0, false, false, false⟩

/-- 44_parameter_set_sequences.md R144: 512 pixels give 31, 500 are refused, level 3 gives 30. -/
theorem test_setters :
    (spsSample.setPixelWidth 512).1.widthInMbsMinus1 = 31 ∧
      spsSample.setPixelWidth 500 = (spsSample, some .invalidFieldValue) ∧
      (spsSample.setLevelNumber 3).1.levelIdc = 30 := by decide

/-- R142 and 41_exp_golomb.md R104: a non-integer is refused, and the set stays as it was. -/
theorem test_setter_refuses_non_integer :
    ppsSample.setQp (mkRat 1 2) = (ppsSample, some .invalidFieldValue) ∧ (ppsSample.setQp (-26)).1.qp = -26 := by decide

/-- R145: operands outside R142's domains that a word can carry are sent, for the block to refuse; R147: field 7a is not sent when
`pic_order_cnt_type` is not 0, so its operand is not looked at. -/
theorem test_export_sends_what_a_word_can_carry :
    (Driver.spsExport { spsSample with spsId := -1, profileIdc := 256 } =
      .commands (.nalStart false 3 7 true :: { spsSample with spsId := -1, profileIdc := 256 }.payload ++ [.finalize, .flush])) ∧
    (Driver.spsExport { spsSample with pocType := 2, log2MaxPocLsbMinus4 := 2 ^ 40 } =
      .commands (.nalStart false 3 7 true :: { spsSample with pocType := 2 }.payload ++ [.finalize, .flush])) ∧
    Driver.spsExport { spsSample with spsId := 2 ^ 31 } = .failed .invalidFieldValue := by decide

/-- Programs P1 and P2: the bytes of the two units. -/
theorem test_export_units :
    unitBytes true 3 7 (payloadBits spsSample.payload)
      = [0x00, 0x00, 0x00, 0x01, 0x67, 0x42, 0x00, 0x1E, 0xF4, 0x04, 0x00, 0x82, 0x20] ∧
      unitBytes true 3 8 (payloadBits ppsSample.payload) = [0x00, 0x00, 0x00, 0x01, 0x68, 0xCE, 0x38, 0x80] := by
  decide

/-! ### Witnesses: states and operands that meet the hypotheses of each statement, one for each clause -/

/-- Nothing more fits. -/
theorem noRoom (s : State) (k c : Nat) (hc : s.cap = some c) (h : c < s.buf.length + k) : ¬ room s k :=
  fun hr => absurd (hr c hc) (by omega)

/-- There is room for these many bits. -/
theorem hasRoom (s : State) (k c : Nat) (hc : s.cap = some c) (h : s.buf.length + k ≤ c) : room s k :=
  fun c' hc' => by
    rw [hc] at hc'
    exact Option.some.inj hc' ▸ h

theorem witness_ResetEdgeGivesResetState :
    (withMoves busy [.reset (some 0x010000000000#48), .takeBeat]).moves
      = .reset (some 0x010000000000#48) :: [.takeBeat] := rfl

theorem witness_StepRunsDecodedCommand :
    cmdReady (withMoves open40 [.offer 0x300000000000#48]) = true ∧ decode 0x300000000000#48 = .legal .finalize ∧
      (withMoves open40 [.offer 0x300000000000#48]).moves = .offer 0x300000000000#48 :: [] ∧
      cmdReady (withMoves final40 [.command 0x310000000000#48, .takeBeat]) = true ∧
      decode 0x310000000000#48 = .legal .flush ∧
      (withMoves final40 [.command 0x310000000000#48, .takeBeat]).moves = .command 0x310000000000#48 :: [.takeBeat] := by
  decide

theorem witness_WordIsCommandIffItMatchesRow :
    Instr.row (.appendUe 0) ∈ opcodeMap ∧
      0x1200FFFFFFFF#48 &&& (Instr.row (.appendUe 0)).mask = (Instr.row (.appendUe 0)).pattern ∧
      0x1201FFFFFFFF#48 &&& (Instr.row (.appendUe 0)).mask ≠ (Instr.row (.appendUe 0)).pattern := by decide

theorem witness_UnmatchedWordIsIllegalCommand :
    cmdReady (withMoves flushed40 [.command 0x310000000001#48]) = true ∧
      (withMoves flushed40 [.command 0x310000000001#48]).moves = .command 0x310000000001#48 :: [] ∧
      (∀ r ∈ opcodeMap, 0x310000000001#48 &&& r.mask ≠ r.pattern) ∧
      (mustBeZero (opField 0x310000000001#48) = some 0x00FFFFFFFFFF ∧ 0x310000000001#48 &&& 0x00FFFFFFFFFF#48 ≠ 0) := by
  decide

/-- The two cases of `encodedAs`, for the command of each shape of reserved field. -/
theorem witness_encodedAs :
    ((0#8 = 0 ∧ 0#32 = 0) ∧ ¬ (0x80#8 = 0 ∧ 0#32 = 0) ∧ ¬ (0#8 = 0 ∧ 0x80000000#32 = 0)) ∧
      (1#32 >>> 1 = 0 ∧ ¬ (2#32 >>> 1 = 0)) ∧ (0#8 = 0 ∧ ¬ (1#8 = 0)) := by decide

theorem witness_DecodeOfEncodeIsTheCommand :
    (Instr.nalStart true 3 31 true).wf = true ∧ (Instr.appendBits (-128) 4294967295).wf = true ∧
      (Instr.appendBits 127 0).wf = true ∧ (Instr.appendSe (-2147483648)).wf = true ∧
      (Instr.appendUe 2147483647).wf = true ∧ (Instr.appendBit 4294967295).wf = true := by decide

theorem witness_EncodeOfDecodeIsTheWord : decode 0x11FF00000000#48 = .legal (.appendBits (-1) 0) := by decide

theorem witness_NalStartLayout : (3 < 4 ∧ 31 < 32 ∧ true = true) ∧ (0 < 4 ∧ 0 < 32 ∧ false = false) := by decide

theorem accepts_raw (bits : List Bit) : accepts (inPhase .raw bits) := .inl rfl
theorem accepts_full : accepts full := .inr rfl
theorem accepts_almostFull : accepts almostFull := .inr rfl
theorem not_accepts_reset : ¬ accepts State.reset := by simp [accepts, State.reset]
theorem not_accepts_dead : ¬ accepts dead := by simp [accepts, dead, inPhase]

theorem witness_AppendBitAppendsOneBit :
    ¬ accepts State.reset ∧ (accepts rawEmpty ∧ 1 < 2) ∧ (accepts full ∧ 1 ≤ 1 ∧ ¬ room full 1) ∧
      (accepts almostFull ∧ 1 ≤ 1 ∧ room almostFull 1) :=
  ⟨not_accepts_reset, ⟨accepts_raw _, by decide⟩, ⟨accepts_full, by decide, noRoom _ _ 112 rfl (by decide)⟩,
    ⟨accepts_almostFull, by decide, hasRoom _ _ 112 rfl (by decide)⟩⟩

theorem witness_AppendBitsAppendsField :
    ¬ accepts dead ∧ (accepts rawEmpty ∧ ((-1 : Int) < 0 ∨ 2 ^ (-1 : Int).toNat ≤ 0)) ∧
      (accepts rawEmpty ∧ ((8 : Int) < 0 ∨ 2 ^ (8 : Int).toNat ≤ 256)) ∧
      (accepts full ∧ 0 ≤ (1 : Int) ∧ 1 < 2 ^ (1 : Int).toNat ∧ ¬ room full (1 : Int).toNat) ∧
      (accepts full ∧ 0 ≤ (0 : Int) ∧ 0 < 2 ^ (0 : Int).toNat ∧ room full (0 : Int).toNat) :=
  ⟨not_accepts_dead, ⟨accepts_raw _, by decide⟩, ⟨accepts_raw _, by decide⟩,
    ⟨accepts_full, by decide, by decide, noRoom _ _ 112 rfl (by decide)⟩,
    ⟨accepts_full, by decide, by decide, hasRoom _ _ 112 rfl (by decide)⟩⟩

theorem witness_AppendedFieldReadsBack : accepts almostFull ∧ 1 < 2 ^ 1 ∧ room almostFull 1 :=
  ⟨accepts_almostFull, by decide, hasRoom _ _ 112 rfl (by decide)⟩

theorem witness_WideFieldIsZeroExtended :
    (accepts almostFull ∧ room almostFull 1) ∧
      (32 ≤ 127 ∧ 4294967295 < 2 ^ 32 ∧ accepts rawEmpty ∧ room rawEmpty 127) ∧
      decode 0x117FFFFFFFFF#48 = .legal (.appendBits 127 4294967295) :=
  ⟨⟨accepts_almostFull, hasRoom _ _ 112 rfl (by decide)⟩,
    ⟨by decide, by decide, accepts_raw _, hasRoom _ _ 4096 rfl (by decide)⟩, by decide⟩

theorem witness_SplitFieldGivesSameBuffer : accepts rawByte ∧ 61 < 2 ^ (3 + 5) ∧ room rawByte (3 + 5) :=
  ⟨accepts_raw _, by decide, hasRoom _ _ 4096 rfl (by decide)⟩

theorem witness_AppendUeAppendsCode :
    ¬ accepts State.reset ∧ (accepts rawEmpty ∧ (-1 : Int) < 0) ∧
      (accepts almostFull ∧ 0 ≤ (1 : Int) ∧ ¬ room almostFull (2 * floorLog2 ((1 : Int).toNat + 1) + 1)) ∧
      (accepts almostFull ∧ 0 ≤ (0 : Int) ∧ room almostFull (2 * floorLog2 ((0 : Int).toNat + 1) + 1)) :=
  ⟨not_accepts_reset, ⟨accepts_raw _, by decide⟩, ⟨accepts_almostFull, by decide, noRoom _ _ 112 rfl (by decide)⟩,
    ⟨accepts_almostFull, by decide, hasRoom _ _ 112 rfl (by decide)⟩⟩

theorem witness_AppendSeAppendsCode :
    ¬ accepts dead ∧ (accepts almostFull ∧ ¬ room almostFull (ueCode (seMap (-1))).length) ∧
      (accepts almostFull ∧ room almostFull (ueCode (seMap 0)).length) :=
  ⟨not_accepts_dead, ⟨accepts_almostFull, noRoom _ _ 112 rfl (by decide)⟩,
    ⟨accepts_almostFull, hasRoom _ _ 112 rfl (by decide)⟩⟩

theorem witness_ExpGolombIsPrefixFree : (0 : Nat) ≠ 1 ∧ ueCode (seMap (-3)) = ueCode (seMap (-3)) := by decide

theorem witness_SignedMappingIsBijection : (0 : Int) ≤ 0 ∧ (0 : Int) < 1 := by decide

theorem witness_ExpGolombLengthLaw :
    (accepts almostFull ∧ 0 ≤ (0 : Int) ∧ room almostFull (2 * floorLog2 ((0 : Int).toNat + 1) + 1)) ∧
      (accepts rawEmpty ∧ room rawEmpty (2 * floorLog2 (seMap (-2147483648) + 1) + 1)) ∧
      (0 ≤ (2147483647 : Int) ∧ (2147483647 : Int) < 2 ^ 31) ∧
      (-2 ^ 31 ≤ (-2147483648 : Int) ∧ (-2147483648 : Int) < 2 ^ 31) :=
  ⟨⟨accepts_almostFull, by decide, hasRoom _ _ 112 rfl (by decide)⟩,
    ⟨accepts_raw _, hasRoom _ _ 4096 rfl (by decide)⟩, by decide, by decide⟩

theorem witness_BitLengthReportsLength :
    (State.reset.phase = .idle ∨ State.reset.phase = .failed) ∧ (dead.phase = .idle ∨ dead.phase = .failed) ∧
      (flushed40.phase ≠ .idle ∧ flushed40.phase ≠ .failed) := by decide

theorem witness_ToBytesEmitsPackedBuffer :
    open40.phase ≠ .raw ∧ (rawNine.phase = .raw ∧ rawNine.buf.length % 8 ≠ 0) ∧
      (rawEmpty.phase = .raw ∧ rawEmpty.buf.length % 8 = 0) ∧ (rawByte.phase = .raw ∧ rawByte.buf.length % 8 = 0) := by
  decide

theorem witness_FinalizeAppendsTrailingBits :
    rawByte.phase ≠ .opened ∧ (full.phase = .opened ∧ ¬ room full (8 - full.buf.length % 8)) ∧
      (almostFull.phase = .opened ∧ room almostFull (8 - almostFull.buf.length % 8)) ∧
      (full.cap = some 112 ∧ Config.capLegal full.cap = true ∧ full.buf.length ≤ 112) :=
  ⟨by decide, ⟨rfl, noRoom _ _ 112 rfl (by decide)⟩, ⟨rfl, hasRoom _ _ 112 rfl (by decide)⟩, by decide⟩

theorem witness_FinalizedBufferEndsInStopBit :
    (open40.phase = .opened ∧ room open40 (8 - open40.buf.length % 8)) ∧
      (flushed40.phase.closed = true ∧
        execWord 0x200000000000#48 flushed40 = .next { flushed40 with rspPort := some ⟨0, 40⟩ } ∧
        (State.phase { flushed40 with rspPort := some ⟨0, 40⟩ }).closed = true) :=
  ⟨⟨rfl, hasRoom _ _ 4096 rfl (by decide)⟩, rfl, rfl, rfl⟩

theorem witness_FlushEmitsUnitToSink :
    flushed40.phase = .flushed ∧ (open40.phase ≠ .flushed ∧ open40.phase ≠ .finalized) ∧
      (final40.phase = .finalized ∧ final40.buf.length % 8 = 0) := by decide

/-- A state that meets the invariant and is not the reset state, with a finalized unit. -/
theorem inv_final40 : final40.Inv where
  capLegal := by decide
  lenLeCap := by
    intro c hc
    exact Option.some.inj hc ▸ by decide
  idleEmpty := fun h => absurd h (by decide)
  framed := fun _ => ⟨false, 3, 7, by decide, by decide, [true, true, false, false, false, false, false, false], by decide⟩
  closed := fun _ => by decide
  faultBits := by decide
  oneEmit := ⟨.sink, [], rfl⟩
  beatsBeforeResponse := fun h => absurd rfl h
  pendingStatus := fun _ h => by simp [final40, inPhase, State.reset] at h
  takenStatus := fun _ h => by simp [final40, inPhase, State.reset] at h

theorem witness_MachineStopsOnlyWherePackIsUndefined :
    unalignedFlush .flush finalOdd ∧ ¬ unalignedFlush .flush final40 ∧ final40.Inv :=
  ⟨⟨rfl, rfl, by decide⟩, fun h => absurd h.2.2 (by decide), inv_final40⟩

theorem witness_PackIsMsbFirst :
    rawByte.buf.length % 8 = 0 ∧ (pack rawByte.buf)[0]? = some 0x3D#8 ∧ rawByte.buf[7]? = some true := by decide

theorem witness_ByteSpansDeliverPackedBuffer :
    (cmdReady (withMoves final40 [.command 0x310000000000#48]) = true ∧
      (withMoves final40 [.command 0x310000000000#48]).moves = .command 0x310000000000#48 :: [] ∧
      (withMoves final40 [.command 0x310000000000#48]).phase = .finalized ∧
      (withMoves final40 [.command 0x310000000000#48]).buf.length % 8 = 0) ∧
    (cmdReady (withMoves rawByte [.command 0x210000000000#48]) = true ∧
      (withMoves rawByte [.command 0x210000000000#48]).moves = .command 0x210000000000#48 :: [] ∧
      (withMoves rawByte [.command 0x210000000000#48]).phase = .raw ∧
      (withMoves rawByte [.command 0x210000000000#48]).buf.length % 8 = 0) := by decide

/-- `final40` after the transfer of `FLUSH`: five beats and the response on the ports. -/
def flushing : State :=
  { final40 with phase := .flushed, bytePort := beatsOf .sink (pack final40.buf), rspPort := some (okResponse 40) }

theorem witness_ResponseFollowsLastBeat :
    (cmdReady rawEmpty = true ∧
      execWord 0x100000000001#48 rawEmpty = .next { rawEmpty with buf := [true], rspPort := some ⟨0, 1⟩ } ∧
      decode 0x100000000001#48 ≠ .legal .flush ∧ decode 0x100000000001#48 ≠ .legal .toBytes) ∧
    (cmdReady final40 = true ∧ execWord 0x310000000000#48 final40 = .next flushing ∧ 4 < flushing.bytePort.length) :=
  ⟨⟨rfl, rfl, by decide, by decide⟩, ⟨rfl, rfl, by decide⟩⟩

theorem witness_BusyBlockAcceptsNoCommand :
    (cmdReady (withMoves busy [.command 0x010000000000#48]) = false ∧
      (withMoves busy [.command 0x010000000000#48]).moves = .command 0x010000000000#48 :: []) ∧
    (cmdReady (withMoves busy [.offer 0x010000000000#48]) = false ∧
      (withMoves busy [.offer 0x010000000000#48]).moves = .offer 0x010000000000#48 :: []) ∧
    (cmdReady (withMoves busy [.reset none]) = false ∧ (withMoves busy [.reset none]).moves = .reset none :: []) := by
  decide

theorem witness_CommandSpanIsItsTransfers :
    cmdReady final40 = true ∧ execWord 0x310000000000#48 final40 = .next flushing := ⟨rfl, rfl⟩

/-- A `FLUSH` cut by reset after two of its five beats and before the first, and a `TO_BYTES` after all of its one and before
it. -/
def cutFlush : State := withMoves final40 [.offer 0x310000000000#48, .takeBeat, .takeBeat, .reset none, .takeResponse]
def cutFlushAtOnce : State := withMoves final40 [.offer 0x310000000000#48, .reset none]
def cutToBytes : State := withMoves rawByte [.offer 0x210000000000#48, .takeBeat, .reset (some 0x010000000000#48)]
def cutToBytesAtOnce : State := withMoves rawByte [.offer 0x210000000000#48, .reset none]

theorem witness_ResetMidCommandLeavesPrefix :
    (cmdReady cutFlush = true ∧ cutFlush.phase = .finalized ∧ cutFlush.buf.length % 8 = 0 ∧
      2 ≤ cutFlush.buf.length / 8 ∧
      cutFlush.moves = .offer 0x310000000000#48 :: List.replicate 2 .takeBeat ++ .reset none :: [.takeResponse]) ∧
    (cmdReady cutToBytes = true ∧ cutToBytes.phase = .raw ∧ cutToBytes.buf.length % 8 = 0 ∧
      1 ≤ cutToBytes.buf.length / 8 ∧
      cutToBytes.moves
        = .offer 0x210000000000#48 :: List.replicate 1 .takeBeat ++ .reset (some 0x010000000000#48) :: []) ∧
    (cmdReady cutFlushAtOnce = true ∧ cutFlushAtOnce.phase = .finalized ∧ cutFlushAtOnce.buf.length % 8 = 0 ∧
      0 ≤ cutFlushAtOnce.buf.length / 8 ∧
      cutFlushAtOnce.moves = .offer 0x310000000000#48 :: List.replicate 0 .takeBeat ++ .reset none :: []) ∧
    (cmdReady cutToBytesAtOnce = true ∧ cutToBytesAtOnce.phase = .raw ∧ cutToBytesAtOnce.buf.length % 8 = 0 ∧
      0 ≤ cutToBytesAtOnce.buf.length / 8 ∧
      cutToBytesAtOnce.moves = .offer 0x210000000000#48 :: List.replicate 0 .takeBeat ++ .reset none :: []) := by decide

theorem witness_StatusOutputsShowTheState :
    State.reset.phase = .idle ∧ rawByte.phase = .raw ∧ open40.phase = .opened ∧ final40.phase = .finalized ∧
      flushed40.phase = .flushed ∧ dead.phase = .failed ∧
      (rawNine.phase ≠ .idle ∧ rawNine.phase ≠ .failed ∧ rawNine.buf.length < 2 ^ 32) := by decide

/-- `rawByte` after the span of `APPEND_BIT 1` (2.7 step 8). -/
def bitTaken : State := { rawNine with responses := [⟨0, 9⟩], draw := 1 }

theorem step_bitTaken : step (withMoves rawByte [.command 0x100000000001#48]) = .next bitTaken := rfl

theorem witness_ThreeViewsOfLengthAgree :
    cmdReady (withMoves rawByte [.command 0x100000000001#48]) = true ∧
      (withMoves rawByte [.command 0x100000000001#48]).moves = .command 0x100000000001#48 :: [] ∧
      step (withMoves rawByte [.command 0x100000000001#48]) = .next bitTaken ∧
      bitTaken.responses = (withMoves rawByte [.command 0x100000000001#48]).responses ++ [⟨0, 9⟩] ∧
      ((⟨0, 9⟩ : Response).status = 0) := ⟨rfl, rfl, step_bitTaken, rfl, rfl⟩

/-- `flushed40` after a second `FLUSH`. -/
def flushedTwice : State := { flushed40 with phase := .failed, faults := 0x020, rspPort := some ⟨5, 0⟩ }

theorem witness_FaultLeavesNoPartialEffect :
    execWord 0x310000000000#48 flushed40 = .next flushedTwice ∧ flushedTwice.rspPort = some ⟨5, 0⟩ ∧
      (⟨5, 0⟩ : Response).status ≠ 0 := ⟨rfl, rfl, by decide⟩

theorem witness_FirstApplicableCauseIsReported :
    (∀ i, decode 0x1200FFFFFFFF#48 = .legal i → ¬ unalignedFlush i final40) ∧
      (∀ i, decode 0x310000000000#48 = .legal i → ¬ unalignedFlush i final40) :=
  ⟨fun _ _ h => absurd h.2.2 (by decide), fun _ _ h => absurd h.2.2 (by decide)⟩

theorem witness_CommandsRaiseOnlyTheirCauses :
    (exec .flush flushed40 = .next flushedTwice ∧ flushedTwice.rspPort = some ⟨5, 0⟩) ∧ 6 ∈ canRaise .toBytes :=
  ⟨⟨rfl, rfl⟩, by decide⟩

theorem witness_PhaseTable :
    (¬ unalignedFlush .flush flushed40 ∧ phaseFault .flush flushed40.phase = some 5) ∧
      (¬ unalignedFlush .flush final40 ∧ phaseFault .flush final40.phase = none) ∧
      (¬ unalignedFlush .toBytes rawNine ∧ phaseFault .toBytes rawNine.phase = none) ∧
      (¬ unalignedFlush (.appendBit 2) rawNine ∧ phaseFault (.appendBit 2) rawNine.phase = none) :=
  ⟨⟨fun h => absurd h.2.1 (by decide), by decide⟩, ⟨fun h => absurd h.2.2 (by decide), by decide⟩,
    ⟨fun h => absurd h.1 (by decide), by decide⟩, ⟨fun h => absurd h.1 (by decide), by decide⟩⟩

theorem witness_OnlyConstructorsLeaveFailed :
    dead.phase = .failed ∧
      execWord 0x010000000000#48 dead = .next { dead with buf := [], phase := .raw, rspPort := some ⟨0, 0⟩ } ∧
      (execWord 0x200000000000#48 dead = .next { dead with rspPort := some ⟨4, 0⟩ } ∧
        decode 0x200000000000#48 = .legal .bitLength ∧ isConstructor .bitLength = false) ∧
      (execWord 0x000000000000#48 dead = .next { dead with faults := 0x090, rspPort := some ⟨7, 0⟩ } ∧
        ∀ i, decode 0x000000000000#48 ≠ .legal i) ∧
      (execWord 0x028000000000#48 dead = .next { dead with faults := 0x014, rspPort := some ⟨2, 0⟩ } ∧
        decode 0x028000000000#48 = .legal (.nalStart true 0 0 false)) ∧
      dead.faults.getLsbD 4 = true := by
  refine ⟨rfl, rfl, ⟨rfl, by decide, rfl⟩, ⟨rfl, fun i h => ?_⟩, ⟨rfl, by decide⟩, by decide⟩
  rw [show decode 0x000000000000#48 = .unknownOpcode 0 by decide] at h
  simp at h

theorem witness_FaultMaskIsStickyAndUnread :
    (step (withMoves rawByte [.command 0x100000000001#48]) = .next bitTaken ∧
      ∀ o rest, (withMoves rawByte [.command 0x100000000001#48]).moves ≠ .reset o :: rest) ∧
    (execWord 0x310000000000#48 flushed40 = .next flushedTwice ∧ flushedTwice.rspPort = some ⟨5, 0⟩ ∧
      (⟨5, 0⟩ : Response).status ≠ 0) ∧ dead.faults.getLsbD 4 = true :=
  ⟨⟨step_bitTaken, fun _ _ h => by simp [withMoves] at h⟩, ⟨rfl, rfl, by decide⟩, by decide⟩

theorem witness_BufferGrowsOnlyAtItsEnd :
    (execWord 0x100000000001#48 rawEmpty = .next { rawEmpty with buf := [true], rspPort := some ⟨0, 1⟩ } ∧
      ∀ i, decode 0x100000000001#48 = .legal i → isConstructor i = false) ∧
    (execWord 0x310000000000#48 flushed40 = .next flushedTwice ∧ flushedTwice.rspPort = some ⟨5, 0⟩ ∧
      (⟨5, 0⟩ : Response).status ≠ 0) := by
  refine ⟨⟨rfl, fun i h => ?_⟩, rfl, rfl, by decide⟩
  rw [show decode 0x100000000001#48 = .legal (.appendBit 1) by decide] at h
  exact Decoded.legal.inj h ▸ rfl

theorem witness_CommandFrame :
    exec .flush final40 = .next flushing ∧ Instr.flush ≠ .toBytes ∧ isAppend .flush = false ∧
      isConstructor .flush = false ∧ Instr.flush ≠ .finalize ∧
      flushing.rspPort = some (okRsp flushing.buf.length) ∧
      (exec (.appendBit 1) rawEmpty = .next { rawEmpty with buf := [true], rspPort := some ⟨0, 1⟩ } ∧
        isAppend (.appendBit 1) = true) := ⟨rfl, by decide, rfl, rfl, by decide, by decide, rfl, rfl⟩

/-- `final40` after the whole span of `FLUSH`. -/
def flushTaken : State :=
  { flushed40 with sink := [0x00, 0x00, 0x01, 0x67, 0xC0], responses := [⟨0, 40⟩], draw := 1 }

theorem step_flushTaken : step (withMoves final40 [.command 0x310000000000#48]) = .next flushTaken := rfl

/-- The host's plan is no part of the invariant. -/
theorem inv_withMoves (s : State) (ms : List HostMove) (h : s.Inv) : (withMoves s ms).Inv :=
  ⟨h.capLegal, h.lenLeCap, h.idleEmpty, h.framed, h.closed, h.faultBits, h.oneEmit, h.beatsBeforeResponse,
    h.pendingStatus, h.takenStatus⟩

theorem witness_EveryStepKeepsInvariant :
    (withMoves final40 [.command 0x310000000000#48]).Inv ∧
      step (withMoves final40 [.command 0x310000000000#48]) = .next flushTaken :=
  ⟨inv_withMoves _ _ inv_final40, step_flushTaken⟩

theorem witness_NoStepStopsUnderInvariant : (withMoves final40 [.command 0x310000000000#48]).Inv :=
  inv_withMoves _ _ inv_final40

theorem witness_OneResponsePerCommand :
    cmdReady (withMoves final40 [.command 0x310000000000#48]) = true ∧
      (withMoves final40 [.command 0x310000000000#48]).moves = .command 0x310000000000#48 :: [] ∧
      step (withMoves final40 [.command 0x310000000000#48]) = .next flushTaken := ⟨rfl, rfl, step_flushTaken⟩

theorem witness_SinkGrowsOnlyByWholeUnits :
    (withMoves final40 [.command 0x310000000000#48]).Inv ∧
      cmdReady (withMoves final40 [.command 0x310000000000#48]) = true ∧
      (withMoves final40 [.command 0x310000000000#48]).moves = .command 0x310000000000#48 :: [] ∧
      step (withMoves final40 [.command 0x310000000000#48]) = .next flushTaken ∧
      flushTaken.sink ≠ (withMoves final40 [.command 0x310000000000#48]).sink :=
  ⟨inv_withMoves _ _ inv_final40, rfl, rfl, step_flushTaken, by decide⟩

/-- A unit that fills the smallest buffer to its last bit: 40 bits of start code and header, 71 of payload, the stop bit. -/
def tight : State := { dead with cap := some 112 }
def tightPayload : List Instr := [.appendBits 64 1, .appendUe 0, .appendSe (-3), .appendBit 1]

theorem witness_FlushedUnitHasOutputFormat :
    cmdReady tight = true ∧ 3 < 4 ∧ 31 < 32 ∧ (∀ i ∈ tightPayload, legalAppend i = true ∧ i.wf = true) ∧
      (∀ c, tight.cap = some c → unitLen true tightPayload ≤ c) := by
  refine ⟨rfl, by decide, by decide, by decide, fun c hc => ?_⟩
  exact Option.some.inj hc ▸ by decide +kernel

/-- The state after `NAL_START sc=3, ref=3, type=7`, `APPEND_BIT 1` and a word that is no command, from reset. -/
def nalTaken : State :=
  { State.reset with
    phase := .opened
    buf := bytesBits [0x00, 0x00, 0x01, 0x67] ++ [true]
    faults := 0x080
    responses := [⟨0, 32⟩, ⟨0, 33⟩, ⟨7, 0⟩]
    draw := 3 }

theorem witness_UnitDependsOnItsCommandsOnly :
    cmdReady State.reset = true ∧ cmdReady dead = true ∧ State.reset.cap = dead.cap ∧ 3 < 4 ∧ 7 < 32 ∧
      steps ([0x100000000001#48, 0x000000000000#48].length + 1)
        (State.reset.withMoves (.command (encode (.nalStart false 3 7 false)) ::
          [0x100000000001#48, 0x000000000000#48].map HostMove.command)) = .next nalTaken :=
  ⟨rfl, rfl, rfl, by decide, by decide, rfl⟩

theorem witness_ExportsAreBounded :
    (spsSample.legal = true ∧ spsSample.unsupported = false) ∧ (ppsSample.legal = true ∧ ppsSample.unsupported = false) := by
  decide

theorem witness_LegalExportDeliversOneUnit :
    (spsSample.unsupported = false ∧ Driver.headerLegal spsSample.sc spsSample.ref spsSample.typ = true ∧
      { spsSample with spsId := -2147483648, profileIdc := 4294967295 }.codes.all Driver.FieldCode.carried = true) ∧
    (ppsSample.numSliceGroupsMinus1 = 0 ∧ Driver.headerLegal ppsSample.sc ppsSample.ref ppsSample.typ = true ∧
      { ppsSample with ppsId := -1, weightedBipredIdc := 4 }.codes.all Driver.FieldCode.carried = true) ∧
    (spsSample.legal = true ∧ spsSample.unsupported = false ∧ cmdReady flushed40 = true ∧
      ∀ c, flushed40.cap = some c → 512 ≤ c) ∧
    (ppsSample.legal = true ∧ ppsSample.unsupported = false ∧ cmdReady flushed40 = true ∧
      ∀ c, flushed40.cap = some c → 512 ≤ c) := by
  refine ⟨by decide, by decide, ⟨by decide, by decide, rfl, fun c hc => ?_⟩, by decide, by decide, rfl, fun c hc => ?_⟩ <;>
    exact Option.some.inj hc ▸ by decide

/-- The driver's run of `APPEND_BIT 2` and `FLUSH` on a bare emitter: stopped at the first. -/
def stopped : State := { rawEmpty with faults := 0x002, responses := [⟨1, 0⟩], draw := 1 }

theorem witness_FailedExportSendsNothing :
    cmdReady rawEmpty = true ∧ Instr.flush ∉ [Instr.appendBit 2] ∧
      Driver.drive ([Instr.appendBit 2] ++ [.flush]) rawEmpty = .next stopped ∧ Driver.lastOk stopped = false :=
  ⟨rfl, by decide, rfl, by decide⟩

theorem witness_SettersTakeDomainOrRefuse :
    (uDomain 8 0 ∧ uDomain 8 255 ∧ ¬ uDomain 8 256 ∧ ¬ uDomain 8 (-1)) ∧
      (ueDomain 0 ∧ ueDomain 2147483647 ∧ ¬ ueDomain 2147483648) ∧
      (seDomain (-2147483648) ∧ seDomain 2147483647 ∧ ¬ seDomain (-2147483649)) ∧
      (pixelDomain 16 ∧ pixelDomain 34359738368 ∧ ¬ pixelDomain 34359738384 ∧ ¬ pixelDomain 500 ∧ ¬ pixelDomain 0) ∧
      (∀ n : Int, mkRat 1 2 = n → ¬ seDomain n) ∧ uDomain 8 (25 * 10) ∧ ¬ uDomain 8 (26 * 10) := by
  refine ⟨?_, ?_, ?_, ?_, fun n h => ?_, ?_, ?_⟩
  case refine_5 => exact absurd (congrArg Rat.den h) (by simp only [Rat.den_intCast]; decide)
  all_goals simp [uDomain, ueDomain, seDomain, pixelDomain]

end Sys2Proof.Tests
end

/-! ### What a transfer and a step can do

The inversions of `execWord` and `step`, and what the effect of a successful command does to the fault mask and the buffer. -/

namespace Sys2Proof.Machine

open Sys2Proof.Spec

theorem andThen_eq_next {o : Result} {f : State → State} {t : State} (h : andThen o f = .next t) :
    ∃ u, o = .next u ∧ t = f u := by
  cases o with
  | next u => exact ⟨u, rfl, (Host.Outcome.next.inj h).symm⟩
  | fault r => cases h
  | refused r => cases h

/-- A transferred word that does not stop the machine succeeds with the effect of its command, or raises a cause of the block on
the old state. -/
theorem execWord_next {w : CmdWord} {s t : State} (h : execWord w s = .next t) :
    (∃ i u, decode w = .legal i ∧ Effect i s u ∧ t = u.responded) ∨
    (∃ c, c ≠ .unsupportedFeature ∧ t = s.raised c) := by
  obtain ⟨i, hi, he⟩ | ⟨-, he⟩ := execWord_cases w s
  · rw [he] at h
    obtain ⟨u, hu, hx⟩ | ⟨c, hc, -, hx⟩ | ⟨-, -, -, hx⟩ := exec_cases i s
    · exact .inl ⟨i, u, hi, hu, Host.Outcome.next.inj (h.symm.trans hx)⟩
    · exact .inr ⟨c, hc, Host.Outcome.next.inj (h.symm.trans hx)⟩
    · cases h.symm.trans hx
  · exact .inr ⟨.illegalCommand, by decide, Host.Outcome.next.inj (h.symm.trans he)⟩

/-- A reset edge, with or without a word on offer (70_reset_and_hazards.md R200, 60_exceptions.md R190). -/
theorem step_reset {s : State} {o : Option CmdWord} {rest : List HostMove} (h : s.moves = .reset o :: rest) :
    step s = .next (s.consume rest).hardReset := by
  simp [step, runMove, h]

/-- The inversion of a step: nothing happens, or a word is transferred (alone or as a whole span), or the host makes one of its
other moves. -/
theorem step_next {s t : State} (h : step s = .next t) :
    (t = s.tick ∧ (s.moves = [] ∨
      cmdReady s = false ∧ ∃ w rest, s.moves = .command w :: rest ∨ s.moves = .offer w :: rest)) ∨
    (∃ w rest u, cmdReady s = true ∧ execWord w (s.consume rest) = .next u ∧
      (s.moves = .command w :: rest ∧ t = u.deliver ∨ s.moves = .offer w :: rest ∧ t = u)) ∨
    (∃ rest, s.moves = .takeBeat :: rest ∧ t = (s.consume rest).takeBeat) ∨
    (∃ rest, s.moves = .takeResponse :: rest ∧ t = (s.consume rest).takeResponse) ∨
    (∃ o rest, s.moves = .reset o :: rest ∧ t = (s.consume rest).hardReset) := by
  unfold step runMove at h
  split at h
  case h_1 hm => exact .inl ⟨(Host.Outcome.next.inj h).symm, .inl hm⟩
  case h_2 w rest hm =>
    split at h
    · obtain ⟨u, hu, ht⟩ := andThen_eq_next h
      exact .inr (.inl ⟨w, rest, u, ‹_›, hu, .inl ⟨hm, ht⟩⟩)
    · exact .inl ⟨(Host.Outcome.next.inj h).symm, .inr ⟨Bool.eq_false_of_not_eq_true ‹_›, w, rest, .inl hm⟩⟩
  case h_3 w rest hm =>
    split at h
    · exact .inr (.inl ⟨w, rest, t, ‹_›, h, .inr ⟨hm, rfl⟩⟩)
    · exact .inl ⟨(Host.Outcome.next.inj h).symm, .inr ⟨Bool.eq_false_of_not_eq_true ‹_›, w, rest, .inr hm⟩⟩
  case h_4 rest hm => exact .inr (.inr (.inl ⟨rest, hm, (Host.Outcome.next.inj h).symm⟩))
  case h_5 rest hm => exact .inr (.inr (.inr (.inl ⟨rest, hm, (Host.Outcome.next.inj h).symm⟩)))
  case h_6 o rest hm => exact .inr (.inr (.inr (.inr ⟨o, rest, hm, (Host.Outcome.next.inj h).symm⟩)))

/-- A success touches no fault bit. -/
theorem Effect.faults_eq {i : Instr} {s u : State} (h : Effect i s u) : u.faults = s.faults := by
  cases i with
  | beNew => obtain rfl := h; rfl
  | nalStart => obtain ⟨-, rfl⟩ := h; rfl
  | appendBit => obtain ⟨-, -, -, rfl⟩ := h; rfl
  | appendBits => obtain ⟨-, -, -, -, rfl⟩ := h; rfl
  | appendUe => obtain ⟨-, -, -, rfl⟩ := h; rfl
  | appendSe => obtain ⟨-, -, rfl⟩ := h; rfl
  | bitLength => obtain ⟨-, rfl⟩ := h; rfl
  | toBytes => obtain ⟨-, -, rfl⟩ := h; rfl
  | finalize => obtain ⟨-, -, rfl⟩ := h; rfl
  | flush => obtain ⟨-, -, rfl⟩ := h; rfl

/-- A success of a command that is no constructor adds bits at the end of the buffer, or none (R15). -/
theorem Effect.buf_prefix {i : Instr} {s u : State} (h : Effect i s u) (hi : isConstructor i = false) :
    s.buf <+: u.buf := by
  cases i with
  | beNew => cases hi
  | nalStart => cases hi
  | appendBit => obtain ⟨-, -, -, rfl⟩ := h; exact List.prefix_append ..
  | appendBits => obtain ⟨-, -, -, -, rfl⟩ := h; exact List.prefix_append ..
  | appendUe => obtain ⟨-, -, -, rfl⟩ := h; exact List.prefix_append ..
  | appendSe => obtain ⟨-, -, rfl⟩ := h; exact List.prefix_append ..
  | bitLength => obtain ⟨-, rfl⟩ := h; exact List.prefix_rfl
  | toBytes => obtain ⟨-, -, rfl⟩ := h; exact List.prefix_rfl
  | finalize => obtain ⟨-, -, rfl⟩ := h; exact List.prefix_append ..
  | flush => obtain ⟨-, -, rfl⟩ := h; exact List.prefix_rfl

/-! ### The fault mask -/

theorem Cause.code_lt (c : Cause) : c.code < 9 := by
  cases c <;> decide

/-- Code 0 is no cause and code 3 is the host driver's own (60_exceptions.md R171, R174). -/
theorem Cause.code_ne {c : Cause} (h : c ≠ .unsupportedFeature) : c.code ≠ 0 ∧ c.code ≠ 3 := by
  revert h
  cases c <;> decide

@[simp] theorem getLsbD_setFault (f : BitVec 9) (c : Cause) (k : Nat) :
    (setFault f c).getLsbD k = (f.getLsbD k || decide (c.code = k)) := by
  simp [setFault, BitVec.getLsbD_twoPow, c.code_lt]

theorem faultResponse_status_toNat (c : Cause) : (faultResponse c).status.toNat = c.code := by
  cases c <;> rfl

/-- A transferred word leaves the mask alone, or sets the bit of one cause of the block. -/
theorem execWord_faults {w : CmdWord} {s t : State} (h : execWord w s = .next t) :
    t.faults = s.faults ∨ ∃ c, c ≠ .unsupportedFeature ∧ t.faults = setFault s.faults c := by
  obtain ⟨i, u, -, hu, rfl⟩ | ⟨c, hc, rfl⟩ := execWord_next h
  · exact .inl hu.faults_eq
  · exact .inr ⟨c, hc, rfl⟩

/-- Every step but a reset edge leaves the mask alone, or sets the bit of one cause of the block. -/
theorem step_faults {s t : State} (h : step s = .next t) (hr : ∀ o rest, s.moves ≠ .reset o :: rest) :
    t.faults = s.faults ∨ ∃ c, c ≠ .unsupportedFeature ∧ t.faults = setFault s.faults c := by
  obtain ⟨rfl, -⟩ | ⟨w, rest, u, -, hu, ⟨-, rfl⟩ | ⟨-, rfl⟩⟩ | ⟨rest, -, rfl⟩ | ⟨rest, -, rfl⟩ | ⟨o, rest, hm, -⟩ :=
    step_next h
  · exact .inl rfl
  · simpa using execWord_faults hu
  · simpa using execWord_faults hu
  · exact .inl (by simp)
  · exact .inl (by simp)
  · exact absurd hm (hr o rest)

/-- Sticky, and bits 0 and 3 untouched (R16). -/
theorem step_faults_sticky {s t : State} (h : step s = .next t) (hr : ∀ o rest, s.moves ≠ .reset o :: rest) :
    (∀ c, s.faults.getLsbD c = true → t.faults.getLsbD c = true) ∧
      t.faults.getLsbD 0 = s.faults.getLsbD 0 ∧ t.faults.getLsbD 3 = s.faults.getLsbD 3 := by
  obtain hf | ⟨c, hc, hf⟩ := step_faults h hr
  · simp [hf]
  · obtain ⟨h0, h3⟩ := Cause.code_ne hc
    rw [hf]
    refine ⟨fun k hk => ?_, ?_, ?_⟩ <;> rw [getLsbD_setFault]
    · rw [hk, Bool.true_or]
    · rw [decide_eq_false h0, Bool.or_false]
    · rw [decide_eq_false h3, Bool.or_false]

/-- No word reads the mask: with any other mask it adds the same bits and does the same otherwise (R16). -/
theorem execWord_faults_unread {w : CmdWord} {s t : State} (h : execWord w s = .next t) :
    ∃ d : BitVec 9, t.faults = s.faults ||| d ∧
      ∀ f : BitVec 9, execWord w { s with faults := f } = .next { t with faults := f ||| d } := by
  obtain ⟨_, _, d, _, _, _, rfl, hw⟩ := execWord_local w s t h
  exact ⟨d, rfl, fun f => hw { s with faults := f } ⟨rfl, rfl, rfl⟩⟩

/-- A response with a non-zero status is that of a raised cause. -/
theorem execWord_faulted {w : CmdWord} {s t : State} {r : Response} (h : execWord w s = .next t) (hr : t.rspPort = some r)
    (h0 : r.status ≠ 0) : ∃ c, c ≠ .unsupportedFeature ∧ t = s.raised c ∧ r = faultResponse c := by
  obtain ⟨i, u, -, -, rfl⟩ | ⟨c, hc, rfl⟩ := execWord_next h
  · exact absurd (Option.some.inj hr ▸ rfl) h0
  · exact ⟨c, hc, rfl, (Option.some.inj hr).symm⟩

/-- Settles O46: the parts are `step_faults_sticky`, `execWord_faults_unread` and `execWord_faulted`. -/
theorem faultMaskIsStickyAndUnread : Obligations.FaultMaskIsStickyAndUnread := by
  refine ⟨fun s t => step_faults_sticky, fun s t w => execWord_faults_unread, fun s t w r h hr h0 => ?_⟩
  obtain ⟨c, -, rfl, rfl⟩ := execWord_faulted h hr h0
  simp [faultResponse_status_toNat]

/-! ### The buffer -/

/-- Settles O47, by the inversion of the transfer: a success adds its bits at the end, a fault leaves the buffer. -/
theorem bufferGrowsOnlyAtItsEnd : Obligations.BufferGrowsOnlyAtItsEnd := by
  refine fun s t w h => ⟨fun hw => ?_, fun r hr h0 => ?_⟩
  · obtain ⟨i, u, hi, hu, rfl⟩ | ⟨c, -, rfl⟩ := execWord_next h
    · exact hu.buf_prefix (hw i hi)
    · exact List.prefix_rfl
  · obtain ⟨c, -, rfl, -⟩ := execWord_faulted h hr h0
    rfl

/-! ### Reset and the status outputs -/

/-- Settles O2: the next state is the reset one, with the host's move used up. -/
theorem resetEdgeGivesResetState : Obligations.ResetEdgeGivesResetState :=
  fun s _ rest h =>
    ⟨(s.consume rest).hardReset, step_reset h, rfl, rfl, rfl, rfl, rfl, rfl, rfl, rfl, rfl, rfl, rfl, rfl, rfl⟩

theorem Phase.live_iff (p : Phase) : p.live = true ↔ p ≠ .idle ∧ p ≠ .failed := by
  cases p <;> decide

/-- In the four live phases `st_len` is the length and `st_aligned` whether that is whole bytes (R17). -/
theorem status_of_live {s : State} (h : s.phase.live = true) :
    stLen s = lenWord s.len ∧ stAligned s = (s.len % 8 == 0) := by
  unfold stLen stAligned
  cases hp : s.phase with
  | idle => simp [hp, Phase.live] at h
  | failed => simp [hp, Phase.live] at h
  | raw => exact ⟨rfl, rfl⟩
  | opened => exact ⟨rfl, rfl⟩
  | finalized => exact ⟨rfl, rfl⟩
  | flushed => exact ⟨rfl, rfl⟩

theorem lenWord_of_lt {n : Nat} (h : n < 2 ^ 32) : lenWord n = BitVec.ofNat 32 n := if_pos h

/-- Settles O39: `st_phase` phase by phase, the two views of the length by `status_of_live`. -/
theorem statusOutputsShowTheState : Obligations.StatusOutputsShowTheState := by
  refine fun s => ⟨rfl, fun h => ?_, fun h => ?_, fun h => ?_, fun h => ?_, fun h => ?_, fun h => ?_, fun hi hf hl => ?_⟩
  case refine_1 => simp [stPhase, stLen, stAligned, h, Phase.code]
  case refine_7 =>
    obtain ⟨hlen, hal⟩ := status_of_live ((Phase.live_iff _).2 ⟨hi, hf⟩)
    exact ⟨hlen.trans (lenWord_of_lt hl), by simp [hal, State.len]⟩
  all_goals simp [stPhase, h, Phase.code]

end Sys2Proof.Machine

namespace Sys2Proof.Machine

open Sys2Proof.Spec

/-! ### Reading a bit sequence as a number (20_memory.md R31) -/

theorem natOfBits_lt (l : List Bit) : natOfBits l < 2 ^ l.length := by
  induction l with
  | nil => exact Nat.one_pos
  | cons b bs ih =>
    have hb : b.toNat * 2 ^ bs.length ≤ 1 * 2 ^ bs.length := Nat.mul_le_mul_right _ b.toNat_le
    rw [natOfBits, List.length_cons, pow_succ]
    omega

/-- The first bit of a sequence is the most significant bit of its number (20_memory.md R31). -/
theorem testBit_natOfBits {l : List Bit} {i : Nat} {x : Bit} (h : l[i]? = some x) :
    (natOfBits l).testBit (l.length - 1 - i) = x := by
  induction l generalizing i with
  | nil => simp at h
  | cons b bs ih =>
    rw [natOfBits, Nat.mul_comm, Nat.testBit_two_pow_mul_add _ (natOfBits_lt bs)]
    cases i with
    | zero =>
      obtain rfl : b = x := by simpa using h
      cases b <;> simp
    | succ i =>
      have h' : bs[i]? = some x := by simpa using h
      obtain ⟨hi, -⟩ := List.getElem?_eq_some_iff.1 h'
      rw [List.length_cons, show bs.length + 1 - 1 - (i + 1) = bs.length - 1 - i by omega, if_pos (by omega), ih h']

/-! ### The bytes of `pack` -/

theorem byteOf_toNat (b0 b1 b2 b3 b4 b5 b6 b7 : Bit) :
    (byteOf b0 b1 b2 b3 b4 b5 b6 b7).toNat = natOfBits [b0, b1, b2, b3, b4, b5, b6, b7] := by
  have hlt := natOfBits_lt [b0, b1, b2, b3, b4, b5, b6, b7]
  simp only [natOfBits, List.length_cons, List.length_nil] at hlt ⊢
  rw [byteOf, BitVec.toNat_ofNat, Nat.mod_eq_of_lt] <;> omega

/-- The first of the eight bits is the `0x80` bit (R31). -/
theorem byteOf_getLsbD {b0 b1 b2 b3 b4 b5 b6 b7 x : Bit} {i : Nat}
    (h : [b0, b1, b2, b3, b4, b5, b6, b7][i]? = some x) :
    (byteOf b0 b1 b2 b3 b4 b5 b6 b7).getLsbD (7 - i) = x := by
  rw [← BitVec.testBit_toNat, byteOf_toNat]
  exact testBit_natOfBits h

theorem packedByte_zero (b0 b1 b2 b3 b4 b5 b6 b7 : Bit) (r : List Bit) :
    packedByte (b0 :: b1 :: b2 :: b3 :: b4 :: b5 :: b6 :: b7 :: r) 0 = (byteOf b0 b1 b2 b3 b4 b5 b6 b7).toNat := by
  simp [byteOf_toNat, packedByte, natOfBits, List.range_succ]

theorem packedByte_succ (b0 b1 b2 b3 b4 b5 b6 b7 : Bit) (r : List Bit) (j : Nat) :
    packedByte (b0 :: b1 :: b2 :: b3 :: b4 :: b5 :: b6 :: b7 :: r) (j + 1) = packedByte r j := by
  simp [packedByte, Nat.mul_add, Nat.add_right_comm]

/-- Byte `j` of a packed buffer is the weighted sum of its eight bits (R35). -/
theorem pack_getElem?_toNat {l : List Bit} (hl : l.length % 8 = 0) (j : Nat) (b : Byte) (h : (pack l)[j]? = some b) :
    b.toNat = packedByte l j := by
  revert j
  refine byte_induction (P := fun l => ∀ j, (pack l)[j]? = some b → b.toNat = packedByte l j) ?_ ?_
    (l.length / 8) l (by omega)
  · simp
  · intro b0 b1 b2 b3 b4 b5 b6 b7 r ih j h
    rw [pack_cons8] at h
    cases j with
    | zero =>
      obtain rfl : byteOf b0 b1 b2 b3 b4 b5 b6 b7 = b := by simpa using h
      rw [packedByte_zero]
    | succ j => rw [packedByte_succ, ih j (by simpa using h)]

/-- Bit `i` of the buffer is bit `7 - (i mod 8)` of byte `i div 8` (R31). -/
theorem pack_getLsbD {l : List Bit} (hl : l.length % 8 = 0) (i : Nat) (x : Bit) (h : l[i]? = some x) :
    ((pack l)[i / 8]?.map fun b => b.getLsbD (7 - i % 8)) = some x := by
  revert i
  refine byte_induction
    (P := fun l => ∀ i, l[i]? = some x → ((pack l)[i / 8]?.map fun b => b.getLsbD (7 - i % 8)) = some x) ?_ ?_
    (l.length / 8) l (by omega)
  · simp
  · intro b0 b1 b2 b3 b4 b5 b6 b7 r ih i h
    rw [pack_cons8]
    obtain hi | hi := Nat.lt_or_ge i 8
    · have hx : [b0, b1, b2, b3, b4, b5, b6, b7][i]? = some x :=
        (List.getElem?_append_left (l₂ := r) hi).symm.trans h
      simp [Nat.div_eq_of_lt hi, Nat.mod_eq_of_lt hi, byteOf_getLsbD hx]
    · obtain ⟨k, rfl⟩ := Nat.exists_eq_add_of_le' hi
      rw [show (k + 8) / 8 = k / 8 + 1 by omega, Nat.add_mod_right, List.getElem?_cons_succ]
      exact ih k h

/-- Settles O32, by induction over whole bytes: `pack_getElem?_toNat` and `pack_getLsbD`. -/
theorem packIsMsbFirst : Obligations.PackIsMsbFirst :=
  ⟨pack_nil, fun l h => ⟨pack_length l h, pack_getElem?_toNat h, pack_getLsbD h⟩⟩

/-! ### Appending fields -/

theorem accepts_iff (s : State) : accepts s ↔ s.phase.acceptsBits = true := by
  unfold accepts
  cases s.phase <;> decide

theorem fits_iff_room (s : State) (k : Nat) : s.fits k = true ↔ room s k := fits_iff s k

@[simp] theorem accepts_appended (s : State) (bits : List Bit) : accepts (appended s bits) ↔ accepts s := Iff.rfl

@[simp] theorem room_appended (s : State) (bits : List Bit) (k : Nat) :
    room (appended s bits) k ↔ room s (bits.length + k) := by
  simp [room, appended, Nat.add_assoc]

theorem room_mono {s : State} {j k : Nat} (h : room s k) (hjk : j ≤ k) : room s j :=
  fun c hc => (Nat.add_le_add_left hjk _).trans (h c hc)

@[simp] theorem appended_appended (s : State) (xs ys : List Bit) :
    appended (appended s xs) ys = appended s (xs ++ ys) := by
  simp [appended, Nat.add_assoc]

/-- An append that fits adds its bits and responds; the phase stays (R33). -/
theorem appendRespond_of_room {s : State} {bits : List Bit} (h : room s bits.length) :
    appendRespond bits s.phase s = .next (appended s bits) := by
  rw [appendRespond_eq, if_pos ((fits_iff_room _ _).2 h)]
  simp [State.responded, appended, okResponse, okRsp, lenWord, State.len]

/-- `APPEND_BITS` in an accepting phase, with a value of the width and room for it (40_bit_append.md R83). -/
theorem exec_appendBits_of_room {s : State} {n raw : Nat} (ha : accepts s) (hraw : raw < 2 ^ n) (hr : room s n) :
    exec (.appendBits n raw) s = .next (appended s (bitsMsb raw n)) := by
  have hexec : exec (.appendBits n raw) s = appendRespond (bitsMsb raw n) s.phase s := by
    simp [exec, execAppendBits, (accepts_iff s).1 ha, Nat.not_le.2 hraw]
  rw [hexec, appendRespond_of_room (by simpa using hr)]

/-- Settles O17: by `bitsMsb_append` the two appends add the bits of the one, and two appends are one (`appended_appended`). -/
theorem splitFieldGivesSameBuffer : Obligations.SplitFieldGivesSameBuffer := by
  intro s a b v ha hv hr
  have hhigh : v / 2 ^ b < 2 ^ a := Nat.div_lt_of_lt_mul (by rwa [← pow_add, Nat.add_comm])
  have hlow : v % 2 ^ b < 2 ^ b := Nat.mod_lt _ (Nat.two_pow_pos b)
  refine ⟨_, _, _, exec_appendBits_of_room (n := a + b) ha hv hr,
    exec_appendBits_of_room ha hhigh (room_mono hr (Nat.le_add_right a b)),
    exec_appendBits_of_room (by simpa using ha) hlow (by simpa using hr), ?_⟩
  rw [appended_appended, bitsMsb_mod v b b le_rfl, ← bitsMsb_append]

end Sys2Proof.Machine

/-! ### The encoding: rows, opcodes and the decoder (30_encoding.md) -/

namespace Sys2Proof

/-! A command word is its three fields, also under a mask. -/

@[simp] theorem opField_and (w v : CmdWord) : opField (w &&& v) = opField w &&& opField v := BitVec.extractLsb'_and

@[simp] theorem auxField_and (w v : CmdWord) : auxField (w &&& v) = auxField w &&& auxField v := BitVec.extractLsb'_and

@[simp] theorem immField_and (w v : CmdWord) : immField (w &&& v) = immField w &&& immField v := BitVec.extractLsb'_and

theorem cmdWord_ext_iff (w v : CmdWord) :
    w = v ↔ opField w = opField v ∧ auxField w = auxField v ∧ immField w = immField v := by
  rw [← mkWord_inj, mkWord_fields, mkWord_fields]

/-! The four masks of R58 by their fields, and what a mask keeps of a field. -/

theorem wholeWordMask_eq : 0xFFFFFFFFFFFF#48 = mkWord 0xFF#8 0xFF#8 0xFFFFFFFF#32 := by decide

theorem nalStartMask_eq : 0xFF00FFFFFFFE#48 = mkWord 0xFF#8 0#8 0xFFFFFFFE#32 := by decide

theorem opAuxMask_eq : 0xFFFF00000000#48 = mkWord 0xFF#8 0xFF#8 0#32 := by decide

theorem opMask_eq : 0xFF0000000000#48 = mkWord 0xFF#8 0#8 0#32 := by decide

@[simp] theorem and_allOnes8 (x : BitVec 8) : x &&& 0xFF#8 = x := by
  rw [show 0xFF#8 = BitVec.allOnes 8 by decide, BitVec.and_allOnes]

@[simp] theorem and_allOnes32 (x : BitVec 32) : x &&& 0xFFFFFFFF#32 = x := by
  rw [show 0xFFFFFFFF#32 = BitVec.allOnes 32 by decide, BitVec.and_allOnes]

/-- The mask of `NAL_START` keeps every bit of `imm` but bit 0 (R57). -/
theorem and_nalStartImm (imm : BitVec 32) : imm &&& 0xFFFFFFFE#32 = imm.extractLsb' 1 31 ++ 0#1 := by
  have hsplit : imm.extractLsb' 1 31 ++ imm.extractLsb' 0 1 = imm := BitVec.extractLsb'_append_extractLsb' (w := 31)
  calc imm &&& 0xFFFFFFFE#32
    _ = (imm.extractLsb' 1 31 ++ imm.extractLsb' 0 1) &&& (BitVec.allOnes 31 ++ 0#1) := by
      rw [hsplit, show 0xFFFFFFFE#32 = BitVec.allOnes 31 ++ 0#1 by decide]
    _ = imm.extractLsb' 1 31 ++ 0#1 := by rw [BitVec.and_append, BitVec.and_allOnes, BitVec.and_zero]

/-- The reserved bits of `NAL_START`, as its mask names them and as the decoder reads them (R57). -/
@[simp] theorem and_nalStartImm_beq_zero (imm : BitVec 32) :
    (imm &&& 0xFFFFFFFE#32 == 0#32) = (imm.extractLsb' 1 31 == 0#31) := by
  rw [Bool.eq_iff_iff, beq_iff_eq, beq_iff_eq, and_nalStartImm]
  constructor
  · intro h
    rw [← BitVec.extractLsb'_append_eq_left (a := imm.extractLsb' 1 31) (b := 0#1), h, BitVec.extractLsb'_zero]
  · intro h
    rw [h]
    decide

/-! The rows of the opcode map. -/

theorem mem_opcodeMap_iff (r : OpRow) : r ∈ opcodeMap ↔ ∃ i : Instr, i.row = r := by
  constructor
  · intro h
    obtain ⟨i, -, hi⟩ := List.mem_map.1
      (show r ∈ [Instr.beNew, .nalStart false 0 0 false, .appendBit 0, .appendBits 0 0, .appendUe 0, .appendSe 0,
        .bitLength, .toBytes, .finalize, .flush].map Instr.row from h)
    exact ⟨i, hi⟩
  · rintro ⟨i, rfl⟩
    cases i <;> simp [opcodeMap, Instr.row]

/-- Every row masks the whole opcode and asks for its command's, with zeros in every other bit it masks (R58). -/
theorem Instr.row_fields (i : Instr) :
    opField i.row.mask = 0xFF#8 ∧ opField i.row.pattern = i.opcode ∧
      auxField i.row.pattern = 0 ∧ immField i.row.pattern = 0 := by
  cases i <;> simp [Instr.row, Instr.opcode, opField, auxField, immField]

/-- A word matches a command's row exactly when it has the command's opcode and zeros in the row's reserved bits. -/
theorem and_row_mask_eq_pattern_iff (w : CmdWord) (i : Instr) :
    w &&& i.row.mask = i.row.pattern ↔
      opField w = i.opcode ∧ auxField w &&& auxField i.row.mask = 0 ∧ immField w &&& immField i.row.mask = 0 := by
  obtain ⟨hmask, hop, haux, himm⟩ := i.row_fields
  rw [cmdWord_ext_iff, opField_and, auxField_and, immField_and, hmask, hop, haux, himm, and_allOnes8]

/-- What the decoder does with a known opcode: a command of its row if the row's reserved bits are zero (R57, R59). -/
theorem decodeFields_opcode (i : Instr) (aux : BitVec 8) (imm : BitVec 32) :
    ∃ j : Instr, j.row = i.row ∧ decodeFields i.opcode aux imm =
      needZero i.row.mnemonic (aux &&& auxField i.row.mask == 0 && imm &&& immField i.row.mask == 0) j := by
  cases i with
  | beNew => exact ⟨.beNew, rfl, by simp [decodeFields, Instr.opcode, Instr.row, wholeWordMask_eq]⟩
  | nalStart => exact ⟨decodeNalStart aux imm, rfl, by simp [decodeFields, Instr.opcode, Instr.row, nalStartMask_eq]⟩
  | appendBit => exact ⟨.appendBit imm.toNat, rfl, by simp [decodeFields, Instr.opcode, Instr.row, opAuxMask_eq]⟩
  | appendBits =>
    exact ⟨.appendBits aux.toInt imm.toNat, rfl, by simp [decodeFields, Instr.opcode, Instr.row, opMask_eq, needZero]⟩
  | appendUe => exact ⟨.appendUe imm.toInt, rfl, by simp [decodeFields, Instr.opcode, Instr.row, opAuxMask_eq]⟩
  | appendSe => exact ⟨.appendSe imm.toInt, rfl, by simp [decodeFields, Instr.opcode, Instr.row, opAuxMask_eq]⟩
  | bitLength => exact ⟨.bitLength, rfl, by simp [decodeFields, Instr.opcode, Instr.row, wholeWordMask_eq]⟩
  | toBytes => exact ⟨.toBytes, rfl, by simp [decodeFields, Instr.opcode, Instr.row, wholeWordMask_eq]⟩
  | finalize => exact ⟨.finalize, rfl, by simp [decodeFields, Instr.opcode, Instr.row, wholeWordMask_eq]⟩
  | flush => exact ⟨.flush, rfl, by simp [decodeFields, Instr.opcode, Instr.row, wholeWordMask_eq]⟩

/-- The mask and the decoder agree on what is a command of a row (R58). -/
theorem and_row_mask_eq_pattern_iff_decode (w : CmdWord) (i : Instr) :
    w &&& i.row.mask = i.row.pattern ↔ ∃ j, decode w = .legal j ∧ j.row = i.row := by
  constructor
  · intro h
    obtain ⟨hop, haux, himm⟩ := (and_row_mask_eq_pattern_iff w i).1 h
    obtain ⟨j, hrow, hdec⟩ := decodeFields_opcode i (auxField w) (immField w)
    rw [haux, himm] at hdec
    exact ⟨j, by rw [decode, hop, hdec]; rfl, hrow⟩
  · rintro ⟨j, hj, hrow⟩
    obtain ⟨hop, -⟩ := decodeFields_cases _ _ _ _ hj
    obtain ⟨k, -, hdec⟩ := decodeFields_opcode j (auxField w) (immField w)
    rw [decode, hop, hdec] at hj
    obtain ⟨hzero, -⟩ := needZero_legal _ _ _ _ hj
    rw [← hrow, and_row_mask_eq_pattern_iff]
    exact ⟨hop, by simpa using hzero⟩

/-- Settles O5: the rows as they stand, and `and_row_mask_eq_pattern_iff_decode` for each of them. -/
theorem wordIsCommandIffItMatchesRow : Obligations.WordIsCommandIffItMatchesRow := by
  refine ⟨rfl, fun i => (mem_opcodeMap_iff _).2 ⟨i, rfl⟩, fun w r hr => ?_⟩
  obtain ⟨i, rfl⟩ := (mem_opcodeMap_iff r).1 hr
  exact and_row_mask_eq_pattern_iff_decode w i

/-- Settles O4: the thirteen rows and the header byte are fixed words, so both directions compute. -/
theorem workedEncodingsDecode : Obligations.WorkedEncodingsDecode := by
  unfold Obligations.WorkedEncodingsDecode
  decide

end Sys2Proof

namespace Sys2Proof.Machine

open Sys2Proof.Spec

/-! ### Words that match no row -/

theorem decode_ne_legal_of_unmatched {w : CmdWord} (h : ∀ r ∈ opcodeMap, w &&& r.mask ≠ r.pattern) (i : Instr) :
    decode w ≠ .legal i :=
  fun hi => h i.row ((mem_opcodeMap_iff _).2 ⟨i, rfl⟩) ((and_row_mask_eq_pattern_iff_decode w i).2 ⟨i, hi, rfl⟩)

/-- The span of a word that is no command, from a ready state: no beat, one response, and the fault's bit (R60). -/
theorem step_command_of_not_legal {s : State} {w : CmdWord} {rest : List HostMove} (hready : cmdReady s = true)
    (hmoves : s.moves = .command w :: rest) (hw : ∀ i, decode w ≠ .legal i) :
    step s = .next { s with
      moves := rest, draw := s.draw + 1, faults := setFault s.faults .illegalCommand,
      responses := s.responses ++ [faultResponse .illegalCommand] } := by
  obtain ⟨hrsp, hbeats⟩ := (cmdReady_iff s).1 hready
  obtain ⟨i, hi, -⟩ | ⟨-, hexec⟩ := execWord_cases w (s.consume rest)
  · exact absurd hi (hw i)
  have hstep : step s = .next ((s.consume rest).raised .illegalCommand).deliver := by
    simp [step, runMove, hmoves, hready, hexec, andThen]
  rw [hstep, deliver_no_beats _ _ (by simpa using hbeats) (State.raised_rspPort ..)]
  simp [State.raised, State.consume, Cause.fatal, hrsp]

/-- The bits R57 marks "must be 0" are the operand bits in the mask of the opcode's row. -/
theorem mustBeZero_opcode (i : Instr) :
    mustBeZero i.opcode = some (mkWord 0 (auxField i.row.mask) (immField i.row.mask)) := by
  cases i <;> simp only [Instr.opcode, Instr.row] <;> decide

theorem exists_opcode_of_mustBeZero {op : BitVec 8} {m : CmdWord} (h : mustBeZero op = some m) :
    ∃ i : Instr, i.opcode = op := by
  unfold mustBeZero at h
  split at h
  case isTrue hop =>
    obtain rfl | rfl | rfl | rfl | rfl := hop
    exacts [⟨.beNew, rfl⟩, ⟨.bitLength, rfl⟩, ⟨.toBytes, rfl⟩, ⟨.finalize, rfl⟩, ⟨.flush, rfl⟩]
  split at h
  case isTrue hop => exact ⟨.nalStart false 0 0 false, hop.symm⟩
  split at h
  case isTrue hop =>
    obtain rfl | rfl | rfl := hop
    exacts [⟨.appendBit 0, rfl⟩, ⟨.appendUe 0, rfl⟩, ⟨.appendSe 0, rfl⟩]
  split at h
  case isTrue hop => exact ⟨.appendBits 0 0, hop.symm⟩
  cases h

/-- A word with a command's opcode matches the command's row exactly when its "must be 0" bits are 0 (R59). -/
theorem and_row_mask_eq_pattern_iff_reserved (w : CmdWord) (i : Instr) :
    w &&& i.row.mask = i.row.pattern ↔
      opField w = i.opcode ∧ w &&& mkWord 0 (auxField i.row.mask) (immField i.row.mask) = 0 := by
  have hzero : (0 : CmdWord) = mkWord 0 0 0 := by decide
  rw [and_row_mask_eq_pattern_iff, cmdWord_ext_iff (w &&& _), hzero]
  simp

theorem unmatched_iff_reserved (w : CmdWord) :
    (∀ r ∈ opcodeMap, w &&& r.mask ≠ r.pattern) ↔ ∀ m, mustBeZero (opField w) = some m → w &&& m ≠ 0 := by
  constructor
  · intro h m hm hzero
    obtain ⟨i, hi⟩ := exists_opcode_of_mustBeZero hm
    obtain rfl := Option.some.inj ((mustBeZero_opcode i).symm.trans (hi ▸ hm))
    exact h i.row ((mem_opcodeMap_iff _).2 ⟨i, rfl⟩) ((and_row_mask_eq_pattern_iff_reserved w i).2 ⟨hi.symm, hzero⟩)
  · intro h r hr hmatch
    obtain ⟨i, rfl⟩ := (mem_opcodeMap_iff r).1 hr
    obtain ⟨hop, hzero⟩ := (and_row_mask_eq_pattern_iff_reserved w i).1 hmatch
    exact h _ (hop ▸ mustBeZero_opcode i) hzero

/-- Settles O6: such a word decodes to no command (`step_command_of_not_legal`), and its opcode or its reserved bits say so
(`unmatched_iff_reserved`). -/
theorem unmatchedWordIsIllegalCommand : Obligations.UnmatchedWordIsIllegalCommand :=
  ⟨fun _ _ _ hready hmoves hw => step_command_of_not_legal hready hmoves (decode_ne_legal_of_unmatched hw),
    unmatched_iff_reserved, by decide⟩

end Sys2Proof.Machine

/-! ### The fixed-width appends (40_bit_append.md) -/

namespace Sys2Proof

/-- The operands of a decoded `APPEND_BITS` are its `aux` sign-extended and its `imm` zero-extended (R57, R61). -/
theorem decode_eq_appendBits {w : CmdWord} {n : Int} {raw : Nat} (h : decode w = .legal (.appendBits n raw)) :
    n = (auxField w).toInt ∧ raw = (immField w).toNat := by
  obtain ⟨-, hfields⟩ := decodeFields_cases _ _ _ _ h
  simpa [decodeNalStart] using hfields

/-- No word carries a value of 2^32 or more or a width above 127 (30_encoding.md R63). -/
theorem appendBits_operands_bounded {w : CmdWord} {n : Int} {raw : Nat} (h : decode w = .legal (.appendBits n raw)) :
    raw < 2 ^ 32 ∧ n ≤ 127 := by
  obtain ⟨rfl, rfl⟩ := decode_eq_appendBits h
  have hn : (auxField w).toInt < 2 ^ 7 := BitVec.toInt_lt
  exact ⟨(immField w).isLt, by omega⟩

end Sys2Proof

namespace Sys2Proof.Machine

open Sys2Proof.Spec

/-- An opcode whose command asks for reserved zeros has the words where they are zero (30_encoding.md R57, R59). -/
theorem encodedAs_of_needZero {op : BitVec 8} {m : String} {zero : BitVec 8 → BitVec 32 → Bool}
    {legal : BitVec 8 → BitVec 32 → Prop} {i : BitVec 8 → BitVec 32 → Instr}
    (hdec : ∀ aux imm, decodeFields op aux imm = needZero m (zero aux imm) (i aux imm))
    (hzero : ∀ aux imm, zero aux imm = true ↔ legal aux imm) : encodedAs op legal i := by
  intro aux imm
  have hword : decode (op ++ aux ++ imm) = needZero m (zero aux imm) (i aux imm) :=
    (decode_mkWord op aux imm).trans (hdec aux imm)
  rw [hword, ← hzero]
  exact ⟨fun hz => if_pos hz, fun hz j hj => hz (needZero_legal _ _ _ _ hj).1⟩

/-- Raising a cause is the fault with its code (60_exceptions.md R175, R178). -/
theorem raise_eq_faulted (c : Cause) (s : State) : raise c s = .next (faulted s c.code) := by
  cases c <;> rfl

theorem appended_ne_faulted_one (s : State) (bits : List Bit) : appended s bits ≠ faulted s 1 := by
  intro h
  have hrsp : some (okRsp (s.buf.length + bits.length)) = some ⟨1, 0⟩ := congrArg State.rspPort h
  simp [okRsp] at hrsp

/-- An append that does not fit appends nothing (20_memory.md R33). -/
theorem appendRespond_of_not_room {s : State} {bits : List Bit} (p : Phase) (h : ¬ room s bits.length) :
    appendRespond bits p s = .next (faulted s 8) := by
  rw [appendRespond, if_neg (mt (fits_iff_room _ _).1 h), raise_eq_faulted, Cause.code]

/-- A value is zero-extended to any width above one it fits (R84). -/
theorem bitsMsb_zero_extend {x m n : Nat} (hx : x < 2 ^ m) (hmn : m ≤ n) :
    bitsMsb x n = zeros (n - m) ++ bitsMsb x m := by
  rw [← bitsMsb_zero_left, ← Nat.div_eq_of_lt hx, ← bitsMsb_append, Nat.sub_add_cancel hmn]

theorem bitsMsb_width_one {b : Nat} (hb : b ≤ 1) : bitsMsb b 1 = [decide (b = 1)] := by
  simp [bitsMsb_succ, Nat.mod_eq_of_lt (Nat.lt_succ_of_le hb)]

/-! `APPEND_BITS`, check by check (R83). -/

theorem exec_appendBits_of_not_accepts {s : State} (n : Int) (raw : Nat) (ha : ¬ accepts s) :
    exec (.appendBits n raw) s = .next (faulted s 4) := by
  simp [exec, execAppendBits, mt (accepts_iff s).2 ha, raise_eq_faulted, Cause.code]

theorem exec_appendBits_of_misfit {s : State} {n : Int} {raw : Nat} (ha : accepts s) (h : n < 0 ∨ 2 ^ n.toNat ≤ raw) :
    exec (.appendBits n raw) s = .next (faulted s 1) := by
  have hexec : exec (.appendBits n raw) s = raise .invalidWidth s := by
    obtain hn | hraw := h
    · simp [exec, execAppendBits, (accepts_iff s).1 ha, hn]
    · simp [exec, execAppendBits, (accepts_iff s).1 ha, hraw]
  rw [hexec, raise_eq_faulted, Cause.code]

theorem exec_appendBits_of_not_room {s : State} {n raw : Nat} (ha : accepts s) (hraw : raw < 2 ^ n) (hr : ¬ room s n) :
    exec (.appendBits n raw) s = .next (faulted s 8) := by
  have hexec : exec (.appendBits n raw) s = appendRespond (bitsMsb raw n) s.phase s := by
    simp [exec, execAppendBits, (accepts_iff s).1 ha, Nat.not_le.2 hraw]
  rw [hexec, appendRespond_of_not_room s.phase (by simpa using hr)]

/-- With room, a field is appended exactly when its value is below `2^n`: otherwise the response is a fault (R83, R84). -/
theorem lt_two_pow_iff_exec_appendBits {s : State} (n raw : Nat) (ha : accepts s) (hr : room s n) :
    raw < 2 ^ n ↔ exec (.appendBits n raw) s = .next (appended s (bitsMsb raw n)) := by
  refine ⟨fun hraw => exec_appendBits_of_room ha hraw hr, fun h => ?_⟩
  by_contra hraw
  rw [exec_appendBits_of_misfit ha (.inr (Nat.not_lt.1 hraw))] at h
  injection h with h
  exact appended_ne_faulted_one s _ h.symm

/-- Settles O15: a value below `2^32` is below `2^n`, and its field is zero-extended (`bitsMsb_zero_extend`). -/
theorem wideFieldIsZeroExtended : Obligations.WideFieldIsZeroExtended := by
  refine ⟨fun s => lt_two_pow_iff_exec_appendBits, fun s n raw hn hraw => ?_, fun w n raw => appendBits_operands_bounded⟩
  have hfit : raw < 2 ^ n := hraw.trans_le (Nat.pow_le_pow_right Nat.two_pos hn)
  refine ⟨hfit, fun ha hr => ?_⟩
  rw [exec_appendBits_of_room ha hfit hr, bitsMsb_zero_extend hraw hn]

/-- Settles O16: `1 < b` is the misfit of `b` in one bit, and else the one bit is the field. -/
theorem appendBitIsAppendBitsOfWidthOne : Obligations.AppendBitIsAppendBitsOfWidthOne := by
  intro s b
  obtain hb | hb := Nat.lt_or_ge 1 b
  · simp [exec, execAppendBit, execAppendBits, hb, Nat.succ_le_of_lt hb]
  · simp [exec, execAppendBit, execAppendBits, Nat.not_lt.2 hb, bitsMsb_width_one hb,
      Nat.not_le.2 (Nat.lt_succ_of_le hb)]

/-- Settles O13: the checks are the lemmas above, a width `n ≥ 0` being a natural number. -/
theorem appendBitsAppendsField : Obligations.AppendBitsAppendsField := by
  refine ⟨encodedAs_of_needZero (m := "APPEND_BITS") (zero := fun _ _ => true) (fun _ _ => rfl) (by simp),
    fun s n raw => ⟨exec_appendBits_of_not_accepts n raw, exec_appendBits_of_misfit,
      fun ha hn hraw hr => ?_, fun ha hn hraw hr => ?_⟩⟩
  · lift n to Nat using hn
    exact exec_appendBits_of_not_room ha hraw hr
  · lift n to Nat using hn
    exact exec_appendBits_of_room ha hraw hr

/-- Settles O12: by O16 these are the checks of `APPEND_BITS` with width 1. -/
theorem appendBitAppendsOneBit : Obligations.AppendBitAppendsOneBit := by
  refine ⟨encodedAs_of_needZero (m := "APPEND_BIT") (zero := fun aux _ => aux == 0) (fun _ _ => rfl) (by simp),
    fun s b => ?_⟩
  rw [appendBitIsAppendBitsOfWidthOne s b]
  refine ⟨exec_appendBits_of_not_accepts 1 b, fun ha hb => exec_appendBits_of_misfit ha (.inr hb),
    fun ha hb hr => exec_appendBits_of_not_room (n := 1) ha (Nat.lt_succ_of_le hb) hr, fun ha hb hr => ?_⟩
  rw [← bitsMsb_width_one hb]
  exact exec_appendBits_of_room (n := 1) ha (Nat.lt_succ_of_le hb) hr

end Sys2Proof.Machine

/-! ### The Exp-Golomb code and its appends (41_exp_golomb.md) -/

namespace Sys2Proof.Machine

open Sys2Proof.Spec

/-! The code and the decoder. -/

/-- The suffix of the code is below `2^k`, and is the low `k` bits of `c + 1` (R91). -/
theorem ueSuffix_lt (c : Nat) : c + 1 - 2 ^ floorLog2 (c + 1) < 2 ^ floorLog2 (c + 1) := by
  obtain ⟨hle, hlt⟩ := floorLog2_spec (c + 1) c.succ_ne_zero
  rw [pow_succ] at hlt
  omega

/-- The form that needs no subtraction: the 1 of the code is the top bit of `c + 1` (R93). -/
theorem ueCode_eq_zeros_append_bitsMsb (c : Nat) :
    ueCode c = zeros (floorLog2 (c + 1)) ++ bitsMsb (c + 1) (floorLog2 (c + 1) + 1) := by
  obtain ⟨hle, hlt⟩ := floorLog2_spec (c + 1) c.succ_ne_zero
  have htop : (c + 1) / 2 ^ floorLog2 (c + 1) = 1 :=
    Nat.div_eq_of_lt_le (by rwa [Nat.one_mul]) (by rwa [pow_succ'] at hlt)
  have hlow : c + 1 - 2 ^ floorLog2 (c + 1) = (c + 1) % 2 ^ floorLog2 (c + 1) := by
    rw [Nat.mod_eq_sub_mod hle, Nat.mod_eq_of_lt (ueSuffix_lt c)]
  rw [ueCode, bitsMsb_succ, htop, hlow, bitsMsb_mod _ _ _ le_rfl]
  rfl

theorem splitZeros_zeros_append (k : Nat) (r : List Bit) : splitZeros (zeros k ++ true :: r) = some (k, r) := by
  induction k with
  | zero => rfl
  | succ k ih => simp [zeros_succ, splitZeros, ih]

/-- The decoder on any code of `k` zeros, a 1 and a `k`-bit suffix, followed by any bits (R98). -/
theorem ueDecode_zeros_append {k x : Nat} (hx : x < 2 ^ k) (r : List Bit) :
    ueDecode (zeros k ++ true :: (bitsMsb x k ++ r)) = some (2 ^ k - 1 + x, r) := by
  have hlen : ¬ (bitsMsb x k ++ r).length < k := by simp
  have htake : (bitsMsb x k ++ r).take k = bitsMsb x k := List.take_left' (bitsMsb_length x k)
  have hdrop : (bitsMsb x k ++ r).drop k = r := List.drop_left' (bitsMsb_length x k)
  simp only [ueDecode, splitZeros_zeros_append, if_neg hlen, htake, hdrop, natOfBits_bitsMsb, Nat.mod_eq_of_lt hx]

/-- A code followed by any bits decodes to its codeNum and leaves those bits (R98). -/
theorem ueDecode_ueCode_append (c : Nat) (r : List Bit) : ueDecode (ueCode c ++ r) = some (c, r) := by
  obtain ⟨hle, -⟩ := floorLog2_spec (c + 1) c.succ_ne_zero
  have hval : 2 ^ floorLog2 (c + 1) - 1 + (c + 1 - 2 ^ floorLog2 (c + 1)) = c := by
    have hpos := Nat.two_pow_pos (floorLog2 (c + 1))
    omega
  rw [ueCode, List.append_assoc, List.cons_append, ueDecode_zeros_append (ueSuffix_lt c), hval]

/-- Equal codes followed by any bits have the same codeNum: the decoder reads it back. -/
theorem eq_of_ueCode_append_eq {c₁ c₂ : Nat} {r₁ r₂ : List Bit} (h : ueCode c₁ ++ r₁ = ueCode c₂ ++ r₂) : c₁ = c₂ := by
  have hdec := congrArg ueDecode h
  rw [ueDecode_ueCode_append, ueDecode_ueCode_append] at hdec
  injection hdec with hpair
  exact congrArg Prod.fst hpair

theorem eq_of_ueCode_prefix {c₁ c₂ : Nat} (h : ueCode c₁ <+: ueCode c₂) : c₁ = c₂ := by
  obtain ⟨r, hr⟩ := h
  exact eq_of_ueCode_append_eq (hr.trans (List.append_nil _).symm)

/-! The signed mapping. -/

theorem seMap_of_nonpos {v : Int} (h : v ≤ 0) : seMap v = 2 * v.natAbs := if_pos h

theorem seMap_of_pos {v : Int} (h : 0 < v) : (seMap v : Int) = 2 * v - 1 := by
  rw [seMap, if_neg (Int.not_le.2 h), Int.toNat_of_nonneg (by omega)]

theorem seUnmap_odd (m : Nat) : seUnmap (2 * m + 1) = m + 1 := by
  rw [seUnmap, if_pos (by omega)]
  omega

theorem seUnmap_even (m : Nat) : seUnmap (2 * m) = -m := by
  rw [seUnmap, if_neg (by omega)]
  omega

/-- Positive values take the odd codeNums, the others the even ones (R97). -/
theorem pos_iff_seMap_odd (v : Int) : 0 < v ↔ seMap v % 2 = 1 := by
  obtain h | h := lt_or_ge 0 v
  · have := seMap_of_pos h
    omega
  · have := seMap_of_nonpos h
    omega

theorem seUnmap_seMap (v : Int) : seUnmap (seMap v) = v := by
  obtain h | h := lt_or_ge 0 v
  · have hodd : seMap v = 2 * (v.toNat - 1) + 1 := by
      have := seMap_of_pos h
      omega
    rw [hodd, seUnmap_odd]
    omega
  · rw [seMap_of_nonpos h, seUnmap_even]
    omega

theorem seMap_seUnmap (c : Nat) : seMap (seUnmap c) = c := by
  obtain ⟨m, rfl | rfl⟩ := Nat.even_or_odd' c
  · rw [seUnmap_even, seMap_of_nonpos (by omega)]
    omega
  · have := seMap_of_pos (v := m + 1) (by omega)
    rw [seUnmap_odd]
    omega

/-- Settles O21: `ueDecode_ueCode_append`, and `seUnmap_seMap` on the codeNum it gives. -/
theorem expGolombRoundTrip : Obligations.ExpGolombRoundTrip := by
  refine ⟨ueDecode_ueCode_append, fun v r => ?_⟩
  rw [ueDecode_ueCode_append, Option.map_some, seUnmap_seMap]

/-- Settles O20, with `k` the logarithm that `floorLog2_spec` bounds from both sides. -/
theorem ueCodeIsZerosOneSuffix : Obligations.UeCodeIsZerosOneSuffix := by
  intro c
  obtain ⟨hle, hlt⟩ := floorLog2_spec (c + 1) c.succ_ne_zero
  exact ⟨_, rfl, hle, hlt, ueSuffix_lt c, by rw [List.append_assoc]; rfl, ueCode_length c,
    ueCode_eq_zeros_append_bitsMsb c⟩

/-- Settles O22: a code decodes the same whatever follows it, so it begins no other (`eq_of_ueCode_prefix`), and `seUnmap`
gives the signed operand back. -/
theorem expGolombIsPrefixFree : Obligations.ExpGolombIsPrefixFree := by
  refine ⟨fun c₁ c₂ hne hpre => hne (eq_of_ueCode_prefix hpre), fun v₁ v₂ h => ?_⟩
  have hmap : seMap v₁ = seMap v₂ := eq_of_ueCode_prefix (h ▸ List.prefix_rfl)
  exact Function.LeftInverse.injective seUnmap_seMap hmap

/-- Settles O23: the two cases of the rule, its inverse on both sides, and the table evaluated. -/
theorem signedMappingIsBijection : Obligations.SignedMappingIsBijection :=
  ⟨fun v h => by rw [seMap_of_nonpos h, Nat.cast_mul]; rfl, fun v => seMap_of_pos, seUnmap_seMap, seMap_seUnmap,
    pos_iff_seMap_odd, by decide, by decide⟩

/-! `APPEND_UE` and `APPEND_SE`, check by check (R92, R96). -/

theorem exec_appendUe_of_not_accepts {s : State} (v : Int) (ha : ¬ accepts s) :
    exec (.appendUe v) s = .next (faulted s 4) := by
  simp [exec, execAppendUe, mt (accepts_iff s).2 ha, raise_eq_faulted, Cause.code]

theorem exec_appendUe_of_neg {s : State} {v : Int} (ha : accepts s) (hv : v < 0) :
    exec (.appendUe v) s = .next (faulted s 2) := by
  simp [exec, execAppendUe, (accepts_iff s).1 ha, hv, raise_eq_faulted, Cause.code]

/-- In an accepting phase `APPEND_UE` of a legal operand is the append of its code. -/
theorem exec_appendUe_of_nonneg {s : State} {v : Int} (ha : accepts s) (hv : 0 ≤ v) :
    exec (.appendUe v) s = appendRespond (ueCode v.toNat) s.phase s := by
  simp [exec, execAppendUe, (accepts_iff s).1 ha, Int.not_lt.2 hv]

theorem exec_appendSe_of_not_accepts {s : State} (v : Int) (ha : ¬ accepts s) :
    exec (.appendSe v) s = .next (faulted s 4) := by
  simp [exec, execAppendSe, mt (accepts_iff s).2 ha, raise_eq_faulted, Cause.code]

/-- In an accepting phase `APPEND_SE` of any operand is the append of the code of its codeNum. -/
theorem exec_appendSe_of_accepts {s : State} (v : Int) (ha : accepts s) :
    exec (.appendSe v) s = appendRespond (ueCode (seMap v)) s.phase s := by
  simp [exec, execAppendSe, (accepts_iff s).1 ha]

/-- Settles O18: the checks are the lemmas above, and the room asked for is the length of the code (`ueCode_length`). -/
theorem appendUeAppendsCode : Obligations.AppendUeAppendsCode := by
  refine ⟨encodedAs_of_needZero (m := "APPEND_UE") (zero := fun aux _ => aux == 0) (fun _ _ => rfl) (by simp),
    fun s v => ⟨exec_appendUe_of_not_accepts v, exec_appendUe_of_neg, fun ha hv hr => ?_, fun ha hv hr => ?_⟩⟩
  · rw [← ueCode_length] at hr
    rw [exec_appendUe_of_nonneg ha hv, appendRespond_of_not_room s.phase hr]
  · rw [← ueCode_length] at hr
    rw [exec_appendUe_of_nonneg ha hv, appendRespond_of_room hr]

/-- Settles O19: past the phase check only the capacity can refuse (`exec_appendSe_of_accepts`). -/
theorem appendSeAppendsCode : Obligations.AppendSeAppendsCode := by
  refine ⟨encodedAs_of_needZero (m := "APPEND_SE") (zero := fun aux _ => aux == 0) (fun _ _ => rfl) (by simp),
    fun s v => ⟨exec_appendSe_of_not_accepts v, fun ha hr => ?_, fun ha hr => ?_⟩⟩
  · rw [exec_appendSe_of_accepts v ha, appendRespond_of_not_room s.phase hr]
  · rw [exec_appendSe_of_accepts v ha, appendRespond_of_room hr]

/-! The length law and the ranges of the arithmetic (R100, R101). -/

/-- The append of a code with room for it grows the buffer by the length of the code, an odd number (R100). -/
theorem appendRespond_ueCode_length {s : State} {c : Nat} (hr : room s (2 * floorLog2 (c + 1) + 1)) :
    ∃ t, appendRespond (ueCode c) s.phase s = .next t ∧
      t.buf.length = s.buf.length + (2 * floorLog2 (c + 1) + 1) ∧ (t.buf.length - s.buf.length) % 2 = 1 := by
  have hlen : (appended s (ueCode c)).buf.length = s.buf.length + (2 * floorLog2 (c + 1) + 1) := by
    rw [← ueCode_length]
    exact List.length_append
  rw [← ueCode_length] at hr
  exact ⟨_, appendRespond_of_room hr, hlen, by omega⟩

/-- A codeNum below `2^(k+1) - 1` has a logarithm of at most `k` and a code of at most `2k + 1` bits. -/
theorem ueCode_bounds {c k : Nat} (h : c + 1 < 2 ^ (k + 1)) :
    floorLog2 (c + 1) ≤ k ∧ (ueCode c).length ≤ 2 * k + 1 := by
  have hk : floorLog2 (c + 1) ≤ k := Nat.le_of_lt_succ (floorLog2_lt _ _ c.succ_ne_zero h)
  exact ⟨hk, by rw [ueCode_length]; omega⟩

/-- The codeNum of a signed operand is at most twice its magnitude (R101). -/
theorem seMap_le (v : Int) : seMap v ≤ 2 * v.natAbs := by
  obtain h | h := lt_or_ge 0 v
  · have := seMap_of_pos h
    omega
  · exact (seMap_of_nonpos h).le

/-- Settles O24: both commands append a code (`appendRespond_ueCode_length`), and the codeNums of the operands a word carries
are below `2^31` and at most `2^32` (`ueCode_bounds`). -/
theorem expGolombLengthLaw : Obligations.ExpGolombLengthLaw := by
  refine ⟨fun s v ha hv hr => ?_, fun s v ha hr => ?_, fun v hv hlt => ?_, fun v hge hlt => ?_⟩
  · rw [exec_appendUe_of_nonneg ha hv]
    exact appendRespond_ueCode_length hr
  · rw [exec_appendSe_of_accepts v ha]
    exact appendRespond_ueCode_length hr
  · have hc : v.toNat + 1 ≤ 2 ^ 31 := by omega
    exact ⟨hc, ueCode_bounds (k := 31) (by omega)⟩
  · have habs : v.natAbs ≤ 2 ^ 31 := by omega
    have hc : seMap v ≤ 2 ^ 32 := (seMap_le v).trans (by omega)
    exact ⟨habs, hc, Nat.succ_le_succ hc, ueCode_bounds (k := 32) (by omega)⟩

end Sys2Proof.Machine

/-! ### The bare emitter (42_emitter_query.md) -/

namespace Sys2Proof.Machine

open Sys2Proof.Spec

/-- A command without operands: every bit below its opcode must be 0 (30_encoding.md R57, R59). -/
theorem encodedAs_of_no_operands {op : BitVec 8} {m : String} {i : Instr}
    (hdec : ∀ aux imm, decodeFields op aux imm = needZero m (aux == 0 && imm == 0) i) :
    encodedAs op (fun aux imm => aux = 0 ∧ imm = 0) (fun _ _ => i) :=
  encodedAs_of_needZero hdec (by simp)

theorem okResponse_eq_okRsp (n : Nat) : okResponse n = okRsp n := rfl

theorem okRsp_zero : okRsp 0 = ⟨0, 0⟩ := rfl

theorem exec_beNew (s : State) : exec .beNew s = .next (State.responded { s with buf := [], phase := .raw }) := rfl

theorem exec_bitLength_of_live {s : State} (h : s.phase.live = true) : exec .bitLength s = .next s.responded :=
  if_pos h

theorem exec_bitLength_of_not_live {s : State} (h : ¬ s.phase.live = true) : exec .bitLength s = .next (faulted s 4) :=
  (if_neg h).trans (raise_eq_faulted .invalidState s)

/-- Settles O9: the new buffer is empty, so the length answered is 0. -/
theorem beNewCreatesEmptyEmitter : Obligations.BeNewCreatesEmptyEmitter := by
  refine ⟨encodedAs_of_no_operands (m := "BE_NEW") fun _ _ => rfl, fun s => ?_⟩
  rw [exec_beNew, State.responded, okResponse_eq_okRsp, State.len, List.length_nil, okRsp_zero]

/-- Settles O25: the two cases are a live phase and one that is not (`Phase.live_iff`). -/
theorem bitLengthReportsLength : Obligations.BitLengthReportsLength := by
  refine ⟨encodedAs_of_no_operands (m := "BIT_LENGTH") fun _ _ => rfl, fun s => ⟨fun h => ?_, fun hi hf => ?_⟩⟩
  · refine exec_bitLength_of_not_live fun hlive => ?_
    obtain ⟨hi, hf⟩ := (Phase.live_iff _).1 hlive
    exact h.elim hi hf
  · rw [exec_bitLength_of_live ((Phase.live_iff _).2 ⟨hi, hf⟩), State.responded, okResponse_eq_okRsp, State.len]

/-! What a whole span answers (30_encoding.md R51, R55). -/

/-- A transferred word puts one response on its port and takes none (R55). -/
theorem execWord_responds {w : CmdWord} {s t : State} (h : execWord w s = .next t) :
    ∃ r, t.rspPort = some r ∧ t.responses = s.responses := by
  obtain ⟨_, _, _, _, r, _, rfl, -⟩ := execWord_local w s t h
  exact ⟨r, rfl, rfl⟩

/-- Delivery takes the response on its port, and no other (R55). -/
theorem deliver_response {s : State} {r : Response} (h : s.rspPort = some r) :
    s.deliver.rspPort = none ∧ s.deliver.responses = s.responses ++ [r] := by
  rw [deliver_eq s r h]
  exact ⟨rfl, rfl⟩

theorem step_command {s : State} {w : CmdWord} {rest : List HostMove} (hready : cmdReady s = true)
    (hmoves : s.moves = .command w :: rest) : step s = andThen (execWord w (s.consume rest)) State.deliver := by
  simp [step, runMove, hmoves, hready]

/-- The inversion of a span: the word is executed, its response is the one added, and the block is ready again. -/
theorem step_command_next {s t : State} {w : CmdWord} {rest : List HostMove} (hready : cmdReady s = true)
    (hmoves : s.moves = .command w :: rest) (h : step s = .next t) :
    ∃ u r, execWord w (s.consume rest) = .next u ∧ u.rspPort = some r ∧ t = u.deliver ∧
      t.responses = s.responses ++ [r] ∧ cmdReady t = true := by
  rw [step_command hready hmoves] at h
  obtain ⟨u, hu, rfl⟩ := andThen_eq_next h
  obtain ⟨r, hr, hresp⟩ := execWord_responds hu
  obtain ⟨hport, hdel⟩ := deliver_response hr
  rw [hresp] at hdel
  exact ⟨u, r, hu, hr, rfl, hdel, (cmdReady_iff _).2 ⟨hport, deliver_bytePort u⟩⟩

/-- Every success leaves a live instance. -/
theorem Effect.live {i : Instr} {s u : State} (h : Effect i s u) : u.phase.live = true := by
  have hacc : s.phase.acceptsBits = true → s.phase.live = true := by cases s.phase <;> decide
  cases i with
  | beNew => obtain rfl := h; rfl
  | nalStart => obtain ⟨-, rfl⟩ := h; rfl
  | appendBit => obtain ⟨ha, -, -, rfl⟩ := h; exact hacc ha
  | appendBits => obtain ⟨ha, -, -, -, rfl⟩ := h; exact hacc ha
  | appendUe => obtain ⟨ha, -, -, rfl⟩ := h; exact hacc ha
  | appendSe => obtain ⟨ha, -, rfl⟩ := h; exact hacc ha
  | bitLength => obtain ⟨hlive, rfl⟩ := h; exact hlive
  | toBytes => obtain ⟨hp, -, rfl⟩ := h; simp [hp, Phase.live]
  | finalize => obtain ⟨-, -, rfl⟩ := h; rfl
  | flush => obtain ⟨-, -, rfl⟩ := h; rfl

theorem faultResponse_status_ne_zero (c : Cause) : (faultResponse c).status ≠ 0 := by
  cases c <;> decide

/-- A response of status 0 carries the length of the buffer of a live instance. -/
theorem execWord_succeeded {w : CmdWord} {s t : State} {r : Response} (h : execWord w s = .next t)
    (hr : t.rspPort = some r) (h0 : r.status = 0) : t.phase.live = true ∧ r = okResponse t.len := by
  obtain ⟨i, u, -, hu, rfl⟩ | ⟨c, -, rfl⟩ := execWord_next h
  · exact ⟨hu.live, (Option.some.inj hr).symm⟩
  · exact absurd (Option.some.inj hr ▸ h0) (faultResponse_status_ne_zero c)

/-- The span of `BIT_LENGTH` in a live phase adds the response with the length, and changes nothing else of the block (R114). -/
theorem step_bitLength_of_live {s : State} {w : CmdWord} {rest : List HostMove} (hready : cmdReady s = true)
    (hmoves : s.moves = .command w :: rest) (hw : decode w = .legal .bitLength) (hlive : s.phase.live = true) :
    step s = .next { s with
      moves := rest, draw := s.draw + 1, responses := s.responses ++ [okResponse s.len] } := by
  obtain ⟨hrsp, hbeats⟩ := (cmdReady_iff s).1 hready
  rw [step_command hready hmoves, execWord_legal w _ _ hw, exec_bitLength_of_live (s := s.consume rest) hlive, andThen,
    deliver_no_beats (s.consume rest).responded _ hbeats (State.responded_rspPort _)]
  simp [State.responded, State.consume, State.len, hrsp]

/-- Settles O40: a success leaves a live instance and answers its length (`execWord_succeeded`), which is what `st_len` shows and
what `BIT_LENGTH` answers there. -/
theorem threeViewsOfLengthAgree : Obligations.ThreeViewsOfLengthAgree := by
  intro s t w r rest hready hmoves h hresp h0
  obtain ⟨u, r', hu, hr', rfl, hresp', hready'⟩ := step_command_next hready hmoves h
  obtain rfl : r' = r := by simpa [hresp'] using hresp
  obtain ⟨hlive, hlen⟩ := execWord_succeeded hu hr' h0
  rw [← deliver_phase] at hlive
  obtain rfl : r' = okResponse u.deliver.len := by rw [hlen, State.len, State.len, deliver_buf]
  exact ⟨(status_of_live hlive).1.symm, _,
    step_bitLength_of_live (s := u.deliver.withMoves _) hready' rfl (by decide) hlive, rfl⟩

end Sys2Proof.Machine

/-! ### NAL framing (43_nal_framing.md) -/

namespace Sys2Proof.Machine

open Sys2Proof.Spec

/-! The trailing bits. -/

theorem trailingPad_eq (len : Nat) : trailingPad len = 7 - len % 8 := by
  rw [trailingPad]
  omega

/-- Settles O28: the pad is `7 - len mod 8` (`trailingPad_eq`), so one bit more ends at a byte boundary. -/
theorem trailingBitsReachByteBoundary : Obligations.TrailingBitsReachByteBoundary := by
  intro L
  have hlt : L % 8 < 8 := Nat.mod_lt _ (by decide)
  refine ⟨rfl, by rw [trailing, trailingPad_eq], trailing_length L, ?_, ?_, ?_⟩ <;> rw [trailing_length] <;> omega

/-! `FINALIZE`, check by check (R127). -/

/-- An append that fits, with the phase its command asks for (20_memory.md R33). -/
theorem appendRespond_phase_of_room {s : State} {bits : List Bit} (p : Phase) (h : room s bits.length) :
    appendRespond bits p s = .next { appended s bits with phase := p } := by
  rw [appendRespond_eq, if_pos ((fits_iff_room _ _).2 h)]
  simp [State.responded, appended, okResponse_eq_okRsp, State.len]

theorem exec_finalize_of_not_opened {s : State} (hp : s.phase ≠ .opened) : exec .finalize s = .next (faulted s 4) :=
  (if_pos hp).trans (raise_eq_faulted .invalidState s)

/-- In `OPEN`, `FINALIZE` is the append of the trailing bits. -/
theorem exec_finalize_of_opened {s : State} (hp : s.phase = .opened) :
    exec .finalize s = appendRespond (trailing s.buf.length) .finalized s :=
  if_neg (not_not.2 hp)

theorem exec_finalize_of_not_room {s : State} (hp : s.phase = .opened) (hr : ¬ room s (8 - s.buf.length % 8)) :
    exec .finalize s = .next (faulted s 8) := by
  rw [← trailing_length] at hr
  rw [exec_finalize_of_opened hp, appendRespond_of_not_room _ hr]

theorem exec_finalize_of_room {s : State} (hp : s.phase = .opened) (hr : room s (8 - s.buf.length % 8)) :
    exec .finalize s = .next { appended s (trailing s.buf.length) with phase := .finalized } := by
  rw [← trailing_length] at hr
  rw [exec_finalize_of_opened hp, appendRespond_phase_of_room _ hr]

theorem room_iff_of_cap {s : State} {c k : Nat} (hc : s.cap = some c) : room s k ↔ s.buf.length + k ≤ c := by
  simp [room, hc]

theorem capLegal_mod_eight {c : Nat} (h : Config.capLegal (some c) = true) : c % 8 = 0 := by
  simp only [Config.capLegal, Bool.and_eq_true, beq_iff_eq] at h
  obtain ⟨⟨hbytes, -⟩, -⟩ := h
  exact hbytes

/-- The bits to the next byte boundary do not fit only in a full buffer, the capacity being whole bytes (R127). -/
theorem not_room_trailing_iff_full {s : State} {c : Nat} (hc : s.cap = some c) (hlegal : Config.capLegal s.cap = true)
    (hle : s.buf.length ≤ c) : ¬ room s (8 - s.buf.length % 8) ↔ s.buf.length = c := by
  have hbytes : c % 8 = 0 := capLegal_mod_eight (hc ▸ hlegal)
  rw [room_iff_of_cap hc]
  omega

/-- Settles O27: the checks are the lemmas above. -/
theorem finalizeAppendsTrailingBits : Obligations.FinalizeAppendsTrailingBits :=
  ⟨encodedAs_of_no_operands (m := "FINALIZE") fun _ _ => rfl,
    fun _ => ⟨exec_finalize_of_not_opened, exec_finalize_of_not_room, exec_finalize_of_room,
      fun _ => not_room_trailing_iff_full⟩⟩

/-! The end of a finalized buffer (R129). -/

/-- With its trailing bits a buffer is one byte longer than its whole bytes. -/
theorem append_trailing_length (l : List Bit) : (l ++ trailing l.length).length = 8 * (l.length / 8 + 1) := by
  rw [List.length_append, trailing_length]
  omega

theorem append_trailing_aligned (l : List Bit) : (l ++ trailing l.length).length % 8 = 0 := by
  rw [append_trailing_length, Nat.mul_mod_right]

/-- The last byte of a buffer with its trailing bits holds the stop bit. -/
theorem exists_pack_getLast?_ne_zero (l : List Bit) :
    ∃ b, (pack (l ++ trailing l.length)).getLast? = some b ∧ b ≠ 0 := by
  have hbytes := append_trailing_aligned l
  have hstop : (l ++ trailing l.length)[l.length]? = some true := by simp [trailing]
  obtain ⟨b, hb, hbit⟩ := Option.map_eq_some_iff.1 (pack_getLsbD hbytes l.length true hstop)
  refine ⟨b, ?_, ?_⟩
  · rw [List.getLast?_eq_getElem?, pack_length _ hbytes, append_trailing_length, Nat.mul_div_cancel_left _ (by decide),
      Nat.add_sub_cancel, hb]
  · rintro rfl
    simp at hbit

theorem dropWhile_not_zeros_append (k : Nat) (l : List Bit) :
    ((zeros k ++ l).dropWhile fun x => !x) = l.dropWhile fun x => !x := by
  induction k with
  | zero => rfl
  | succ k ih => rw [zeros_succ, List.cons_append, List.dropWhile_cons_of_pos rfl, ih]

/-- Scanning back over the zeros, the first 1 is the stop bit. -/
theorem dropWhile_not_reverse_trailing (l : List Bit) (n : Nat) :
    ((l ++ trailing n).reverse.dropWhile fun x => !x) = true :: l.reverse := by
  have hrev : (l ++ trailing n).reverse = zeros (trailingPad n) ++ true :: l.reverse := by simp [trailing, zeros]
  rw [hrev, dropWhile_not_zeros_append, List.dropWhile_cons_of_neg (by decide)]

/-- In `FINAL` and `FLUSHED` a success that stays there keeps the buffer (R129, R133). -/
theorem Effect.buf_eq_of_closed {i : Instr} {s u : State} (h : Effect i s u) (hs : s.phase.closed = true)
    (hu : u.phase.closed = true) : u.buf = s.buf := by
  have hacc : s.phase.acceptsBits ≠ true := by
    revert hs
    cases s.phase <;> decide
  cases i with
  | beNew => obtain rfl := h; cases hu
  | nalStart => obtain ⟨-, rfl⟩ := h; cases hu
  | appendBit => exact absurd h.1 hacc
  | appendBits => exact absurd h.1 hacc
  | appendUe => exact absurd h.1 hacc
  | appendSe => exact absurd h.1 hacc
  | bitLength => obtain ⟨-, rfl⟩ := h; rfl
  | toBytes => obtain ⟨-, -, rfl⟩ := h; rfl
  | finalize => obtain ⟨hp, -, -⟩ := h; rw [hp] at hs; cases hs
  | flush => obtain ⟨-, -, rfl⟩ := h; rfl

theorem execWord_buf_eq_of_closed {w : CmdWord} {s t : State} (h : execWord w s = .next t) (hs : s.phase.closed = true)
    (ht : t.phase.closed = true) : t.buf = s.buf := by
  obtain ⟨i, u, -, hu, rfl⟩ | ⟨c, -, rfl⟩ := execWord_next h
  · exact hu.buf_eq_of_closed hs ht
  · rfl

/-- Settles O29: the stop bit stands in the last byte (`exists_pack_getLast?_ne_zero`) with only zeros behind it
(`dropWhile_not_reverse_trailing`), and the buffer stays (`execWord_buf_eq_of_closed`). -/
theorem finalizedBufferEndsInStopBit : Obligations.FinalizedBufferEndsInStopBit := by
  refine ⟨fun s hp hr => ?_, fun s t w hs h ht => execWord_buf_eq_of_closed h hs ht⟩
  obtain ⟨b, hlast, hb⟩ := exists_pack_getLast?_ne_zero s.buf
  exact ⟨_, b, exec_finalize_of_room hp hr, rfl, append_trailing_aligned s.buf, hlast, hb, dropWhile_not_reverse_trailing _ _⟩

/-! `NAL_START` (R121 to R123). -/

/-- The reserved bits of `NAL_START`'s `imm` are all but bit 0 (30_encoding.md R57). -/
theorem extractLsb'_one_eq_zero_iff (imm : BitVec 32) : imm.extractLsb' 1 31 = 0 ↔ imm >>> 1 = 0 := by
  rw [← BitVec.toNat_inj, ← BitVec.toNat_inj, BitVec.extractLsb'_toNat, BitVec.toNat_ushiftRight, Nat.mod_eq_of_lt]
  · rfl
  · have := imm.isLt
    rw [Nat.shiftRight_eq_div_pow]
    omega

theorem exec_nalStart_fzb (s : State) (ref typ : Nat) (longSc : Bool) :
    exec (.nalStart true ref typ longSc) s = .next (faulted s 2) :=
  raise_eq_faulted .invalidFieldValue s

theorem exec_nalStart (s : State) (ref typ : Nat) (longSc : Bool) :
    exec (.nalStart false ref typ longSc) s =
      .next (State.responded { s with buf := startCode longSc ++ headerBits ref typ, phase := .opened }) := rfl

/-- Start code and header byte are 40 or 32 bits, which the response's length field shows (R121). -/
theorem okRsp_startCode_headerBits (ref typ : Nat) (longSc : Bool) :
    okRsp (startCode longSc ++ headerBits ref typ).length = ⟨0, if longSc then 40 else 32⟩ := by
  cases longSc <;> simp [okRsp]

/-- Settles O10: the decoder asks for the reserved zeros (`extractLsb'_one_eq_zero_iff`), and the response is the length of start
code and header (`okRsp_startCode_headerBits`). -/
theorem nalStartWritesStartCodeAndHeader : Obligations.NalStartWritesStartCodeAndHeader := by
  refine ⟨encodedAs_of_needZero (m := "NAL_START") (zero := fun _ imm => imm.extractLsb' 1 31 == 0) (fun _ _ => rfl)
    fun _ imm => ?_, fun s ref typ longSc => ⟨?_, exec_nalStart_fzb s ref typ longSc⟩⟩
  · rw [beq_iff_eq, extractLsb'_one_eq_zero_iff]
  · rw [exec_nalStart, State.responded, okResponse_eq_okRsp, State.len, okRsp_startCode_headerBits]
    rfl

/-- The header byte: one bit, two bits and five bits are the eight bits of `ref * 32 + typ` (R123). -/
theorem headerBits_eq_bitsMsb {ref typ : Nat} (href : ref < 4) (htyp : typ < 32) :
    headerBits ref typ = bitsMsb (ref * 32 + typ) 8 := by
  have hhigh : (ref * 32 + typ) / 2 ^ 5 = ref := by omega
  have hlow : (ref * 32 + typ) % 2 ^ 5 = typ := by omega
  calc headerBits ref typ
    _ = bitsMsb ref (1 + 2) ++ bitsMsb typ 5 := by rw [bitsMsb_zero_extend (m := 2) href (by decide)]; rfl
    _ = bitsMsb (ref * 32 + typ) (1 + 2 + 5) := by
      rw [bitsMsb_append _ (1 + 2) 5, hhigh, ← bitsMsb_mod (ref * 32 + typ) 5 5 le_rfl, hlow]

/-- Eight bits of a number pack to one byte. -/
theorem pack_bitsMsb_eight (x : Nat) : pack (bitsMsb x 8) = [BitVec.ofNat 8 x] := by
  have hbyte : pack (bitsMsb x 8) = [BitVec.ofNat 8 (natOfBits (bitsMsb x 8))] := by
    simp only [bitsMsb_succ, bitsMsb_zero, pack_cons8, ← byteOf_toNat, BitVec.ofNat_toNat, BitVec.setWidth_eq, pack_nil]
  have hmod : BitVec.ofNat 8 (x % 2 ^ 8) = BitVec.ofNat 8 x := by simp [← BitVec.toNat_inj]
  rw [hbyte, natOfBits_bitsMsb, hmod]

theorem pack_startCode (longSc : Bool) :
    pack (startCode longSc) = if longSc then [0x00#8, 0x00#8, 0x00#8, 0x01#8] else [0x00#8, 0x00#8, 0x01#8] := by
  cases longSc <;> decide

/-- Start code and header byte, packed (R123). -/
theorem pack_startCode_headerBits (longSc : Bool) {ref typ : Nat} (href : ref < 4) (htyp : typ < 32) :
    pack (startCode longSc ++ headerBits ref typ) =
      (if longSc then [0x00#8, 0x00#8, 0x00#8, 0x01#8] else [0x00#8, 0x00#8, 0x01#8]) ++ [BitVec.ofNat 8 (ref * 32 + typ)] := by
  have halign : (startCode longSc).length % 8 = 0 := by cases longSc <;> simp
  rw [pack_append _ _ halign, pack_startCode, headerBits_eq_bitsMsb href htyp, pack_bitsMsb_eight]

/-- The header byte is the `aux` byte of the command word (R123). -/
theorem headerAux_eq {ref typ : Nat} (href : ref < 4) (htyp : typ < 32) :
    headerAux false ref typ = BitVec.ofNat 8 (ref * 32 + typ) := by
  apply BitVec.eq_of_toNat_eq
  rw [headerAux, BitVec.toNat_append, BitVec.toNat_append, BitVec.toNat_ofNat, BitVec.toNat_ofNat, BitVec.toNat_ofNat,
    Nat.mod_eq_of_lt href, Nat.mod_eq_of_lt htyp, ← Nat.shiftLeft_add_eq_or_of_lt htyp, Nat.shiftLeft_eq]
  simp
  omega

theorem natOfBits_bitsMsb_of_lt {v n : Nat} (h : v < 2 ^ n) : natOfBits (bitsMsb v n) = v :=
  (natOfBits_bitsMsb v n).trans (Nat.mod_eq_of_lt h)

/-- The fields at their indices, for a start code of `k` zeros and a 1 (R123). -/
theorem header_fields {k ref typ : Nat} {buf : List Bit} (hbuf : buf = zeros k ++ [true] ++ headerBits ref typ)
    (href : ref < 4) (htyp : typ < 32) :
    buf.take k = zeros k ∧ buf[k]? = some true ∧ buf[k + 1]? = some false ∧
      natOfBits ((buf.drop (k + 2)).take 2) = ref ∧ natOfBits ((buf.drop (k + 4)).take 5) = typ ∧ buf.length = k + 9 := by
  have hsplit : buf = zeros k ++ (true :: false :: (bitsMsb ref 2 ++ bitsMsb typ 5)) := by simp [hbuf, headerBits]
  have hdrop2 : buf.drop (k + 2) = bitsMsb ref 2 ++ bitsMsb typ 5 := by simp [hsplit, List.drop_append]
  have hdrop4 : buf.drop (k + 4) = bitsMsb typ 5 := by
    rw [← List.drop_drop (i := 2), hdrop2, List.drop_left' (bitsMsb_length ref 2)]
  refine ⟨?_, ?_, ?_, ?_, ?_, ?_⟩
  · rw [hsplit, List.take_left' (zeros_length k)]
  · simp [hsplit]
  · simp [hsplit]
  · rw [hdrop2, List.take_left' (bitsMsb_length ref 2), natOfBits_bitsMsb_of_lt href]
  · rw [hdrop4, List.take_of_length_le (bitsMsb_length typ 5).le, natOfBits_bitsMsb_of_lt htyp]
  · simp [hsplit]

/-- Settles O11: `header_fields` for both start codes, `pack_startCode_headerBits` for the bytes and `headerAux_eq` for the word. -/
theorem nalStartLayout : Obligations.NalStartLayout := by
  intro s ref typ longSc href htyp
  obtain ⟨-, haux, -⟩ := Laws.EncodeFields.nalStart false ref typ longSc
  refine ⟨_, exec_nalStart s ref typ longSc, haux.trans (headerAux_eq href htyp), ?_, ?_⟩
  · rintro rfl
    obtain ⟨hzeros, hstop, hfzb, href', htyp', hlen⟩ := header_fields (k := 31) rfl href htyp
    exact ⟨hzeros, hstop, hfzb, href', htyp', hlen, pack_startCode_headerBits true href htyp⟩
  · rintro rfl
    obtain ⟨hzeros, hstop, hfzb, href', htyp', hlen⟩ := header_fields (k := 23) rfl href htyp
    exact ⟨hzeros, hstop, hfzb, href', htyp', hlen, pack_startCode_headerBits false href htyp⟩

end Sys2Proof.Machine

/-! ### The word of `NAL_START`, and what follows it -/

namespace Sys2Proof

theorem decodeFields_nalStart {aux : BitVec 8} {imm : BitVec 32} (h : imm.extractLsb' 1 31 = 0) :
    decodeFields 0x02#8 aux imm = .legal (decodeNalStart aux imm) :=
  if_pos (beq_iff_eq.2 h)

/-- The three fields of the header byte are read back (30_encoding.md R57). -/
theorem decodeNalStart_headerAux (fzb : Bool) {ref typ : Nat} (imm : BitVec 32) (href : ref < 4) (htyp : typ < 32) :
    decodeNalStart (headerAux fzb ref typ) imm = .nalStart fzb ref typ (imm.getLsbD 0) := by
  have hfzb : (headerAux fzb ref typ).getLsbD 7 = fzb := by
    rw [headerAux, BitVec.getLsbD_append, if_neg (by decide), BitVec.getLsbD_append, if_neg (by decide)]
    simp
  have hhigh : (headerAux fzb ref typ).extractLsb' 5 2 = BitVec.ofNat 2 ref := by
    rw [headerAux, BitVec.extractLsb'_append_eq_of_le le_rfl, Nat.sub_self, BitVec.extractLsb'_append_eq_right]
  have hlow : (headerAux fzb ref typ).extractLsb' 0 5 = BitVec.ofNat 5 typ := BitVec.extractLsb'_append_eq_right
  rw [decodeNalStart, hfzb, hhigh, hlow, BitVec.toNat_ofNat, BitVec.toNat_ofNat, Nat.mod_eq_of_lt href,
    Nat.mod_eq_of_lt htyp]

/-- The word of a `NAL_START` with operands in their ranges decodes to it (30_encoding.md R57, R63). -/
theorem decode_encode_nalStart (fzb : Bool) {ref typ : Nat} (longSc : Bool) (href : ref < 4) (htyp : typ < 32) :
    decode (encode (.nalStart fzb ref typ longSc)) = .legal (.nalStart fzb ref typ longSc) := by
  have hzero : (Instr.nalStart fzb ref typ longSc).imm.extractLsb' 1 31 = 0 := by
    rw [Instr.imm]
    cases longSc <;> decide
  have hsc : (Instr.nalStart fzb ref typ longSc).imm.getLsbD 0 = longSc := by
    rw [Instr.imm]
    cases longSc <;> decide
  rw [encode, decode_mkWord, Instr.opcode, decodeFields_nalStart hzero, Instr.aux,
    decodeNalStart_headerAux fzb _ href htyp, hsc]

end Sys2Proof

namespace Sys2Proof.Machine

open Sys2Proof.Spec

/-! What a command adds to the logs, from any two states that agree on what it reads (R136). -/

/-- The bytes an `emit` adds to the sink. -/
def sinkBytes : Dest → List Byte → List Byte
  | .sink, bytes => bytes
  | .ret, _ => []

/-- The elements an `emit` adds to the return log. -/
def retElements : Dest → List Byte → List (List Byte)
  | .sink, _ => []
  | .ret, bytes => [bytes]

/-- `t` has these bytes, elements and responses more than `s` in its logs. -/
def LogsGrow (s t : State) (bytes : List Byte) (rets : List (List Byte)) (rsps : List Response) : Prop :=
  t.sink = s.sink ++ bytes ∧ t.ret = s.ret ++ rets ∧ t.responses = s.responses ++ rsps

/-- From `s₁` to `t₁` the logs grow by the same as from `s₂` to `t₂`. -/
def SameGrowth (s₁ t₁ s₂ t₂ : State) : Prop :=
  ∃ bytes rets rsps, LogsGrow s₁ t₁ bytes rets rsps ∧ LogsGrow s₂ t₂ bytes rets rsps

theorem LogsGrow.refl (s : State) : LogsGrow s s [] [] [] := by simp [LogsGrow]

theorem LogsGrow.trans {s t u : State} {bs bs' : List Byte} {es es' : List (List Byte)} {rs rs' : List Response}
    (h : LogsGrow s t bs es rs) (h' : LogsGrow t u bs' es' rs') :
    LogsGrow s u (bs ++ bs') (es ++ es') (rs ++ rs') := by
  obtain ⟨hsink, hret, hrsp⟩ := h
  obtain ⟨hsink', hret', hrsp'⟩ := h'
  exact ⟨by rw [hsink', hsink, List.append_assoc], by rw [hret', hret, List.append_assoc],
    by rw [hrsp', hrsp, List.append_assoc]⟩

theorem SameGrowth.refl (s₁ s₂ : State) : SameGrowth s₁ s₁ s₂ s₂ := ⟨[], [], [], .refl s₁, .refl s₂⟩

theorem SameGrowth.trans {s₁ t₁ u₁ s₂ t₂ u₂ : State} (h : SameGrowth s₁ t₁ s₂ t₂) (h' : SameGrowth t₁ u₁ t₂ u₂) :
    SameGrowth s₁ u₁ s₂ u₂ := by
  obtain ⟨_, _, _, h₁, h₂⟩ := h
  obtain ⟨_, _, _, h₁', h₂'⟩ := h'
  exact ⟨_, _, _, h₁.trans h₁', h₂.trans h₂'⟩

/-- A success emits the packed buffer to one destination, or nothing, which is no byte to the sink. -/
theorem Effect.emits {i : Instr} {s u : State} (h : Effect i s u) :
    ∃ d bytes, u.bytePort = (s.emit d bytes).bytePort ∧ u.ret = (s.emit d bytes).ret := by
  have hnone : s.bytePort = (s.emit .sink []).bytePort := (List.append_nil _).symm
  cases i with
  | beNew => obtain rfl := h; exact ⟨.sink, [], hnone, rfl⟩
  | nalStart => obtain ⟨-, rfl⟩ := h; exact ⟨.sink, [], hnone, rfl⟩
  | appendBit => obtain ⟨-, -, -, rfl⟩ := h; exact ⟨.sink, [], hnone, rfl⟩
  | appendBits => obtain ⟨-, -, -, -, rfl⟩ := h; exact ⟨.sink, [], hnone, rfl⟩
  | appendUe => obtain ⟨-, -, -, rfl⟩ := h; exact ⟨.sink, [], hnone, rfl⟩
  | appendSe => obtain ⟨-, -, rfl⟩ := h; exact ⟨.sink, [], hnone, rfl⟩
  | bitLength => obtain ⟨-, rfl⟩ := h; exact ⟨.sink, [], hnone, rfl⟩
  | toBytes => obtain ⟨-, -, rfl⟩ := h; exact ⟨.ret, pack s.buf, rfl, rfl⟩
  | finalize => obtain ⟨-, -, rfl⟩ := h; exact ⟨.sink, [], hnone, rfl⟩
  | flush => obtain ⟨-, -, rfl⟩ := h; exact ⟨.sink, pack s.buf, rfl, rfl⟩

theorem execWord_emits {w : CmdWord} {s t : State} (h : execWord w s = .next t) :
    ∃ d bytes, t.bytePort = (s.emit d bytes).bytePort ∧ t.ret = (s.emit d bytes).ret := by
  obtain ⟨i, u, -, hu, rfl⟩ | ⟨c, -, rfl⟩ := execWord_next h
  · exact hu.emits
  · exact ⟨.sink, [], (List.append_nil _).symm, rfl⟩

/-- A transferred word makes one `emit` and writes phase, buffer, faults and response, the same on every state that agrees on
what it reads. -/
theorem execWord_emit_write {w : CmdWord} {s t : State} (h : execWord w s = .next t) :
    ∃ d bytes p b f r, ∀ s', Agree s s' → execWord w s' = .next ((s'.emit d bytes).write p b f [] r []) := by
  obtain ⟨p, b, f, bs, r, rs, rfl, hlocal⟩ := execWord_local w s t h
  obtain ⟨d, bytes, hport, hret⟩ := execWord_emits h
  obtain rfl : bs = beatsOf d bytes := List.append_cancel_left hport
  refine ⟨d, bytes, p, b, f, r, fun s' ha => ?_⟩
  rw [hlocal s' ha]
  cases d with
  | sink =>
    obtain rfl : rs = [] := List.append_right_eq_self.1 hret
    simp [State.write, State.emit]
  | ret =>
    obtain rfl : rs = [[]] := List.append_cancel_left hret
    simp [State.write, State.emit]

/-- Delivery adds the bytes of the `emit` to its destination's log, and the response (R37, R55). -/
theorem deliver_emit_write_logsGrow {s : State} (d : Dest) (bytes : List Byte) (p : Phase) (b : List Bit) (f : BitVec 9)
    (r : Response) (hs : s.bytePort = []) :
    LogsGrow s ((s.emit d bytes).write p b f [] r []).deliver (sinkBytes d bytes) (retElements d bytes) [r] := by
  cases d with
  | sink =>
    rw [deliver_sink_emit _ bytes r (by simp [State.write, hs]) rfl]
    simp [LogsGrow, State.write, sinkBytes, retElements]
  | ret =>
    rw [deliver_ret_emit _ bytes s.ret r (by simp [State.write, hs]) rfl (by simp [State.write])]
    simp [LogsGrow, State.write, sinkBytes, retElements]

theorem Agree.refl (s : State) : Agree s s := ⟨rfl, rfl, rfl⟩

/-- The span of a word that does not stop the machine, on every ready state that agrees on what the word reads: the same phase,
buffer and growth of the logs, and the block is ready for the next move. -/
theorem step_command_of_agree {s₁ t₁ : State} {w : CmdWord} {m₁ : List HostMove} (hready : cmdReady s₁ = true)
    (hmoves : s₁.moves = .command w :: m₁) (hstep : step s₁ = .next t₁) :
    ∃ p b bytes rets rsps, ∀ s m, Agree s₁ s → cmdReady s = true → s.moves = .command w :: m →
      ∃ t, step s = .next t ∧ t.cap = s.cap ∧ t.phase = p ∧ t.buf = b ∧ t.moves = m ∧ cmdReady t = true ∧
        LogsGrow s t bytes rets rsps := by
  obtain ⟨u, -, hexec, -⟩ := step_command_next hready hmoves hstep
  obtain ⟨d, bytes, p, b, f, r, hwrite⟩ := execWord_emit_write hexec
  refine ⟨p, b, sinkBytes d bytes, retElements d bytes, [r], fun s m ha hr hm => ?_⟩
  have hspan : step s = .next (((s.consume m).emit d bytes).write p b f [] r []).deliver := by
    rw [step_command hr hm, hwrite (s.consume m) ha]
    rfl
  obtain ⟨-, -, -, -, -, -, hready'⟩ := step_command_next hr hm hspan
  obtain ⟨-, hport⟩ := (cmdReady_iff s).1 hr
  exact ⟨_, hspan, deliver_cap _, deliver_phase _, deliver_buf _, deliver_moves _, hready',
    deliver_emit_write_logsGrow (s := s.consume m) d bytes p b f r hport⟩

/-- Two ready states that agree on what a command reads, and whose hosts issue these words next. -/
structure Twins (ws : List CmdWord) (s₁ s₂ : State) : Prop where
  agree : Agree s₁ s₂
  ready₁ : cmdReady s₁ = true
  ready₂ : cmdReady s₂ = true
  moves₁ : ws.map HostMove.command <+: s₁.moves
  moves₂ : ws.map HostMove.command <+: s₂.moves

/-- The span of a word adds the same to the logs of both, and leaves them twins for the words after it. -/
theorem Twins.step {w : CmdWord} {ws : List CmdWord} {s₁ s₂ t₁ : State} (h : Twins (w :: ws) s₁ s₂)
    (hstep : step s₁ = .next t₁) : ∃ t₂, step s₂ = .next t₂ ∧ Twins ws t₁ t₂ ∧ SameGrowth s₁ t₁ s₂ t₂ := by
  obtain ⟨hagree, hr₁, hr₂, ⟨m₁, hm₁⟩, ⟨m₂, hm₂⟩⟩ := h
  obtain ⟨p, b, bytes, rets, rsps, hspan⟩ := step_command_of_agree hr₁ hm₁.symm hstep
  obtain ⟨t, ht, hcap₁, hp₁, hb₁, hmoves₁, hready₁, hgrow₁⟩ := hspan s₁ _ (.refl s₁) hr₁ hm₁.symm
  obtain ⟨t₂, ht₂, hcap₂, hp₂, hb₂, hmoves₂, hready₂, hgrow₂⟩ := hspan s₂ _ hagree hr₂ hm₂.symm
  obtain rfl : t = t₁ := Host.Outcome.next.inj (ht.symm.trans hstep)
  have hagree' : Agree t t₂ := ⟨by rw [hcap₂, hagree.1, hcap₁], by rw [hp₂, hp₁], by rw [hb₂, hb₁]⟩
  exact ⟨t₂, ht₂, ⟨hagree', hready₁, hready₂, ⟨m₁, hmoves₁.symm⟩, ⟨m₂, hmoves₂.symm⟩⟩, bytes, rets, rsps, hgrow₁, hgrow₂⟩

theorem steps_succ_of_step {s t : State} (n : Nat) (h : step s = .next t) : steps (n + 1) s = steps n t := by
  rw [steps, h]

theorem steps_succ_congr {s s' : State} (n : Nat) (h : step s = step s') : steps (n + 1) s = steps (n + 1) s' := by
  rw [steps, steps, h]

theorem steps_succ_eq_next {s t : State} {n : Nat} (h : steps (n + 1) s = .next t) :
    ∃ u, step s = .next u ∧ steps n u = .next t := by
  rw [steps] at h
  split at h
  · exact ⟨_, ‹_›, h⟩
  · cases h
  · cases h

/-- Twins stay in agreement over the words they have in common, and their logs grow by the same. -/
theorem Twins.steps {ws : List CmdWord} {s₁ s₂ t₁ : State} (h : Twins ws s₁ s₂) (hsteps : steps ws.length s₁ = .next t₁) :
    ∃ t₂, steps ws.length s₂ = .next t₂ ∧ Agree t₁ t₂ ∧ SameGrowth s₁ t₁ s₂ t₂ := by
  induction ws generalizing s₁ s₂ with
  | nil =>
    obtain rfl : s₁ = t₁ := Host.Outcome.next.inj hsteps
    exact ⟨s₂, rfl, h.agree, .refl s₁ s₂⟩
  | cons w ws ih =>
    obtain ⟨u₁, hu₁, hrest⟩ := steps_succ_eq_next hsteps
    obtain ⟨u₂, hu₂, hu, hgrow⟩ := h.step hu₁
    obtain ⟨t₂, ht₂, hagree, hgrow'⟩ := ih hu hrest
    exact ⟨t₂, (steps_succ_of_step _ hu₂).trans ht₂, hagree, hgrow.trans hgrow'⟩

/-- `NAL_START` reads neither the phase nor the buffer: with another phase and buffer its span ends in the same state (R121, R125). -/
theorem step_nalStart_unread {s : State} {w : CmdWord} {rest : List HostMove} {ref typ : Nat} {longSc : Bool}
    (hready : cmdReady s = true) (hmoves : s.moves = .command w :: rest)
    (hw : decode w = .legal (.nalStart false ref typ longSc)) (p : Phase) (b : List Bit) :
    step s = step { s with phase := p, buf := b } := by
  rw [step_command hready hmoves, step_command (s := { s with phase := p, buf := b }) hready hmoves,
    execWord_legal w _ _ hw, execWord_legal w _ _ hw, exec_nalStart, exec_nalStart]
  rfl

/-- Settles O55: `NAL_START` runs alike from the second state with the phase and the buffer of the first, where the two are twins
over all the words (`Twins.steps`). -/
theorem unitDependsOnItsCommandsOnly : Obligations.UnitDependsOnItsCommandsOnly := by
  intro s₁ s₂ t₁ longSc ref typ ws hr₁ hr₂ hcap href htyp hsteps
  have hw := decode_encode_nalStart false longSc href htyp
  generalize encode (.nalStart false ref typ longSc) = w at hw hsteps ⊢
  have hstart := step_nalStart_unread (s := s₂.withMoves (.command w :: ws.map HostMove.command)) hr₂ rfl hw s₁.phase s₁.buf
  have htwins : Twins (w :: ws) (s₁.withMoves (.command w :: ws.map HostMove.command))
      { s₂.withMoves (.command w :: ws.map HostMove.command) with phase := s₁.phase, buf := s₁.buf } :=
    ⟨⟨hcap.symm, rfl, rfl⟩, hr₁, hr₂, List.prefix_append .., List.prefix_append ..⟩
  obtain ⟨t₂, ht₂, ⟨-, hp, hb⟩, bytes, rets, rsps, ⟨hsink₁, hret₁, hrsp₁⟩, ⟨hsink₂, hret₂, hrsp₂⟩⟩ := htwins.steps hsteps
  exact ⟨t₂, bytes, rets, rsps, (steps_succ_congr _ hstart).trans ht₂, hp, hb, hsink₁, hsink₂, hret₁, hret₂, hrsp₁, hrsp₂⟩

end Sys2Proof.Machine

/-! ### The parameter-set exports (44_parameter_set_sequences.md) -/

namespace Sys2Proof.Driver

open Sys2Proof.Machine Sys2Proof.Spec

/-! The unsupported configurations. -/

theorem SpsFields.unsupported_iff (f : SpsFields) :
    f.unsupported = true ↔ f.pocType = 1 ∨ f.frameMbsOnly = false ∨ f.cropping = true ∨ f.vui = true := by
  simp [SpsFields.unsupported, or_assoc]

theorem PpsFields.unsupported_iff (f : PpsFields) : f.unsupported = true ↔ 0 < f.numSliceGroupsMinus1 := by
  simp [PpsFields.unsupported]

/-- The expansion itself never answers `UnsupportedFeature`: that failure is the export's own check (R152). -/
theorem expand_ne_unsupportedFeature (sc ref typ : Nat) (codes : List FieldCode) :
    expand sc ref typ codes ≠ .failed .unsupportedFeature := by
  obtain ⟨-, -, h⟩ | ⟨-, h⟩ := expand_cases sc ref typ codes <;> simp [h]

/-- Settles O56: both exports check for the unsupported branches first (`unsupported_iff`), and what they do after that check has
no such failure (`expand_ne_unsupportedFeature`). -/
theorem unsupportedExportsFail : Obligations.UnsupportedExportsFail := by
  refine ⟨fun f => ?_, fun f => ?_⟩
  · rw [← f.unsupported_iff, spsExport]
    split
    · next h => exact iff_of_true rfl h
    · next h => exact iff_of_false (expand_ne_unsupportedFeature _ _ _ _) h
  · rw [← f.unsupported_iff, ppsExport]
    split
    · next h => exact iff_of_true rfl h
    · next h =>
      split
      · exact iff_of_false (by decide) h
      · exact iff_of_false (expand_ne_unsupportedFeature _ _ _ _) h

/-! The sizes (R157). -/

theorem ueLegal_iff (v : Int) : ueLegal v = true ↔ 0 ≤ v ∧ v < 2 ^ 31 := by
  simp [ueLegal]

theorem seLegal_iff (v : Int) : seLegal v = true ↔ -2 ^ 31 ≤ v ∧ v < 2 ^ 31 := by
  simp [seLegal]

/-- The fewest bits a field in its domain is sent as: an Exp-Golomb code has at least its 1. -/
def FieldCode.minLen : FieldCode → Nat
  | .u n _ => n
  | .flag _ => 1
  | .ue _ => 1
  | .se _ => 1

/-- The most bits a field in its domain is sent as (41_exp_golomb.md R101). The code of codeNum `c` has also at most `2c + 1` bits,
so that `ue(0)`, which field 5 of an exported PPS always is (R149), counts as one bit. -/
def FieldCode.maxLen : FieldCode → Nat
  | .u n _ => n
  | .flag _ => 1
  | .ue v => min (2 * v.toNat + 1) 63
  | .se _ => 65

@[simp] theorem FieldCode.maxLen_u (n : Nat) (v : Int) : (FieldCode.u n v).maxLen = n := rfl

@[simp] theorem FieldCode.maxLen_flag (b : Bool) : (FieldCode.flag b).maxLen = 1 := rfl

@[simp] theorem FieldCode.maxLen_se (v : Int) : (FieldCode.se v).maxLen = 65 := rfl

@[simp] theorem FieldCode.maxLen_ue_zero : (FieldCode.ue 0).maxLen = 1 := rfl

theorem FieldCode.maxLen_ue_le (v : Int) : (FieldCode.ue v).maxLen ≤ 63 := min_le_right _ _

theorem ueCode_length_pos (c : Nat) : 1 ≤ (ueCode c).length := by
  rw [ueCode_length]
  omega

theorem ueCode_length_le_of_ueLegal {v : Int} (h : ueLegal v = true) :
    (ueCode v.toNat).length ≤ min (2 * v.toNat + 1) 63 := by
  obtain ⟨-, hlt⟩ := (ueLegal_iff v).1 h
  exact le_min (ueCode_bounds Nat.lt_two_pow_self).2 (ueCode_bounds (k := 31) (by omega)).2

theorem ueCode_seMap_length_le_of_seLegal {v : Int} (h : seLegal v = true) : (ueCode (seMap v)).length ≤ 65 := by
  obtain ⟨hge, hlt⟩ := (seLegal_iff v).1 h
  have hmap := seMap_le v
  exact (ueCode_bounds (k := 32) (by omega)).2

/-- A field in its domain is sent as a number of bits within its bounds. -/
theorem FieldCode.addedBits_length_bounds (c : FieldCode) (h : c.legal = true) :
    c.minLen ≤ (addedBits c.command).length ∧ (addedBits c.command).length ≤ c.maxLen := by
  cases c with
  | u n v => simp [FieldCode.command, Driver.u, addedBits, minLen, maxLen]
  | flag b => simp [FieldCode.command, Driver.flag, addedBits, minLen, maxLen]
  | ue v => exact ⟨ueCode_length_pos _, ueCode_length_le_of_ueLegal h⟩
  | se v => exact ⟨ueCode_length_pos _, ueCode_seMap_length_le_of_seLegal h⟩

/-- The payload of fields in their domains is between the sums of their bounds. -/
theorem payloadBits_length_bounds {codes : List FieldCode} (h : codes.all FieldCode.legal = true) :
    (codes.map FieldCode.minLen).sum ≤ (payloadBits (codes.map FieldCode.command)).length ∧
      (payloadBits (codes.map FieldCode.command)).length ≤ (codes.map FieldCode.maxLen).sum := by
  induction codes with
  | nil => exact ⟨le_rfl, le_rfl⟩
  | cons c cs ih =>
    simp only [List.all_cons, Bool.and_eq_true] at h
    obtain ⟨hc, hcs⟩ := h
    obtain ⟨hmin, hmax⟩ := c.addedBits_length_bounds hc
    obtain ⟨ihmin, ihmax⟩ := ih hcs
    simp only [payloadBits, List.map_cons, List.sum_cons, List.flatMap_cons, List.length_append] at *
    omega

/-- The trailing bits make the payload one byte longer than its whole bytes (43_nal_framing.md R126). -/
theorem unitLen_eq (longSc : Bool) (is : List Instr) :
    unitLen longSc is = headerLen longSc + 8 * ((payloadBits is).length / 8 + 1) := by
  rw [unitLen, append_trailing_length]

/-- Bounds of the fields' sums in whole bytes, without and with the trailing bits, bound the unit. -/
theorem unitLen_bounds {codes : List FieldCode} (longSc : Bool) {lo hi : Nat} (h : codes.all FieldCode.legal = true)
    (hlo : 8 * lo ≤ (codes.map FieldCode.minLen).sum) (hhi : (codes.map FieldCode.maxLen).sum < 8 * hi) :
    unitLen longSc (codes.map FieldCode.command) ≤ 40 + 8 * hi ∧
      headerLen longSc + 8 * (lo + 1) ≤ unitLen longSc (codes.map FieldCode.command) := by
  obtain ⟨hmin, hmax⟩ := payloadBits_length_bounds h
  have hheader : headerLen longSc ≤ 40 := by cases longSc <;> decide
  rw [unitLen_eq]
  omega

/-- At least 24 bits of fields 1 to 4, 5 flags and six codes. -/
theorem SpsFields.le_sum_minLen (f : SpsFields) : 35 ≤ (f.codes.map FieldCode.minLen).sum := by
  rw [SpsFields.codes]
  split <;> simp [FieldCode.minLen]

/-- At most 24 bits of fields 1 to 4, 5 flags and seven codes of 63 bits. -/
theorem SpsFields.sum_maxLen_le (f : SpsFields) : (f.codes.map FieldCode.maxLen).sum ≤ 470 := by
  have h5 := FieldCode.maxLen_ue_le f.spsId
  have h6 := FieldCode.maxLen_ue_le f.log2MaxFrameNumMinus4
  have h7 := FieldCode.maxLen_ue_le f.pocType
  have h7a := FieldCode.maxLen_ue_le f.log2MaxPocLsbMinus4
  have h8 := FieldCode.maxLen_ue_le f.numRefFrames
  have h10 := FieldCode.maxLen_ue_le f.widthInMbsMinus1
  have h11 := FieldCode.maxLen_ue_le f.heightInMapUnitsMinus1
  rw [SpsFields.codes]
  split <;> simp only [List.cons_append, List.nil_append, List.map_cons, List.map_nil, List.sum_cons, List.sum_nil,
    FieldCode.maxLen_u, FieldCode.maxLen_flag] <;> linarith

/-- Eight codes and 8 bits of flags and `weighted_bipred_idc`. -/
theorem PpsFields.sum_minLen (f : PpsFields) : (f.codes.map FieldCode.minLen).sum = 16 := by
  simp [PpsFields.codes, FieldCode.minLen]

/-- At most four codes of 63 bits, field 5 of one bit, three signed codes of 65 bits, and 8 bits of flags and
`weighted_bipred_idc`. -/
theorem PpsFields.sum_maxLen_le {f : PpsFields} (h : f.numSliceGroupsMinus1 = 0) :
    (f.codes.map FieldCode.maxLen).sum ≤ 456 := by
  have h1 := FieldCode.maxLen_ue_le f.ppsId
  have h2 := FieldCode.maxLen_ue_le f.spsId
  have h6 := FieldCode.maxLen_ue_le f.l0
  have h7 := FieldCode.maxLen_ue_le f.l1
  simp only [PpsFields.codes, h, List.map_cons, List.map_nil, List.sum_cons, List.sum_nil, FieldCode.maxLen_u,
    FieldCode.maxLen_flag, FieldCode.maxLen_se, FieldCode.maxLen_ue_zero]
  linarith

/-- The domain of field 5 has no negative value, and a positive one is not exported (R149). -/
theorem PpsFields.numSliceGroupsMinus1_eq_zero {f : PpsFields} (hcodes : f.codes.all FieldCode.legal = true)
    (hs : f.unsupported = false) : f.numSliceGroupsMinus1 = 0 := by
  have hmem : FieldCode.ue f.numSliceGroupsMinus1 ∈ f.codes := by simp [PpsFields.codes]
  obtain ⟨hnonneg, -⟩ := (ueLegal_iff _).1 (List.all_eq_true.1 hcodes _ hmem)
  have hle : ¬ 0 < f.numSliceGroupsMinus1 := f.unsupported_iff.not.1 (Bool.eq_false_iff.1 hs)
  omega

/-- An SPS with every field 0 but `frame_mbs_only_flag`, and the 4-byte start code: 76 bits before `FINALIZE`. -/
def smallestSps : SpsFields :=
  ⟨4, 3, 7, 0, false, false, false, 0, 0, 0, 0, 0, 0, false, 0, 0, true, false, false, false⟩

/-- A PPS with every field 0, and the 4-byte start code: 56 bits before `FINALIZE`. -/
def smallestPps : PpsFields :=
  ⟨4, 3, 8, 0, 0, false, false, 0, 0, 0, false, 0, 0, 0, 0, false, false, false⟩

/-- Settles O57: the fields' bounds add up to at most 470 and 456 bits of payload (`sum_maxLen_le`), which the start code, the
header and the trailing bits bring to 512 and 504 (`unitLen_bounds`). -/
theorem exportsAreBounded : Obligations.ExportsAreBounded := by
  refine ⟨fun f hlegal _ => ?_, fun f hlegal hs => ?_, ⟨smallestSps, by decide⟩, ⟨smallestPps, by decide⟩⟩
  · obtain ⟨-, hcodes⟩ := Bool.and_eq_true_iff.1 hlegal
    have hmin := f.le_sum_minLen
    have hmax := f.sum_maxLen_le
    exact unitLen_bounds (lo := 4) (hi := 59) _ hcodes (by omega) (by omega)
  · obtain ⟨-, hcodes⟩ := Bool.and_eq_true_iff.1 hlegal
    have hmin := f.sum_minLen
    have hmax := PpsFields.sum_maxLen_le (PpsFields.numSliceGroupsMinus1_eq_zero hcodes hs)
    exact unitLen_bounds (lo := 2) (hi := 58) _ hcodes (by omega) (by omega)

end Sys2Proof.Driver

/-! ### Faults, their priority and the phase machine (60_exceptions.md) -/

namespace Sys2Proof.Machine

open Sys2Proof.Spec

/-- Settles O41: a non-zero status is that of a raised cause (`execWord_faulted`), and raising a cause is the fault with its
code. -/
theorem faultLeavesNoPartialEffect : Obligations.FaultLeavesNoPartialEffect := by
  intro s t w r h hr h0
  obtain ⟨c, hc, rfl, rfl⟩ := execWord_faulted h hr h0
  obtain ⟨hne0, hne3⟩ := Cause.code_ne hc
  exact ⟨c.code, Nat.pos_of_ne_zero hne0, Nat.le_of_lt_succ c.code_lt, hne3, rfl,
    Host.Outcome.next.inj (raise_eq_faulted c s)⟩

/-! The checks of a command in the order it makes them: the phase (`phaseFault`), the operands, the capacity. -/

/-- The code of the operand or alignment check that fails, if one does (R171, codes 1, 2 and 6). -/
def operandCause (i : Instr) (s : State) : Option Nat :=
  match i with
  | .nalStart fzb _ _ _ => if fzb then some 2 else none
  | .appendBit b => if 1 < b then some 1 else none
  | .appendBits n raw => if n < 0 ∨ 2 ^ n.toNat ≤ raw then some 1 else none
  | .appendUe v => if v < 0 then some 2 else none
  | .toBytes => if s.buf.length % 8 ≠ 0 then some 6 else none
  | .beNew | .appendSe _ | .bitLength | .finalize | .flush => none

/-- Code 8 if the bits the command asks for do not fit (R171). -/
def capacityCause (i : Instr) (s : State) : Option Nat :=
  (askedBits i s).bind fun k => if s.fits k then none else some 8

/-- The code of the first check of a command that fails. -/
def firstCause (i : Instr) (s : State) : Option Nat :=
  (phaseFault i s.phase).or ((operandCause i s).or (capacityCause i s))

theorem firstCause_eq_some {i : Instr} {s : State} {c : Nat} (h : firstCause i s = some c) :
    phaseFault i s.phase = some c ∨
      phaseFault i s.phase = none ∧
        (operandCause i s = some c ∨ operandCause i s = none ∧ capacityCause i s = some c) := by
  simpa only [firstCause, Option.or_eq_some_iff] using h

theorem firstCause_eq_none {i : Instr} {s : State} (h : firstCause i s = none) :
    phaseFault i s.phase = none ∧ operandCause i s = none ∧ capacityCause i s = none := by
  simpa only [firstCause, Option.or_eq_none_iff] using h

theorem capacityCause_eq_some {i : Instr} {s : State} {c : Nat} (h : capacityCause i s = some c) :
    c = 8 ∧ ∃ k, askedBits i s = some k ∧ ¬ room s k := by
  obtain ⟨k, hk, hc⟩ := Option.bind_eq_some_iff.1 h
  split at hc
  · cases hc
  · exact ⟨(Option.some.inj hc).symm, k, hk, mt (fits_iff_room s k).2 ‹_›⟩

theorem fits_of_capacityCause_eq_none {i : Instr} {s : State} {k : Nat} (h : capacityCause i s = none)
    (hk : askedBits i s = some k) : s.fits k = true := by
  by_contra hfit
  simp [capacityCause, hk, hfit] at h

/-- An operand check that fails is the alignment of `TO_BYTES`, or a rejecting one of a command marked (op) (R180). -/
theorem operandCause_cases {i : Instr} {s : State} {c : Nat} (h : operandCause i s = some c) :
    (i = .toBytes ∧ c = 6) ∨ (hasOperandChecks i = true ∧ (c = 1 ∨ c = 2)) := by
  unfold operandCause at h
  split at h <;> simp_all [hasOperandChecks]

/-- The commands that append, `FINALIZE` among them, are marked (op) (R180). -/
theorem hasOperandChecks_of_askedBits {i : Instr} {s : State} {k : Nat} (h : askedBits i s = some k) :
    hasOperandChecks i = true := by
  cases i <;> cases h <;> rfl

/-! The rows of the phase table, as conditions on the phase (R180). -/

theorem phaseFault_append {i : Instr} (hi : isAppend i = true) (p : Phase) :
    phaseFault i p = if p.acceptsBits then none else some 4 := by
  cases i <;> cases hi <;> cases p <;> rfl

theorem phaseFault_append_eq_some {i : Instr} {s : State} {c : Nat} (hi : isAppend i = true)
    (h : phaseFault i s.phase = some c) : ¬ accepts s ∧ c = 4 := by
  rw [phaseFault_append hi] at h
  split at h
  · cases h
  · exact ⟨mt (accepts_iff s).1 ‹_›, (Option.some.inj h).symm⟩

theorem phaseFault_append_eq_none {i : Instr} {s : State} (hi : isAppend i = true) (h : phaseFault i s.phase = none) :
    s.phase.acceptsBits = true := by
  by_contra hp
  simp [phaseFault_append hi, hp] at h

theorem phaseFault_bitLength (p : Phase) : phaseFault .bitLength p = if p.live then none else some 4 := by
  cases p <;> rfl

theorem phaseFault_toBytes (p : Phase) : phaseFault .toBytes p = if p ≠ .raw then some 4 else none := by
  cases p <;> rfl

theorem phaseFault_finalize (p : Phase) : phaseFault .finalize p = if p ≠ .opened then some 4 else none := by
  cases p <;> rfl

theorem phaseFault_flush (p : Phase) :
    phaseFault .flush p = if p = .flushed then some 5 else if p ≠ .finalized then some 4 else none := by
  cases p <;> rfl

/-- Only the constructors are legal in `FAILED` (R179). -/
theorem phaseFault_failed {i : Instr} (hi : isConstructor i = false) : phaseFault i .failed = some 4 := by
  cases i <;> cases hi <;> rfl

/-- The cells of the phase table that name a fault are `IS` and `AF`. -/
theorem phaseFault_code {i : Instr} {p : Phase} {c : Nat} (h : phaseFault i p = some c) : c = 4 ∨ c = 5 := by
  cases i <;> cases p <;> cases h <;> decide

/-! A command that fails a check is that fault; a command that fails none has its effect. -/

/-- The phase check comes first: an `IS` or `AF` cell is the fault, whatever the operands. -/
theorem exec_of_phaseFault {i : Instr} {s : State} {c : Nat} (h : phaseFault i s.phase = some c) :
    exec i s = .next (faulted s c) := by
  cases i with
  | beNew => cases h
  | nalStart => cases h
  | appendBit b =>
    obtain ⟨ha, rfl⟩ := phaseFault_append_eq_some rfl h
    exact (appendBitIsAppendBitsOfWidthOne s b).trans (exec_appendBits_of_not_accepts 1 b ha)
  | appendBits n raw =>
    obtain ⟨ha, rfl⟩ := phaseFault_append_eq_some rfl h
    exact exec_appendBits_of_not_accepts n raw ha
  | appendUe v =>
    obtain ⟨ha, rfl⟩ := phaseFault_append_eq_some rfl h
    exact exec_appendUe_of_not_accepts v ha
  | appendSe v =>
    obtain ⟨ha, rfl⟩ := phaseFault_append_eq_some rfl h
    exact exec_appendSe_of_not_accepts v ha
  | bitLength =>
    simp only [phaseFault_bitLength, ite_eq_iff, reduceCtorEq, and_false, false_or, Option.some.injEq] at h
    obtain ⟨hp, rfl⟩ := h
    exact exec_bitLength_of_not_live hp
  | toBytes =>
    simp only [phaseFault_toBytes, Option.ite_none_right_eq_some, Option.some.injEq] at h
    obtain ⟨hp, rfl⟩ := h
    exact (if_pos hp).trans (raise_eq_faulted .invalidState s)
  | finalize =>
    simp only [phaseFault_finalize, Option.ite_none_right_eq_some, Option.some.injEq] at h
    obtain ⟨hp, rfl⟩ := h
    exact exec_finalize_of_not_opened hp
  | flush =>
    rw [phaseFault_flush] at h
    split at h
    case isTrue hp =>
      obtain rfl := Option.some.inj h
      exact (if_pos hp).trans (raise_eq_faulted .alreadyFlushed s)
    case isFalse hp =>
      simp only [Option.ite_none_right_eq_some, Option.some.injEq] at h
      obtain ⟨hfin, rfl⟩ := h
      exact (if_neg hp).trans ((if_pos hfin).trans (raise_eq_faulted .invalidState s))

theorem exec_of_operandCause {i : Instr} {s : State} {c : Nat} (hp : phaseFault i s.phase = none)
    (h : operandCause i s = some c) : exec i s = .next (faulted s c) := by
  cases i with
  | nalStart fzb ref typ longSc =>
    obtain ⟨rfl, rfl⟩ : fzb = true ∧ 2 = c := by simpa [operandCause] using h
    exact exec_nalStart_fzb s ref typ longSc
  | appendBit b =>
    have ha := (accepts_iff s).2 (phaseFault_append_eq_none rfl hp)
    obtain ⟨hb, rfl⟩ : 1 < b ∧ 1 = c := by simpa [operandCause] using h
    exact (appendBitIsAppendBitsOfWidthOne s b).trans (exec_appendBits_of_misfit ha (.inr hb))
  | appendBits n raw =>
    have ha := (accepts_iff s).2 (phaseFault_append_eq_none rfl hp)
    obtain ⟨hfit, rfl⟩ : (n < 0 ∨ 2 ^ n.toNat ≤ raw) ∧ 1 = c := by simpa [operandCause] using h
    exact exec_appendBits_of_misfit ha hfit
  | appendUe v =>
    have ha := (accepts_iff s).2 (phaseFault_append_eq_none rfl hp)
    obtain ⟨hv, rfl⟩ : v < 0 ∧ 2 = c := by simpa [operandCause] using h
    exact exec_appendUe_of_neg ha hv
  | toBytes =>
    have hraw : ¬ s.phase ≠ .raw := by simpa [phaseFault_toBytes] using hp
    obtain ⟨hlen, rfl⟩ : s.buf.length % 8 ≠ 0 ∧ 6 = c := by simpa [operandCause] using h
    exact (if_neg hraw).trans ((if_pos hlen).trans (raise_eq_faulted .notByteAligned s))
  | beNew | appendSe | bitLength | finalize | flush => cases h

theorem exec_of_capacityCause {i : Instr} {s : State} {c : Nat} (hp : phaseFault i s.phase = none)
    (ho : operandCause i s = none) (h : capacityCause i s = some c) : exec i s = .next (faulted s c) := by
  obtain ⟨rfl, k, hk, hr⟩ := capacityCause_eq_some h
  cases i with
  | appendBit b =>
    have ha := (accepts_iff s).2 (phaseFault_append_eq_none rfl hp)
    have hb : b ≤ 1 := by simpa [operandCause] using ho
    obtain rfl := Option.some.inj hk
    exact (appendBitIsAppendBitsOfWidthOne s b).trans
      (exec_appendBits_of_not_room (n := 1) ha (Nat.lt_succ_of_le hb) hr)
  | appendBits n raw =>
    have ha := (accepts_iff s).2 (phaseFault_append_eq_none rfl hp)
    obtain ⟨hn, hraw⟩ : 0 ≤ n ∧ raw < 2 ^ n.toNat := by simpa [operandCause] using ho
    obtain rfl := Option.some.inj hk
    lift n to Nat using hn
    exact exec_appendBits_of_not_room ha hraw hr
  | appendUe v =>
    have ha := (accepts_iff s).2 (phaseFault_append_eq_none rfl hp)
    have hv : 0 ≤ v := by simpa [operandCause] using ho
    obtain rfl := Option.some.inj hk
    rw [exec_appendUe_of_nonneg ha hv, appendRespond_of_not_room s.phase hr]
  | appendSe v =>
    have ha := (accepts_iff s).2 (phaseFault_append_eq_none rfl hp)
    obtain rfl := Option.some.inj hk
    rw [exec_appendSe_of_accepts v ha, appendRespond_of_not_room s.phase hr]
  | finalize =>
    have hopen : s.phase = .opened := by simpa [phaseFault_finalize] using hp
    obtain rfl := Option.some.inj hk
    rw [exec_finalize_of_opened hopen, appendRespond_of_not_room _ hr]
  | beNew | nalStart | bitLength | toBytes | flush => cases hk

theorem exec_of_firstCause {i : Instr} {s : State} {c : Nat} (h : firstCause i s = some c) :
    exec i s = .next (faulted s c) := by
  obtain hp | ⟨hp, ho | ⟨ho, hc⟩⟩ := firstCause_eq_some h
  · exact exec_of_phaseFault hp
  · exact exec_of_operandCause hp ho
  · exact exec_of_capacityCause hp ho hc

/-- The conditions of a command's effect are that every check passes. -/
theorem exists_effect_of_no_cause {i : Instr} {s : State} (h : firstCause i s = none) (hu : ¬ unalignedFlush i s) :
    ∃ u, Effect i s u := by
  obtain ⟨hp, ho, hc⟩ := firstCause_eq_none h
  cases i with
  | beNew => exact ⟨_, rfl⟩
  | nalStart fzb ref typ longSc => exact ⟨_, by simpa [operandCause] using ho, rfl⟩
  | appendBit b =>
    exact ⟨_, phaseFault_append_eq_none rfl hp, by simpa [operandCause] using ho, fits_of_capacityCause_eq_none hc rfl, rfl⟩
  | appendBits n raw =>
    obtain ⟨hn, hraw⟩ : 0 ≤ n ∧ raw < 2 ^ n.toNat := by simpa [operandCause] using ho
    exact ⟨_, phaseFault_append_eq_none rfl hp, hn, hraw, fits_of_capacityCause_eq_none hc rfl, rfl⟩
  | appendUe v =>
    exact ⟨_, phaseFault_append_eq_none rfl hp, by simpa [operandCause] using ho, fits_of_capacityCause_eq_none hc rfl, rfl⟩
  | appendSe v => exact ⟨_, phaseFault_append_eq_none rfl hp, fits_of_capacityCause_eq_none hc rfl, rfl⟩
  | bitLength => exact ⟨s, by simpa [phaseFault_bitLength] using hp, rfl⟩
  | toBytes => exact ⟨_, by simpa [phaseFault_toBytes] using hp, by simpa [operandCause, State.len] using ho, rfl⟩
  | finalize => exact ⟨_, by simpa [phaseFault_finalize] using hp, fits_of_capacityCause_eq_none hc rfl, rfl⟩
  | flush =>
    have hfin : s.phase = .finalized := by
      revert hp
      cases s.phase <;> decide
    exact ⟨_, hfin, by_contra fun hlen => hu ⟨rfl, hfin, hlen⟩, rfl⟩

theorem exec_of_effect {i : Instr} {s u : State} (h : Effect i s u) : exec i s = .next u.responded := by
  cases i with
  | beNew => obtain rfl := h; rfl
  | nalStart => obtain ⟨rfl, rfl⟩ := h; rfl
  | appendBit b =>
    obtain ⟨ha, hb, hfit, rfl⟩ := h
    simp [exec, execAppendBit, appendRespond_eq, ha, Nat.not_lt.2 hb, hfit]
  | appendBits n raw =>
    obtain ⟨ha, hn, hraw, hfit, rfl⟩ := h
    simp [exec, execAppendBits, appendRespond_eq, ha, Int.not_lt.2 hn, Nat.not_le.2 hraw, hfit]
  | appendUe v =>
    obtain ⟨ha, hv, hfit, rfl⟩ := h
    simp [exec, execAppendUe, appendRespond_eq, ha, Int.not_lt.2 hv, hfit]
  | appendSe v =>
    obtain ⟨ha, hfit, rfl⟩ := h
    simp [exec, execAppendSe, appendRespond_eq, ha, hfit]
  | bitLength =>
    obtain ⟨hlive, rfl⟩ := h
    exact exec_bitLength_of_live hlive
  | toBytes =>
    obtain ⟨hp, hlen, rfl⟩ := h
    simp [exec, execToBytes, respond_eq, hp, hlen]
  | finalize =>
    obtain ⟨hp, hfit, rfl⟩ := h
    simp [exec, execFinalize, appendRespond_eq, hp, State.len] at hfit ⊢
    simp [hfit]
  | flush =>
    obtain ⟨hp, hlen, rfl⟩ := h
    simp [exec, execFlush, respond_eq, hp, hlen]

/-- Every command, in every state but the unaligned `FINAL` of log 10: the first check that fails is the fault it raises, and
with none it has its effect and responds. -/
theorem exec_by_firstCause (i : Instr) (s : State) (hu : ¬ unalignedFlush i s) :
    (∃ c, firstCause i s = some c ∧ exec i s = .next (faulted s c)) ∨
    (firstCause i s = none ∧ ∃ u, Effect i s u ∧ exec i s = .next u.responded) := by
  cases hc : firstCause i s with
  | some c => exact .inl ⟨c, rfl, exec_of_firstCause hc⟩
  | none =>
    obtain ⟨u, he⟩ := exists_effect_of_no_cause hc hu
    exact .inr ⟨rfl, u, he, exec_of_effect he⟩

/-! The order of priority (R176). -/

/-- The checks of R171 taken by themselves are those of the command that was decoded, each where its code stands. -/
theorem applies_of_legal {w : CmdWord} {i : Instr} (h : decode w = .legal i) (s : State) :
    applies w s 7 = false ∧ applies w s 5 = (phaseFault i s.phase == some 5) ∧
      applies w s 4 = (phaseFault i s.phase).isSome ∧ applies w s 1 = (operandCause i s == some 1) ∧
      applies w s 2 = (operandCause i s == some 2) ∧ applies w s 6 = (operandCause i s == some 6) ∧
      applies w s 8 = (capacityCause i s).isSome := by
  simp only [applies, h, true_and]
  refine ⟨?_, ?_, ?_, ?_⟩ <;> rw [Bool.eq_iff_iff]
  · cases i <;> simp [operandCause, or_iff_not_imp_left]
  · cases i <;> simp [operandCause]
  · cases i <;> simp [operandCause]
  · cases hk : askedBits i s <;> cases hc : s.cap <;>
      simp [capacityCause, hk, hc, fits_iff_room, room]

/-- The order of priority is the order in which a command makes its checks. -/
theorem find?_priority_of_legal {w : CmdWord} {i : Instr} (h : decode w = .legal i) (s : State) :
    priority.find? (applies w s) = firstCause i s := by
  obtain ⟨h7, h5, h4, h1, h2, h6, h8⟩ := applies_of_legal h s
  simp only [priority, List.find?, h7, h5, h4, h1, h2, h6, h8]
  unfold firstCause
  cases hp : phaseFault i s.phase with
  | some c => obtain rfl | rfl := phaseFault_code hp <;> rfl
  | none =>
    cases ho : operandCause i s with
    | some c => obtain ⟨-, rfl⟩ | ⟨-, rfl | rfl⟩ := operandCause_cases ho <;> rfl
    | none =>
      cases hc : capacityCause i s with
      | some c =>
        obtain ⟨rfl, -⟩ := capacityCause_eq_some hc
        rfl
      | none => rfl

theorem find?_priority_of_not_legal {w : CmdWord} (h : ∀ i, decode w ≠ .legal i) (s : State) :
    priority.find? (applies w s) = some 7 := by
  refine List.find?_cons_of_pos ?_
  unfold applies
  split
  · exact absurd ‹_› (h _)
  · rfl

/-- Settles O42: the causes that apply, taken in the order of priority, are the command's checks in the order it makes them
(`find?_priority_of_legal`), and `exec` raises the first (`exec_by_firstCause`). -/
theorem firstApplicableCauseIsReported : Obligations.FirstApplicableCauseIsReported := by
  intro s w hu
  obtain ⟨i, hi, hx⟩ | ⟨hw, hx⟩ := execWord_cases w s
  · rw [hx, find?_priority_of_legal hi]
    obtain ⟨c, hc, he⟩ | ⟨hc, u, -, he⟩ := exec_by_firstCause i s (hu i hi)
    · exact ⟨_, _, he, rfl, by rw [hc]; rfl⟩
    · exact ⟨_, _, he, rfl, by rw [hc]; rfl⟩
  · exact ⟨_, _, hx, rfl, by rw [find?_priority_of_not_legal hw]; rfl⟩

/-! Which command can raise which cause (R177). -/

/-- Past the phase check, `NotByteAligned` of `TO_BYTES` is the only fault that is no rejecting one of a command marked (op)
(R180). -/
theorem firstCause_of_phase_ok {i : Instr} {s : State} {c : Nat} (hp : phaseFault i s.phase = none)
    (h : firstCause i s = some c) :
    (i = .toBytes ∧ c = 6) ∨ (hasOperandChecks i = true ∧ (c = 1 ∨ c = 2 ∨ c = 8)) := by
  obtain hp' | ⟨-, ho | ⟨-, hc⟩⟩ := firstCause_eq_some h
  · cases hp.symm.trans hp'
  · exact (operandCause_cases ho).imp_right fun ⟨hi, hc⟩ => ⟨hi, hc.imp_right .inl⟩
  · obtain ⟨rfl, k, hk, -⟩ := capacityCause_eq_some hc
    exact .inr ⟨hasOperandChecks_of_askedBits hk, .inr (.inr rfl)⟩

/-- The cells `IS` and `AF` of the phase table (R180) are crosses of the table of causes, row by row. -/
theorem mem_canRaise_of_phaseFault {i : Instr} {p : Phase} {c : Nat} (h : phaseFault i p = some c) : c ∈ canRaise i := by
  cases i <;> cases p <;> cases h <;> simp [canRaise]

theorem mem_canRaise_of_firstCause {i : Instr} {s : State} {c : Nat} (h : firstCause i s = some c) : c ∈ canRaise i := by
  obtain hp | ⟨-, ho | ⟨-, hc⟩⟩ := firstCause_eq_some h
  · exact mem_canRaise_of_phaseFault hp
  · unfold operandCause at ho
    split at ho <;> simp_all [canRaise]
  · obtain ⟨rfl, k, hk, -⟩ := capacityCause_eq_some hc
    cases i <;> cases hk <;> simp [canRaise]

/-- A command with this one's opcode that raises the cause in `raisingState c`: an operand out of its range for the codes 1 and
2, a small one for the others. -/
def raisingCommand (i : Instr) (c : Nat) : Instr :=
  match i with
  | .nalStart _ _ _ _ => .nalStart true 0 0 false
  | .appendBit _ => .appendBit (if c = 1 then 2 else 0)
  | .appendBits _ _ => .appendBits (if c = 1 then -1 else 1) 0
  | .appendUe _ => .appendUe (if c = 2 then -1 else 0)
  | .appendSe _ => .appendSe 0
  | .beNew | .bitLength | .toBytes | .finalize | .flush => i

/-- A state in which the commands that can raise the cause with this code do: after reset for `InvalidState`, a flushed unit, an
unaligned emitter, a full buffer of the smallest capacity, and an empty writer for the operand checks. -/
def raisingState (c : Nat) : State :=
  match c with
  | 4 => State.reset
  | 5 => { State.reset with phase := .flushed }
  | 6 => { State.reset with phase := .raw, buf := [true] }
  | 8 => { State.reset with phase := .opened, cap := some Config.capMin, buf := zeros Config.capMin }
  | _ => { State.reset with phase := .opened }

theorem raisingCommand_raises {i : Instr} {c : Nat} (h : c ∈ canRaise i) :
    (raisingCommand i c).opcode = i.opcode ∧ (raisingCommand i c).wf = true ∧
      firstCause (raisingCommand i c) (raisingState c) = some c := by
  cases i with
  | beNew => cases h
  | nalStart =>
    obtain rfl := List.mem_singleton.1 h
    exact ⟨rfl, rfl, rfl⟩
  | appendBit | appendBits | appendUe =>
    simp only [canRaise, List.mem_cons, List.not_mem_nil, or_false] at h
    obtain rfl | rfl | rfl := h <;> exact ⟨rfl, rfl, rfl⟩
  | appendSe | toBytes | finalize | flush =>
    simp only [canRaise, List.mem_cons, List.not_mem_nil, or_false] at h
    obtain rfl | rfl := h <;> exact ⟨rfl, rfl, rfl⟩
  | bitLength =>
    obtain rfl := List.mem_singleton.1 h
    exact ⟨rfl, rfl, rfl⟩

/-- The unaligned `FINAL` of log 10 answers no next state. -/
theorem not_unalignedFlush_of_next {i : Instr} {s t : State} (h : exec i s = .next t) : ¬ unalignedFlush i s := by
  rintro ⟨rfl, hp, hlen⟩
  simp [exec, execFlush, hp, State.len, hlen] at h

/-- Settles O43: the first check that fails is one of the command's own (`mem_canRaise_of_firstCause`), and each cause has its
witness (`raisingCommand_raises`). -/
theorem commandsRaiseOnlyTheirCauses : Obligations.CommandsRaiseOnlyTheirCauses := by
  refine ⟨fun i s t r h hr => ?_, fun i c hc => ?_⟩
  · obtain ⟨c, hc, he⟩ | ⟨-, u, -, he⟩ := exec_by_firstCause i s (not_unalignedFlush_of_next h)
    · obtain rfl := Host.Outcome.next.inj (h.symm.trans he)
      exact .inr ⟨c, mem_canRaise_of_firstCause hc, by rw [← Option.some.inj hr]⟩
    · obtain rfl := Host.Outcome.next.inj (h.symm.trans he)
      exact .inl (by rw [← Option.some.inj hr]; rfl)
  · obtain ⟨hop, hwf, hfirst⟩ := raisingCommand_raises hc
    exact ⟨_, _, _, _, hop, hwf, exec_of_firstCause hfirst, rfl, rfl⟩

/-! The phase table (R180). -/

/-- A success leaves the phase its cell of the table names. -/
theorem Effect.phase_eq {i : Instr} {s u : State} (h : Effect i s u) : u.phase = phaseAfter i s.phase := by
  cases i with
  | beNew => obtain rfl := h; rfl
  | nalStart => obtain ⟨-, rfl⟩ := h; rfl
  | appendBit => obtain ⟨-, -, -, rfl⟩ := h; rfl
  | appendBits => obtain ⟨-, -, -, -, rfl⟩ := h; rfl
  | appendUe => obtain ⟨-, -, -, rfl⟩ := h; rfl
  | appendSe => obtain ⟨-, -, rfl⟩ := h; rfl
  | bitLength => obtain ⟨-, rfl⟩ := h; rfl
  | toBytes => obtain ⟨-, -, rfl⟩ := h; rfl
  | finalize => obtain ⟨-, -, rfl⟩ := h; rfl
  | flush => obtain ⟨-, -, rfl⟩ := h; rfl

/-- Settles O44: a failed phase check is the cell `IS` or `AF`, a later one is told by `firstCause_of_phase_ok`, and a success
leaves the phase the cell names (`Effect.phase_eq`). -/
theorem phaseTable : Obligations.PhaseTable := by
  intro i s hu
  obtain ⟨c, hc, he⟩ | ⟨hc, u, heff, he⟩ := exec_by_firstCause i s hu
  · refine ⟨_, _, he, rfl, fun c' hc' => ?_, fun hp h0 => ?_, fun hp _ => ?_⟩ <;> rw [deliver_phase]
    · obtain rfl : c' = c := by simpa [firstCause, hc'] using hc
      obtain rfl | rfl := phaseFault_code hc' <;> exact ⟨rfl, rfl⟩
    · obtain ⟨-, rfl⟩ | ⟨-, rfl | rfl | rfl⟩ := firstCause_of_phase_ok hp hc <;> cases h0
    · obtain ⟨rfl, rfl⟩ | ⟨hi, rfl | rfl | rfl⟩ := firstCause_of_phase_ok hp hc
      · exact .inl ⟨rfl, rfl, rfl⟩
      · exact .inr ⟨hi, .inl rfl, rfl⟩
      · exact .inr ⟨hi, .inr (.inl rfl), rfl⟩
      · exact .inr ⟨hi, .inr (.inr rfl), rfl⟩
  · obtain ⟨hp, -, -⟩ := firstCause_eq_none hc
    refine ⟨_, _, he, rfl, fun c' hc' => ?_, fun _ _ => ?_, fun _ h0 => absurd rfl h0⟩
    · rw [hp] at hc'
      cases hc'
    · rw [deliver_phase]
      exact heff.phase_eq

/-! Leaving `FAILED` (R179). -/

theorem faulted_phase_of_failed {s : State} (hf : s.phase = .failed) (c : Nat) : (faulted s c).phase = .failed := by
  simp [faulted, hf]

@[simp] theorem faulted_rspPort (s : State) (c : Nat) : (faulted s c).rspPort = some ⟨BitVec.ofNat 8 c, 0⟩ := rfl

/-- What a word does in `FAILED` (R179): a constructor leaves it, `NAL_START` with `forbidden_zero_bit` 1 is refused, every other
command is illegal in the phase, and a word that is no command is that in every phase. -/
theorem execWord_of_failed {w : CmdWord} {s t : State} (hf : s.phase = .failed) (h : execWord w s = .next t) :
    ((decode w = .legal .beNew ∨ ∃ ref typ longSc, decode w = .legal (.nalStart false ref typ longSc)) ∧
      t.phase ≠ .failed) ∨
    (∃ ref typ longSc, decode w = .legal (.nalStart true ref typ longSc) ∧ t = faulted s 2) ∨
    (∃ i, decode w = .legal i ∧ isConstructor i = false ∧ t = faulted s 4) ∨
    ((∀ i, decode w ≠ .legal i) ∧ t = faulted s 7) := by
  obtain ⟨i, hi, he⟩ | ⟨hw, he⟩ := execWord_cases w s
  · rw [he] at h
    cases hcon : isConstructor i with
    | false =>
      refine .inr (.inr (.inl ⟨i, hi, hcon, Host.Outcome.next.inj (h.symm.trans (exec_of_phaseFault ?_))⟩))
      rw [hf, phaseFault_failed hcon]
    | true =>
      cases i with
      | beNew =>
        obtain rfl := Host.Outcome.next.inj h
        exact .inl ⟨.inl hi, by simp⟩
      | nalStart fzb ref typ longSc =>
        cases fzb with
        | true => exact .inr (.inl ⟨_, _, _, hi, Host.Outcome.next.inj (h.symm.trans (exec_nalStart_fzb ..))⟩)
        | false =>
          obtain rfl := Host.Outcome.next.inj h
          exact .inl ⟨.inr ⟨_, _, _, hi⟩, by simp⟩
      | appendBit | appendBits | appendUe | appendSe | bitLength | toBytes | finalize | flush => cases hcon
  · exact .inr (.inr (.inr ⟨hw, Host.Outcome.next.inj (h.symm.trans he)⟩))

/-- Settles O45: the four kinds of words in `FAILED` (`execWord_of_failed`), and no word clears a bit of the mask
(`execWord_faults_unread`). -/
theorem onlyConstructorsLeaveFailed : Obligations.OnlyConstructorsLeaveFailed := by
  intro s t w hf h
  obtain ⟨d, hd, -⟩ := execWord_faults_unread h
  refine and_left_comm.1 ⟨fun c hc => by simp [hd, hc], ?_⟩
  obtain ⟨hw, ht⟩ | ⟨ref, typ, longSc, hw, rfl⟩ | ⟨i, hw, hcon, rfl⟩ | ⟨hw, rfl⟩ := execWord_of_failed hf h
  · obtain hw | ⟨ref, typ, longSc, hw⟩ := hw <;> simp [hw, ht, isConstructor]
  · simp [hw, faulted_phase_of_failed hf, isConstructor]
  · refine ⟨iff_of_false (not_not.2 (faulted_phase_of_failed hf 4)) ?_,
      fun r hr => ⟨fun _ _ _ => ?_, fun hno => absurd hw (hno i), ?_⟩⟩
    · rintro (hi | ⟨_, _, _, hi⟩) <;> cases hw.symm.trans hi <;> cases hcon
    · rw [← Option.some.inj hr]; rfl
    · rintro _ _ _ hi
      cases hw.symm.trans hi
      cases hcon
  · simp [hw, faulted_phase_of_failed hf]

end Sys2Proof.Machine

/-! ### Decoding and encoding are inverse (30_encoding.md sections 2 to 4) -/

namespace Sys2Proof

/-- The decoder undoes the encoder on every command a word can carry: its reserved fields are zero, and each operand is read back
from the field it was put into (R57, R63). -/
theorem decode_encode {i : Instr} (h : i.wf = true) : decode (encode i) = .legal i := by
  cases i with
  | nalStart fzb ref typ longSc =>
    obtain ⟨href, htyp⟩ : ref < 4 ∧ typ < 32 := by simpa [Instr.wf] using h
    exact decode_encode_nalStart fzb longSc href htyp
  | appendBit b =>
    have hb : b < 2 ^ 32 := of_decide_eq_true h
    calc decode (encode (.appendBit b))
      _ = .legal (.appendBit (BitVec.ofNat 32 b).toNat) := decode_mkWord ..
      _ = .legal (.appendBit b) := by rw [BitVec.toNat_ofNat, Nat.mod_eq_of_lt hb]
  | appendBits n raw =>
    obtain ⟨⟨hge, hle⟩, hraw⟩ : (-128 ≤ n ∧ n ≤ 127) ∧ raw < 2 ^ 32 := by simpa [Instr.wf] using h
    calc decode (encode (.appendBits n raw))
      _ = .legal (.appendBits (BitVec.ofInt 8 n).toInt (BitVec.ofNat 32 raw).toNat) := decode_mkWord ..
      _ = .legal (.appendBits n raw) := by
        rw [BitVec.toInt_ofInt_eq_self (by decide) hge (Int.lt_add_one_of_le hle), BitVec.toNat_ofNat, Nat.mod_eq_of_lt hraw]
  | appendUe v =>
    obtain ⟨hge, hlt⟩ : -2 ^ 31 ≤ v ∧ v < 2 ^ 31 := by simpa [Instr.wf] using h
    calc decode (encode (.appendUe v))
      _ = .legal (.appendUe (BitVec.ofInt 32 v).toInt) := decode_mkWord ..
      _ = .legal (.appendUe v) := by rw [BitVec.toInt_ofInt_eq_self (by decide) hge hlt]
  | appendSe v =>
    obtain ⟨hge, hlt⟩ : -2 ^ 31 ≤ v ∧ v < 2 ^ 31 := by simpa [Instr.wf] using h
    calc decode (encode (.appendSe v))
      _ = .legal (.appendSe (BitVec.ofInt 32 v).toInt) := decode_mkWord ..
      _ = .legal (.appendSe v) := by rw [BitVec.toInt_ofInt_eq_self (by decide) hge hlt]
  | beNew | bitLength | toBytes | finalize | flush => decide

/-- Settles O7: every operand is read back from its field (`decode_encode`). -/
theorem decodeOfEncodeIsTheCommand : Obligations.DecodeOfEncodeIsTheCommand := fun _ => decode_encode

theorem extractLsb'_one_eq_ofBool {w : Nat} (x : BitVec w) (k : Nat) : x.extractLsb' k 1 = BitVec.ofBool (x.getLsbD k) := by
  apply BitVec.eq_of_getLsbD_eq
  intro i hi
  obtain rfl : i = 0 := by omega
  simp

/-- The header byte is its three fields (R57). -/
theorem headerAux_extract (aux : BitVec 8) :
    headerAux (aux.getLsbD 7) (aux.extractLsb' 5 2).toNat (aux.extractLsb' 0 5).toNat = aux := by
  have hhigh : aux.extractLsb' 7 1 ++ aux.extractLsb' 5 2 = aux.extractLsb' 5 3 :=
    BitVec.extractLsb'_append_extractLsb'_eq_extractLsb' rfl
  rw [headerAux, BitVec.ofNat_toNat, BitVec.ofNat_toNat, BitVec.setWidth_eq, BitVec.setWidth_eq,
    ← extractLsb'_one_eq_ofBool, hhigh]
  exact BitVec.extractLsb'_append_extractLsb' (w := 3)

/-- `NAL_START`'s `imm` is its start-code bit below reserved zeros (R57). -/
theorem nalStart_imm_eq {imm : BitVec 32} (h : imm.extractLsb' 1 31 = 0) :
    (if imm.getLsbD 0 then 1#32 else 0#32) = imm := by
  have hsplit : imm.extractLsb' 1 31 ++ imm.extractLsb' 0 1 = imm := BitVec.extractLsb'_append_extractLsb' (w := 31)
  rw [h, extractLsb'_one_eq_ofBool] at hsplit
  calc (if imm.getLsbD 0 then 1#32 else 0#32)
    _ = 0#31 ++ BitVec.ofBool (imm.getLsbD 0) := by cases imm.getLsbD 0 <;> decide
    _ = imm := hsplit

/-- The operands read from `NAL_START`'s header byte are in their ranges (R57). -/
theorem decodeNalStart_wf (aux : BitVec 8) (imm : BitVec 32) : (decodeNalStart aux imm).wf = true :=
  Bool.and_eq_true_iff.2 ⟨decide_eq_true (aux.extractLsb' 5 2).isLt, decide_eq_true (aux.extractLsb' 0 5).isLt⟩

/-- A field read as a signed number is in the range of its width (R61, R63). -/
theorem toInt_range {w : Nat} (x : BitVec w) :
    (decide (-2 ^ (w - 1) ≤ x.toInt) && decide (x.toInt < 2 ^ (w - 1))) = true :=
  Bool.and_eq_true_iff.2 ⟨decide_eq_true (BitVec.le_toInt x), decide_eq_true BitVec.toInt_lt⟩

/-- A decoded command is in range, and its operands go back into the fields they were read from (R57, R63). -/
theorem decodeFields_legal {op aux : BitVec 8} {imm : BitVec 32} {i : Instr} (h : decodeFields op aux imm = .legal i) :
    i.wf = true ∧ i.opcode = op ∧ i.aux = aux ∧ i.imm = imm := by
  obtain ⟨rfl, ⟨rfl, rfl, rfl⟩ | ⟨rfl, hzero⟩ | ⟨rfl, rfl⟩ | rfl | ⟨rfl, rfl⟩ | ⟨rfl, rfl⟩ | ⟨rfl, rfl, rfl⟩ |
    ⟨rfl, rfl, rfl⟩ | ⟨rfl, rfl, rfl⟩ | ⟨rfl, rfl, rfl⟩⟩ := decodeFields_cases op aux imm i h
  · exact ⟨rfl, rfl, rfl, rfl⟩
  · exact ⟨decodeNalStart_wf aux imm, rfl, headerAux_extract aux, nalStart_imm_eq hzero⟩
  · exact ⟨decide_eq_true imm.isLt, rfl, rfl, BitVec.ofNat_toNat 32 imm |>.trans (BitVec.setWidth_eq imm)⟩
  · have hge : -128 ≤ aux.toInt := BitVec.le_toInt aux
    have hlt : aux.toInt < 128 := BitVec.toInt_lt
    refine ⟨?_, rfl, BitVec.ofInt_toInt, BitVec.ofNat_toNat 32 imm |>.trans (BitVec.setWidth_eq imm)⟩
    simp only [Instr.wf, Bool.and_eq_true, decide_eq_true_eq]
    exact ⟨⟨hge, Int.le_of_lt_add_one hlt⟩, imm.isLt⟩
  · exact ⟨toInt_range imm, rfl, rfl, BitVec.ofInt_toInt⟩
  · exact ⟨toInt_range imm, rfl, rfl, BitVec.ofInt_toInt⟩
  all_goals exact ⟨rfl, rfl, rfl, rfl⟩

/-- Settles O8: the word is its three fields, and they are the command's (`decodeFields_legal`). -/
theorem encodeOfDecodeIsTheWord : Obligations.EncodeOfDecodeIsTheWord := by
  intro w i h
  obtain ⟨hwf, hop, haux, himm⟩ := decodeFields_legal h
  exact ⟨hwf, by rw [encode, hop, haux, himm, mkWord_fields]⟩

end Sys2Proof

/-! ### What one command does: its frame, where it stops, the bytes it emits -/

namespace Sys2Proof.Machine

open Sys2Proof.Spec

/-- A command that answers a next state succeeds with its effect, or raises a cause of the block on the old state. -/
theorem exec_next {i : Instr} {s t : State} (h : exec i s = .next t) :
    (∃ u, Effect i s u ∧ t = u.responded) ∨ (∃ c, c ≠ .unsupportedFeature ∧ t = s.raised c) := by
  obtain ⟨u, hu, hx⟩ | ⟨c, hc, -, hx⟩ | ⟨-, -, -, hx⟩ := exec_cases i s
  · exact .inl ⟨u, hu, Host.Outcome.next.inj (h.symm.trans hx)⟩
  · exact .inr ⟨c, hc, Host.Outcome.next.inj (h.symm.trans hx)⟩
  · cases h.symm.trans hx

/-- A success of a command other than `TO_BYTES` and `FLUSH` writes the buffer and the phase only. -/
theorem Effect.writes_buf_phase {i : Instr} {s u : State} (h : Effect i s u) (htb : i ≠ .toBytes) (hfl : i ≠ .flush) :
    u = { s with buf := u.buf, phase := u.phase } := by
  cases i with
  | beNew => obtain rfl := h; rfl
  | nalStart => obtain ⟨-, rfl⟩ := h; rfl
  | appendBit => obtain ⟨-, -, -, rfl⟩ := h; rfl
  | appendBits => obtain ⟨-, -, -, -, rfl⟩ := h; rfl
  | appendUe => obtain ⟨-, -, -, rfl⟩ := h; rfl
  | appendSe => obtain ⟨-, -, rfl⟩ := h; rfl
  | bitLength => obtain ⟨-, rfl⟩ := h; rfl
  | toBytes => exact absurd rfl htb
  | finalize => obtain ⟨-, -, rfl⟩ := h; rfl
  | flush => exact absurd rfl hfl

theorem Effect.bytePort_eq {i : Instr} {s u : State} (h : Effect i s u) (htb : i ≠ .toBytes) (hfl : i ≠ .flush) :
    u.bytePort = s.bytePort := by
  rw [h.writes_buf_phase htb hfl]

theorem Effect.ret_eq {i : Instr} {s u : State} (h : Effect i s u) (htb : i ≠ .toBytes) : u.ret = s.ret := by
  by_cases hfl : i = .flush
  · subst hfl
    obtain ⟨-, -, rfl⟩ := h
    rfl
  · rw [h.writes_buf_phase htb hfl]

/-- Only the appends, `FINALIZE` and the constructors write the buffer. -/
theorem Effect.buf_eq {i : Instr} {s u : State} (h : Effect i s u) (happ : isAppend i = false)
    (hcon : isConstructor i = false) (hfin : i ≠ .finalize) : u.buf = s.buf := by
  cases i with
  | bitLength => obtain ⟨-, rfl⟩ := h; rfl
  | toBytes => obtain ⟨-, -, rfl⟩ := h; rfl
  | flush => obtain ⟨-, -, rfl⟩ := h; rfl
  | finalize => exact absurd rfl hfin
  | beNew | nalStart => cases hcon
  | appendBit | appendBits | appendUe | appendSe => cases happ

theorem phaseAfter_append {i : Instr} (hi : isAppend i = true) (p : Phase) : phaseAfter i p = p := by
  cases i <;> cases hi <;> rfl

theorem State.raised_phase_cases (s : State) (c : Cause) : (s.raised c).phase = s.phase ∨ (s.raised c).phase = .failed := by
  rw [State.raised_phase]
  split
  · exact .inr rfl
  · exact .inl rfl

theorem raised_rspPort_ne_okRsp (s : State) (c : Cause) (n : Nat) : (s.raised c).rspPort ≠ some (okRsp n) := by
  intro h
  have hstatus : (faultResponse c).status = 0 := congrArg Response.status (Option.some.inj h)
  exact faultResponse_status_ne_zero c hstatus

/-- Settles O48: what no command writes is told by `exec_local`; the rest is the effect of a success, field by field, or a raised
cause, which writes the mask, the phase and the response only. -/
theorem commandFrame : Obligations.CommandFrame := by
  intro i s t h
  obtain ⟨_, _, _, _, _, _, ht, -⟩ := exec_local i s t h
  refine ⟨by rw [ht]; rfl, by rw [ht]; rfl, by rw [ht]; rfl, by rw [ht]; rfl, by rw [ht]; rfl, ?_⟩
  obtain ⟨u, hu, rfl⟩ | ⟨c, -, rfl⟩ := exec_next h
  · refine ⟨hu.bytePort_eq, hu.ret_eq, hu.buf_eq, fun _ => hu.faults_eq, fun happ => .inl ?_⟩
    exact hu.phase_eq.trans (phaseAfter_append happ _)
  · exact ⟨fun _ _ => rfl, fun _ => rfl, fun _ _ _ => rfl, fun h => absurd h (raised_rspPort_ne_okRsp s c _),
      fun _ => s.raised_phase_cases c⟩

/-! Where the machine stops (log 10). -/

theorem exec_unalignedFlush {i : Instr} {s : State} (h : unalignedFlush i s) : exec i s = .fault .packUndefined := by
  obtain ⟨rfl, hp, hlen⟩ := h
  simp [exec, execFlush, hp, State.len, hlen]

/-- Every other command answers a next state: the fault of its first failed check, or its effect. -/
theorem exec_total {i : Instr} {s : State} (h : ¬ unalignedFlush i s) : ∃ t, exec i s = .next t := by
  obtain ⟨_, -, he⟩ | ⟨-, _, -, he⟩ := exec_by_firstCause i s h
  · exact ⟨_, he⟩
  · exact ⟨_, he⟩

/-- I-d of R23: in `FINAL` the buffer is whole bytes. -/
theorem State.Inv.not_unalignedFlush {s : State} (h : s.Inv) (i : Instr) : ¬ unalignedFlush i s := by
  rintro ⟨-, hp, hlen⟩
  obtain ⟨halign, -, -⟩ := h.closed (by rw [hp]; rfl)
  exact hlen halign

/-- Settles O31: the unaligned `FINAL` stops (`exec_unalignedFlush`), nothing else does (`exec_total`), and I-d rules it out. -/
theorem machineStopsOnlyWherePackIsUndefined : Obligations.MachineStopsOnlyWherePackIsUndefined :=
  ⟨fun _ _ => exec_unalignedFlush, fun _ _ => exec_total, fun i _ h => h.not_unalignedFlush i⟩

/-! Reading an appended field back (R83, R31). -/

/-- Settles O14: the added bits are the field's (`exec_appendBits_of_room`), and reading them gives the value below `2^n`
(`natOfBits_bitsMsb_of_lt`). -/
theorem appendedFieldReadsBack : Obligations.AppendedFieldReadsBack := by
  intro s n raw ha hraw hr
  refine ⟨_, exec_appendBits_of_room ha hraw hr, List.prefix_append .., by simp [appended], ?_⟩
  have hnew : (appended s (bitsMsb raw n)).buf.drop s.buf.length = bitsMsb raw n := List.drop_left
  rw [hnew, natOfBits_bitsMsb_of_lt hraw]

/-! `TO_BYTES` and `FLUSH`, check by check (R116, R131). -/

/-- Settles O26: the phase, then the alignment, then the effect of a success. -/
theorem toBytesEmitsPackedBuffer : Obligations.ToBytesEmitsPackedBuffer := by
  refine ⟨encodedAs_of_no_operands (m := "TO_BYTES") fun _ _ => rfl,
    fun s => ⟨fun hp => exec_of_phaseFault ?_, fun hp hlen => exec_of_operandCause ?_ ?_, fun hp hlen => ?_⟩⟩
  · rw [phaseFault_toBytes, if_pos hp]
  · rw [phaseFault_toBytes, if_neg (not_not.2 hp)]
  · rw [operandCause, if_pos hlen]
  · exact exec_of_effect (i := .toBytes) ⟨hp, hlen, rfl⟩

/-- Settles O30: the two cells of the phase table, then the effect of a success. -/
theorem flushEmitsUnitToSink : Obligations.FlushEmitsUnitToSink := by
  refine ⟨encodedAs_of_no_operands (m := "FLUSH") fun _ _ => rfl,
    fun s => ⟨fun hp => exec_of_phaseFault ?_, fun hfl hfin => exec_of_phaseFault ?_, fun hp hlen => ?_⟩⟩
  · rw [phaseFault_flush, if_pos hp]
  · rw [phaseFault_flush, if_neg hfl, if_pos hfin]
  · exact exec_of_effect (i := .flush) ⟨hp, hlen, rfl⟩

/-! Reset and the step. -/

/-- Settles O1: the reset state is a literal, and its outputs compute. -/
theorem resetStateIsIdleEmptyNoFaults : Obligations.ResetStateIsIdleEmptyNoFaults :=
  ⟨rfl, rfl, rfl, rfl, rfl, rfl, rfl, rfl, rfl, rfl⟩

theorem step_offer {s : State} {w : CmdWord} {rest : List HostMove} (hready : cmdReady s = true)
    (hmoves : s.moves = .offer w :: rest) : step s = execWord w (s.consume rest) := by
  simp [step, runMove, hmoves, hready]

/-- Settles O3: the transfer of the word (`step_offer`, `step_command`) executes the command it decodes to. -/
theorem stepRunsDecodedCommand : Obligations.StepRunsDecodedCommand := by
  refine fun s w i rest hready hw => ⟨fun hmoves => ?_, fun hmoves => ?_⟩
  · rw [step_offer hready hmoves, execWord_legal w i _ hw]
    rfl
  · rw [step_command hready hmoves, execWord_legal w i _ hw]
    rfl

end Sys2Proof.Machine

/-! ### The byte port and the response port (30_encoding.md R50 to R56) -/

namespace Sys2Proof.Machine

open Sys2Proof.Spec

/-- Settles O33, by induction on the bytes: `last` moves on with the tail, and is set where the tail is one byte. -/
theorem emitBeatsCarryBytesInOrder : Obligations.EmitBeatsCarryBytesInOrder := by
  refine fun d bytes => ⟨beatsOf_length d bytes, fun j => ?_⟩
  induction bytes generalizing j with
  | nil => rfl
  | cons b bs ih =>
    cases bs with
    | nil => cases j <;> simp [beatsOf]
    | cons c cs =>
      cases j with
      | zero => simp [beatsOf]
      | succ j => simpa [beatsOf] using ih j

/-! When the response is on offer (R55). -/

theorem rspValid_iff (s : State) : rspValid s = true ↔ s.rspPort.isSome = true ∧ s.bytePort = [] := by
  simp [rspValid, List.isEmpty_iff]

theorem boValid_iff (s : State) : boValid s = true ↔ s.bytePort ≠ [] := by
  simp [boValid]

@[simp] theorem takeBeats_bytePort (k : Nat) (s : State) : (State.takeBeats k s).bytePort = s.bytePort.drop k := by
  obtain ⟨-, -, -, -, -, -, -, -, h⟩ := takeBeats_frame k s
  exact h

@[simp] theorem takeBeats_rspPort (k : Nat) (s : State) : (State.takeBeats k s).rspPort = s.rspPort := by
  obtain ⟨-, -, -, -, h, -⟩ := takeBeats_frame k s
  exact h

@[simp] theorem takeBeats_responses (k : Nat) (s : State) : (State.takeBeats k s).responses = s.responses := by
  obtain ⟨-, -, -, -, -, h, -⟩ := takeBeats_frame k s
  exact h

/-- A word that is neither `FLUSH` nor `TO_BYTES` puts no beat on the byte port. -/
theorem execWord_bytePort {w : CmdWord} {s t : State} (h : execWord w s = .next t) (hfl : decode w ≠ .legal .flush)
    (htb : decode w ≠ .legal .toBytes) : t.bytePort = s.bytePort := by
  obtain ⟨i, u, hi, hu, rfl⟩ | ⟨c, -, rfl⟩ := execWord_next h
  · exact hu.bytePort_eq (fun h => htb (h ▸ hi)) (fun h => hfl (h ▸ hi))
  · rfl

/-- Settles O35: the response is on its port from the transfer of the word on (`execWord_responds`), so it is on offer as soon as
the byte port is empty, which is at once for every other word (`execWord_bytePort`). -/
theorem responseFollowsLastBeat : Obligations.ResponseFollowsLastBeat := by
  intro s t w hready h
  obtain ⟨-, hport⟩ := (cmdReady_iff s).1 hready
  obtain ⟨r, hr, -⟩ := execWord_responds h
  have hsome : t.rspPort.isSome = true := by rw [hr]; rfl
  refine ⟨fun hfl htb => ?_, fun k hk => ⟨?_, ?_⟩, ?_, ?_⟩
  · exact (rspValid_iff t).2 ⟨hsome, (execWord_bytePort h hfl htb).trans hport⟩
  · exact Bool.eq_false_iff.2 fun hv => by simp [rspValid_iff, Nat.not_le.2 hk] at hv
  · simpa [boValid_iff] using hk
  · simpa [rspValid_iff] using hsome
  · exact Bool.eq_false_iff.2 fun hv => by simp [cmdReady_iff, hr] at hv

/-- Settles O36: a word on offer waits while `cmd_ready` is 0; the reset edge empties both ports. -/
theorem busyBlockAcceptsNoCommand : Obligations.BusyBlockAcceptsNoCommand := by
  refine ⟨fun s w rest hbusy hmoves => ?_, fun s o rest _ hmoves => ⟨_, step_reset hmoves, rfl, rfl, rfl⟩⟩
  obtain hm | hm := hmoves <;> simp [step, runMove, hm, hbusy, State.tick]

/-- Every response is a success or the fault of a cause of the block, and so has a legal status (R54). -/
theorem statusLegal_okResponse (n : Nat) : statusLegal (okResponse n) = true := rfl

theorem statusLegal_faultResponse {c : Cause} (h : c ≠ .unsupportedFeature) : statusLegal (faultResponse c) = true := by
  revert h
  cases c <;> decide

theorem execWord_statusLegal {w : CmdWord} {s t : State} {r : Response} (h : execWord w s = .next t)
    (hr : t.rspPort = some r) : statusLegal r = true := by
  obtain ⟨_, u, -, -, rfl⟩ | ⟨c, hc, rfl⟩ := execWord_next h
  · obtain rfl := Option.some.inj hr
    exact statusLegal_okResponse _
  · obtain rfl := Option.some.inj hr
    exact statusLegal_faultResponse hc

/-- Settles O52: the inversion of a span, and the status of its response (`execWord_statusLegal`). -/
theorem oneResponsePerCommand : Obligations.OneResponsePerCommand := by
  intro s t w rest hready hmoves h
  obtain ⟨u, r, hu, hr, -, hresp, hready'⟩ := step_command_next hready hmoves h
  exact ⟨hready', r, hresp, execWord_statusLegal hu hr⟩

/-! The whole spans that emit bytes. -/

/-- The span of `FLUSH` in an aligned `FINAL`: the packed buffer in the sink, the response taken (43_nal_framing.md R131). -/
theorem step_flush_of_final {s : State} {w : CmdWord} {rest : List HostMove} (hready : cmdReady s = true)
    (hmoves : s.moves = .command w :: rest) (hw : decode w = .legal .flush) (hp : s.phase = .finalized)
    (hlen : s.buf.length % 8 = 0) :
    step s = .next { s with
      moves := rest, draw := s.draw + 1, phase := .flushed, sink := s.sink ++ pack s.buf,
      responses := s.responses ++ [okRsp s.buf.length] } := by
  obtain ⟨hrsp, hport⟩ := (cmdReady_iff s).1 hready
  rw [step_command hready hmoves, execWord_legal w _ _ hw,
    exec_of_effect (i := .flush) (s := s.consume rest) ⟨hp, hlen, rfl⟩, andThen,
    deliver_sink_emit _ (pack s.buf) (okRsp s.buf.length) (by simp [hport]) rfl]
  simp [State.responded, State.emit, State.consume, hrsp, hport]

/-- The span of `TO_BYTES` in an aligned `RAW`: the packed buffer is one new element of the return log (42_emitter_query.md R116,
R39). -/
theorem step_toBytes_of_raw {s : State} {w : CmdWord} {rest : List HostMove} (hready : cmdReady s = true)
    (hmoves : s.moves = .command w :: rest) (hw : decode w = .legal .toBytes) (hp : s.phase = .raw)
    (hlen : s.buf.length % 8 = 0) :
    step s = .next { s with
      moves := rest, draw := s.draw + 1, ret := s.ret ++ [pack s.buf],
      responses := s.responses ++ [okRsp s.buf.length] } := by
  obtain ⟨hrsp, hport⟩ := (cmdReady_iff s).1 hready
  rw [step_command hready hmoves, execWord_legal w _ _ hw,
    exec_of_effect (i := .toBytes) (s := s.consume rest) ⟨hp, hlen, rfl⟩, andThen,
    deliver_ret_emit _ (pack s.buf) s.ret (okRsp s.buf.length) (by simp [hport]) rfl rfl]
  simp [State.responded, State.emit, State.consume, hrsp, hport]

/-- Settles O34: the two spans on the words of `FLUSH` and `TO_BYTES`. -/
theorem byteSpansDeliverPackedBuffer : Obligations.ByteSpansDeliverPackedBuffer :=
  ⟨fun _ _ hready hmoves => step_flush_of_final hready hmoves (by decide),
    fun _ _ hready hmoves => step_toBytes_of_raw hready hmoves (by decide)⟩

/-! A span as its single transfers (R51). -/

theorem takeResponse_carry (s : State) (ms : List HostMove) (d : Nat) :
    State.takeResponse { s with moves := ms, draw := d } = { s.takeResponse with moves := ms, draw := d } := by
  obtain ⟨cap, phase, buf, faults, bytePort, rspPort, sink, ret, responses, moves, draw⟩ := s
  rcases bytePort with _ | _ <;> rcases rspPort with _ | _ <;> rfl

theorem step_takeBeat {s : State} {rest : List HostMove} (h : s.moves = .takeBeat :: rest) :
    step s = .next { s.takeBeat with moves := rest, draw := s.draw + 1 } := by
  rw [← takeBeat_carry]
  simp [step, runMove, h, State.consume]

theorem step_takeResponse {s : State} {rest : List HostMove} (h : s.moves = .takeResponse :: rest) :
    step s = .next { s.takeResponse with moves := rest, draw := s.draw + 1 } := by
  rw [← takeResponse_carry]
  simp [step, runMove, h, State.consume]

/-- The host takes `k` beats, one move each. -/
theorem steps_takeBeats {s : State} {rest : List HostMove} (k n : Nat) (h : s.moves = List.replicate k .takeBeat ++ rest) :
    steps (k + n) s = steps n { State.takeBeats k s with moves := rest, draw := s.draw + k } := by
  induction k generalizing s with
  | zero =>
    obtain rfl : s.moves = rest := h
    rw [Nat.zero_add]
    rfl
  | succ k ih =>
    rw [Nat.add_right_comm, steps_succ_of_step _ (step_takeBeat h), ih rfl, takeBeats_carry, State.takeBeats,
      Nat.add_right_comm s.draw, Nat.add_assoc s.draw]

theorem deliver_carry (s : State) (ms : List HostMove) (d : Nat) :
    State.deliver { s with moves := ms, draw := d } = { s.deliver with moves := ms, draw := d } := by
  rw [State.deliver, takeBeats_carry, takeResponse_carry, State.deliver]

/-- The span of a word, before any moves the host has planned. -/
theorem step_withMoves_command {s t : State} {w : CmdWord} (ms : List HostMove) (hready : cmdReady s = true)
    (h : execWord w s = .next t) :
    step (s.withMoves (.command w :: ms)) = .next { t.deliver with moves := ms ++ s.moves, draw := s.draw + 1 } := by
  have hcommand := step_command (s := s.withMoves (.command w :: ms)) hready rfl
  have hexec := execWord_consume w s t (ms ++ s.moves) h
  rw [hcommand.trans (congrArg (andThen · State.deliver) hexec), andThen, deliver_carry]

/-- The transfers of a span one by one, before any moves the host has planned (R51, R55, R56). -/
theorem steps_transfers {s t : State} {w : CmdWord} (hready : cmdReady s = true) (h : execWord w s = .next t) :
    steps (t.bytePort.length + 2)
        (s.withMoves (.offer w :: List.replicate t.bytePort.length .takeBeat ++ [.takeResponse])) =
      .next { t.deliver with moves := s.moves, draw := s.draw + 1 + t.bytePort.length + 1 } := by
  have hoffer := step_offer (s := s.withMoves (.offer w :: List.replicate t.bytePort.length .takeBeat ++ [.takeResponse]))
    hready rfl
  have hexec := execWord_consume w s t (List.replicate t.bytePort.length .takeBeat ++ [.takeResponse] ++ s.moves) h
  rw [steps_succ_of_step _ (hoffer.trans hexec), steps_takeBeats _ 1 (List.append_assoc ..),
    steps_succ_of_step 0 (step_takeResponse rfl), takeBeats_carry, takeResponse_carry, takeResponse_carry]
  rfl

/-- Settles O37: one by one, the transfers (`steps_transfers`) end where the span does (`step_withMoves_command`), but for the
counter. -/
theorem commandSpanIsItsTransfers : Obligations.CommandSpanIsItsTransfers := by
  intro s t w hready h
  exact ⟨_, _, steps_succ_of_step 0 (step_withMoves_command [] hready h), steps_transfers hready h, rfl⟩

/-! Reset in mid-command (70_reset_and_hazards.md R203). -/

/-- The transfer of a word alone, with whatever moves come after it. -/
theorem step_offer_next {s t : State} {w : CmdWord} (rest : List HostMove) (hready : cmdReady s = true)
    (h : execWord w s = .next t) (hmoves : s.moves = .offer w :: rest) :
    step s = .next { t with moves := rest, draw := s.draw + 1 } := by
  rw [step_offer hready hmoves, execWord_consume w s t rest h]

/-- A command cut by a reset edge after `k` of its beats. -/
theorem steps_cut {s u : State} {w : CmdWord} {k : Nat} {o : Option CmdWord} {rest : List HostMove}
    (hready : cmdReady s = true) (hmoves : s.moves = .offer w :: List.replicate k .takeBeat ++ .reset o :: rest)
    (h : execWord w s = .next u) :
    steps (k + 2) s = .next { (State.takeBeats k u).hardReset with moves := rest, draw := s.draw + k + 2 } := by
  rw [steps_succ_of_step (k + 1) (step_offer_next _ hready h hmoves), steps_takeBeats k 1 rfl,
    steps_succ_of_step 0 (step_reset rfl), takeBeats_carry, steps]
  simp [State.hardReset, State.consume]
  omega

theorem sinkData_take_beatsOf (d : Dest) (bs : List Byte) (k : Nat) :
    sinkData ((beatsOf d bs).take k) = sinkBytes d (bs.take k) := by
  cases d with
  | sink =>
    have hall : ((beatsOf .sink bs).take k).filter (fun b => b.dest = .sink) = (beatsOf .sink bs).take k := by
      refine List.filter_eq_self.2 fun b hb => ?_
      simp [beatsOf_dest _ _ _ (List.mem_of_mem_take hb)]
    rw [sinkData, hall, List.map_take, beatsOf_data, sinkBytes]
  | ret =>
    have hnone : ((beatsOf .ret bs).take k).filter (fun b => b.dest = .sink) = [] := by
      refine List.filter_eq_nil_iff.2 fun b hb => ?_
      simp [beatsOf_dest _ _ _ (List.mem_of_mem_take hb)]
    rw [sinkData, hnone, List.map_nil, sinkBytes]

/-- Settles O38: the reset edge keeps the logs as the beats taken before it left them (`steps_cut`). -/
theorem resetMidCommandLeavesPrefix : Obligations.ResetMidCommandLeavesPrefix := by
  refine ⟨fun s k o rest hready hp hlen _ hmoves => ?_, fun s k o rest hready hp hlen _ hmoves => ?_⟩
  · obtain ⟨-, hport⟩ := (cmdReady_iff s).1 hready
    have hexec := exec_of_effect (i := .flush) (s := s) ⟨hp, hlen, rfl⟩
    rw [← execWord_legal 0x310000000000#48 _ _ (by decide)] at hexec
    refine ⟨_, steps_cut hready hmoves hexec, rfl, rfl, rfl, rfl, rfl, ?_, ?_, ?_, rfl⟩
    · simp [takeBeats_sink, hport, sinkData_take_beatsOf, sinkBytes]
    · exact takeBeats_ret_sink (pack s.buf) k _ (by simp [hport])
    · simp
  · obtain ⟨-, hport⟩ := (cmdReady_iff s).1 hready
    have hexec := exec_of_effect (i := .toBytes) (s := s) ⟨hp, hlen, rfl⟩
    rw [← execWord_legal 0x210000000000#48 _ _ (by decide)] at hexec
    refine ⟨_, steps_cut hready hmoves hexec, rfl, rfl, rfl, rfl, rfl, ?_, ?_, ?_, rfl⟩
    · simp [takeBeats_sink, hport, sinkData_take_beatsOf, sinkBytes]
    · simpa using takeBeats_ret_ret (pack s.buf) k (s.emit .ret (pack s.buf)).responded s.ret [] (by simp [hport]) rfl
    · simp

end Sys2Proof.Machine

/-! ### The invariants (10_state.md R23) -/

namespace Sys2Proof.Machine

open Sys2Proof.Spec

/-- Settles O49: the buffer is empty, no port holds anything, no response was taken. -/
theorem resetMeetsInvariant : Obligations.ResetMeetsInvariant where
  capLegal := by decide
  lenLeCap _ _ := Nat.zero_le _
  idleEmpty _ := rfl
  framed h := nomatch h
  closed h := nomatch h
  faultBits := by decide
  oneEmit := ⟨.sink, [], rfl⟩
  beatsBeforeResponse h := absurd rfl h
  pendingStatus _ h := nomatch h
  takenStatus _ h := nomatch h

/-! The transfers on the ports keep it. -/

/-- A state with the same block and with ports in order. -/
theorem State.Inv.of_same_block {s t : State} (h : s.Inv) (hcap : t.cap = s.cap) (hphase : t.phase = s.phase)
    (hbuf : t.buf = s.buf) (hfaults : t.faults = s.faults) (hemit : ∃ d bytes, t.bytePort = beatsOf d bytes)
    (hbeats : t.bytePort ≠ [] → t.rspPort.isSome = true) (hpending : ∀ r, t.rspPort = some r → statusLegal r = true)
    (htaken : ∀ r ∈ t.responses, statusLegal r = true) : t.Inv where
  capLegal := hcap ▸ h.capLegal
  lenLeCap := by simpa only [State.len, hcap, hbuf] using h.lenLeCap
  idleEmpty := by simpa only [hphase, hbuf] using h.idleEmpty
  framed := by simpa only [hphase, hbuf] using h.framed
  closed := by simpa only [hphase, State.len, hbuf] using h.closed
  faultBits := hfaults ▸ h.faultBits
  oneEmit := hemit
  beatsBeforeResponse := hbeats
  pendingStatus := hpending
  takenStatus := htaken

theorem State.Inv.consume {s : State} (h : s.Inv) (rest : List HostMove) : (s.consume rest).Inv :=
  h.of_same_block rfl rfl rfl rfl h.oneEmit h.beatsBeforeResponse h.pendingStatus h.takenStatus

theorem State.Inv.tick {s : State} (h : s.Inv) : s.tick.Inv :=
  h.of_same_block rfl rfl rfl rfl h.oneEmit h.beatsBeforeResponse h.pendingStatus h.takenStatus

theorem State.Inv.takeBeat {s : State} (h : s.Inv) : s.takeBeat.Inv := by
  refine h.of_same_block (by simp) (by simp) (by simp) (by simp) ?_ ?_ (by simpa using h.pendingStatus)
    (by simpa using h.takenStatus)
  · obtain ⟨d, bytes, hport⟩ := h.oneEmit
    exact ⟨d, bytes.tail, by rw [State.takeBeat_bytePort, hport, beatsOf_tail]⟩
  · rw [State.takeBeat_bytePort, State.takeBeat_rspPort]
    exact fun htail => h.beatsBeforeResponse fun hnil => htail (by rw [hnil, List.tail_nil])

theorem State.Inv.takeBeats {s : State} (h : s.Inv) (n : Nat) : (State.takeBeats n s).Inv := by
  induction n generalizing s with
  | zero => exact h
  | succ n ih => exact ih h.takeBeat

theorem State.Inv.takeResponse {s : State} (h : s.Inv) : s.takeResponse.Inv := by
  unfold State.takeResponse
  split
  next r hport hr =>
    refine h.of_same_block rfl rfl rfl rfl h.oneEmit (absurd hport) nofun fun r' hr' => ?_
    obtain hr' | hr' := List.mem_append.1 hr'
    · exact h.takenStatus r' hr'
    · obtain rfl := List.mem_singleton.1 hr'
      exact h.pendingStatus r' hr
  next => exact h

theorem State.Inv.deliver {s : State} (h : s.Inv) : s.deliver.Inv := (h.takeBeats _).takeResponse

theorem State.Inv.hardReset {s : State} (h : s.Inv) : s.hardReset.Inv where
  capLegal := h.capLegal
  lenLeCap _ _ := Nat.zero_le _
  idleEmpty _ := rfl
  framed h := nomatch h
  closed h := nomatch h
  faultBits := by rw [State.hardReset_faults]; decide
  oneEmit := ⟨.sink, [], rfl⟩
  beatsBeforeResponse h := absurd rfl h
  pendingStatus _ h := nomatch h
  takenStatus := h.takenStatus

/-! The effect of a success keeps it, clause by clause. -/

theorem Effect.cap_eq {i : Instr} {s u : State} (h : Effect i s u) : u.cap = s.cap := by
  obtain ⟨_, _, _, _, _, _, hu, -⟩ := exec_local i s _ (exec_of_effect h)
  rw [← State.responded_cap, hu]
  rfl

/-- A success leaves the buffer, adds bits that fit, or begins a new one with at most a start code and a header byte. -/
theorem Effect.buf_cases {i : Instr} {s u : State} (h : Effect i s u) :
    u.buf = s.buf ∨ (∃ bits, s.fits bits.length = true ∧ u.buf = s.buf ++ bits) ∨ u.buf.length ≤ 40 := by
  cases i with
  | beNew => obtain rfl := h; exact .inr (.inr (Nat.zero_le _))
  | nalStart fzb ref typ longSc =>
    obtain ⟨-, rfl⟩ := h
    exact .inr (.inr (by cases longSc <;> simp))
  | appendBit b => obtain ⟨-, -, hfit, rfl⟩ := h; exact .inr (.inl ⟨[decide (b = 1)], hfit, rfl⟩)
  | appendBits n raw =>
    obtain ⟨-, -, -, hfit, rfl⟩ := h
    exact .inr (.inl ⟨bitsMsb raw n.toNat, by rwa [bitsMsb_length], rfl⟩)
  | appendUe => obtain ⟨-, -, hfit, rfl⟩ := h; exact .inr (.inl ⟨_, hfit, rfl⟩)
  | appendSe => obtain ⟨-, hfit, rfl⟩ := h; exact .inr (.inl ⟨_, hfit, rfl⟩)
  | bitLength => obtain ⟨-, rfl⟩ := h; exact .inl rfl
  | toBytes => obtain ⟨-, -, rfl⟩ := h; exact .inl rfl
  | finalize => obtain ⟨-, hfit, rfl⟩ := h; exact .inr (.inl ⟨_, hfit, rfl⟩)
  | flush => obtain ⟨-, -, rfl⟩ := h; exact .inl rfl

theorem capLegal_ge {c : Nat} (h : Config.capLegal (some c) = true) : 112 ≤ c := by
  simp only [Config.capLegal, Bool.and_eq_true, decide_eq_true_eq] at h
  obtain ⟨⟨-, hmin⟩, -⟩ := h
  exact hmin

/-- I-a: what is appended fits, and a new buffer is below the smallest capacity. -/
theorem Effect.len_le {i : Instr} {s u : State} (h : Effect i s u) (hinv : s.Inv) (c : Nat) (hc : s.cap = some c) :
    u.len ≤ c := by
  obtain hbuf | ⟨bits, hfit, hbuf⟩ | hlen := h.buf_cases
  · rw [State.len, hbuf]
    exact hinv.lenLeCap c hc
  · rw [State.len, hbuf, List.length_append]
    exact (fits_iff s _).1 hfit c hc
  · have hmin := capLegal_ge (hc ▸ hinv.capLegal)
    exact hlen.trans (by omega)

/-- A command that is no constructor works on the unit it finds: a framed phase after it was one before. -/
theorem Effect.framed_before {i : Instr} {s u : State} (h : Effect i s u) (hcon : isConstructor i = false)
    (hu : u.phase.framed = true) : s.phase.framed = true := by
  rw [h.phase_eq] at hu
  cases i with
  | beNew | nalStart => cases hcon
  | finalize => obtain ⟨hp, -, -⟩ := h; rw [hp]; rfl
  | flush => obtain ⟨hp, -, -⟩ := h; rw [hp]; rfl
  | appendBit | appendBits | appendUe | appendSe | bitLength | toBytes => exact hu

/-- I-c: `NAL_START` writes the start code and the header byte, and every other command only adds behind them. -/
theorem Effect.framed {i : Instr} {s u : State} (h : Effect i s u) (hinv : s.Inv) (hwf : i.wf = true)
    (hu : u.phase.framed = true) :
    ∃ longSc ref typ, ref < 4 ∧ typ < 32 ∧ (startCode longSc ++ headerBits ref typ) <+: u.buf := by
  cases hcon : isConstructor i with
  | false =>
    obtain ⟨longSc, ref, typ, href, htyp, hpre⟩ := hinv.framed (h.framed_before hcon hu)
    exact ⟨longSc, ref, typ, href, htyp, hpre.trans (h.buf_prefix hcon)⟩
  | true =>
    cases i with
    | beNew => obtain rfl := h; cases hu
    | nalStart fzb ref typ longSc =>
      obtain ⟨-, rfl⟩ := h
      obtain ⟨href, htyp⟩ := Bool.and_eq_true_iff.1 hwf
      exact ⟨longSc, ref, typ, of_decide_eq_true href, of_decide_eq_true htyp, List.prefix_rfl⟩
    | appendBit | appendBits | appendUe | appendSe | bitLength | toBytes | finalize | flush => cases hcon

/-- The stop bit is in the last byte of a buffer with its trailing bits (43_nal_framing.md R129). -/
theorem true_mem_last_byte (l : List Bit) :
    true ∈ (l ++ trailing l.length).drop ((l ++ trailing l.length).length - 8) := by
  have hstop : (l ++ trailing l.length)[l.length]? = some true := by simp [trailing]
  have hlen := append_trailing_length l
  refine List.mem_of_getElem? (i := l.length - ((l ++ trailing l.length).length - 8)) ?_
  rw [List.getElem?_drop, ← hstop]
  congr 1
  omega

/-- A success that ends in `FINAL` or `FLUSHED` found the buffer there, or is `FINALIZE`. -/
theorem Effect.closed_cases {i : Instr} {s u : State} (h : Effect i s u) (hu : u.phase.closed = true) :
    (s.phase.closed = true ∧ u.buf = s.buf) ∨ (s.phase = .opened ∧ u.buf = s.buf ++ trailing s.len) := by
  have hacc : s.phase.acceptsBits = true → s.phase.closed ≠ true := by cases s.phase <;> decide
  cases i with
  | beNew => obtain rfl := h; cases hu
  | nalStart => obtain ⟨-, rfl⟩ := h; cases hu
  | appendBit => obtain ⟨ha, -, -, rfl⟩ := h; exact absurd hu (hacc ha)
  | appendBits => obtain ⟨ha, -, -, -, rfl⟩ := h; exact absurd hu (hacc ha)
  | appendUe => obtain ⟨ha, -, -, rfl⟩ := h; exact absurd hu (hacc ha)
  | appendSe => obtain ⟨ha, -, rfl⟩ := h; exact absurd hu (hacc ha)
  | bitLength => obtain ⟨-, rfl⟩ := h; exact .inl ⟨hu, rfl⟩
  | toBytes => obtain ⟨-, -, rfl⟩ := h; exact .inl ⟨hu, rfl⟩
  | finalize => obtain ⟨hp, -, rfl⟩ := h; exact .inr ⟨hp, rfl⟩
  | flush => obtain ⟨hp, -, rfl⟩ := h; exact .inl ⟨by rw [hp]; rfl, rfl⟩

/-- A buffer that begins with a start code and a header byte has at least 32 bits. -/
theorem length_of_header_prefix {longSc : Bool} {ref typ : Nat} {l : List Bit}
    (h : (startCode longSc ++ headerBits ref typ) <+: l) : 32 ≤ l.length := by
  have hle := h.length_le
  cases longSc <;> simp at hle <;> omega

/-- I-d: the trailing bits bring the 32 bits or more of an open unit to whole bytes, 40 or more, with the stop bit in the last. -/
theorem Effect.closed {i : Instr} {s u : State} (h : Effect i s u) (hinv : s.Inv) (hu : u.phase.closed = true) :
    u.len % 8 = 0 ∧ 40 ≤ u.len ∧ true ∈ u.buf.drop (u.len - 8) := by
  obtain ⟨hs, hbuf⟩ | ⟨hp, hbuf⟩ := h.closed_cases hu
  · simpa only [State.len, hbuf] using hinv.closed hs
  · obtain ⟨longSc, ref, typ, -, -, hpre⟩ := hinv.framed (by rw [hp]; rfl)
    have hlen := append_trailing_length s.buf
    have h32 := length_of_header_prefix hpre
    rw [State.len, hbuf, State.len]
    exact ⟨by omega, by omega, true_mem_last_byte s.buf⟩

/-! The transfer of a word keeps it. -/

/-- A transferred word leaves one `emit` on an empty byte port, with the response behind it. -/
theorem execWord_ports {w : CmdWord} {s t : State} (hinv : s.Inv) (hready : cmdReady s = true) (h : execWord w s = .next t) :
    (∃ d bytes, t.bytePort = beatsOf d bytes) ∧ t.rspPort.isSome = true ∧
      (∀ r, t.rspPort = some r → statusLegal r = true) ∧ ∀ r ∈ t.responses, statusLegal r = true := by
  obtain ⟨-, hport⟩ := (cmdReady_iff s).1 hready
  obtain ⟨d, bytes, hbeats, -⟩ := execWord_emits h
  obtain ⟨r, hr, hresp⟩ := execWord_responds h
  refine ⟨⟨d, bytes, ?_⟩, by rw [hr]; rfl, fun _ => execWord_statusLegal h, hresp ▸ hinv.takenStatus⟩
  simp [hbeats, State.emit, hport]

theorem execWord_faultBits {w : CmdWord} {s t : State} (hinv : s.Inv) (h : execWord w s = .next t) :
    t.faults.getLsbD 0 = false ∧ t.faults.getLsbD 3 = false := by
  obtain hf | ⟨c, hc, hf⟩ := execWord_faults h
  · exact hf ▸ hinv.faultBits
  · obtain ⟨h0, h3⟩ := hinv.faultBits
    obtain ⟨hne0, hne3⟩ := Cause.code_ne hc
    rw [hf, getLsbD_setFault, getLsbD_setFault, h0, h3, decide_eq_false hne0, decide_eq_false hne3]
    exact ⟨rfl, rfl⟩

/-- A fault leaves the buffer, and the phase or `FAILED`, of which nothing is asked. -/
theorem State.Inv.raised_block {s : State} (h : s.Inv) (c : Cause) :
    ((s.raised c).phase = .idle → s.buf = []) ∧
      ((s.raised c).phase.framed = true → s.phase.framed = true) ∧
      ((s.raised c).phase.closed = true → s.phase.closed = true) := by
  obtain hp | hp := s.raised_phase_cases c <;> rw [hp]
  · exact ⟨h.idleEmpty, id, id⟩
  · exact ⟨nofun, nofun, nofun⟩

theorem State.Inv.execWord {w : CmdWord} {s t : State} (hinv : s.Inv) (hready : cmdReady s = true)
    (h : execWord w s = .next t) : t.Inv := by
  obtain ⟨hemit, hrsp, hpending, htaken⟩ := execWord_ports hinv hready h
  have hfaults := execWord_faultBits hinv h
  obtain ⟨i, u, hi, hu, rfl⟩ | ⟨c, -, rfl⟩ := execWord_next h
  · obtain ⟨hwf, -⟩ := decodeFields_legal hi
    exact {
      capLegal := hu.cap_eq ▸ hinv.capLegal
      lenLeCap := fun c hc => hu.len_le hinv c (hu.cap_eq ▸ hc)
      idleEmpty := fun hp => absurd hp ((Phase.live_iff _).1 hu.live).1
      framed := hu.framed hinv hwf
      closed := hu.closed hinv
      faultBits := hfaults
      oneEmit := hemit
      beatsBeforeResponse := fun _ => hrsp
      pendingStatus := hpending
      takenStatus := htaken }
  · obtain ⟨hidle, hframed, hclosed⟩ := hinv.raised_block c
    exact {
      capLegal := hinv.capLegal
      lenLeCap := hinv.lenLeCap
      idleEmpty := hidle
      framed := fun hp => hinv.framed (hframed hp)
      closed := fun hp => hinv.closed (hclosed hp)
      faultBits := hfaults
      oneEmit := hemit
      beatsBeforeResponse := fun _ => hrsp
      pendingStatus := hpending
      takenStatus := htaken }

/-- Settles O50: a step is a tick, the transfer of a word (`State.Inv.execWord`), perhaps with its delivery, or a transfer or reset
on the ports (`step_next`), and each keeps the invariant. -/
theorem everyStepKeepsInvariant : Obligations.EveryStepKeepsInvariant := by
  intro s t hinv h
  obtain ⟨rfl, -⟩ | ⟨w, rest, u, hready, hu, ht⟩ | ⟨rest, -, rfl⟩ | ⟨rest, -, rfl⟩ | ⟨o, rest, -, rfl⟩ := step_next h
  · exact hinv.tick
  · have hinv' : u.Inv := (hinv.consume rest).execWord hready hu
    obtain ⟨-, rfl⟩ | ⟨-, rfl⟩ := ht
    · exact hinv'.deliver
    · exact hinv'
  · exact (hinv.consume rest).takeBeat
  · exact (hinv.consume rest).takeResponse
  · exact (hinv.consume rest).hardReset

/-! No reachable state stops, and what reaches the sink. -/

theorem execWord_total {w : CmdWord} {s : State} (hinv : s.Inv) : ∃ t, execWord w s = .next t := by
  obtain ⟨i, -, hx⟩ | ⟨-, hx⟩ := execWord_cases w s
  · rw [hx]
    exact exec_total (hinv.not_unalignedFlush i)
  · exact ⟨_, hx⟩

/-- Settles O51: the only move that could stop is the transfer of a word (`execWord_total`). -/
theorem noStepStopsUnderInvariant : Obligations.NoStepStopsUnderInvariant := by
  intro s hinv
  unfold step runMove
  split
  · exact ⟨_, rfl⟩
  · next w rest _ =>
    split
    · obtain ⟨u, hu⟩ := execWord_total (w := w) (hinv.consume rest)
      exact ⟨u.deliver, by rw [hu, andThen]⟩
    · exact ⟨_, rfl⟩
  · next w rest _ =>
    split
    · exact execWord_total (hinv.consume rest)
    · exact ⟨_, rfl⟩
  all_goals exact ⟨_, rfl⟩

/-- Only a `FLUSH` that succeeds puts beats for the sink on an empty byte port. -/
theorem execWord_sinkData {w : CmdWord} {s t : State} (hport : s.bytePort = []) (h : execWord w s = .next t)
    (hne : sinkData t.bytePort ≠ []) : decode w = .legal .flush ∧ ∃ u, Effect .flush s u ∧ t = u.responded := by
  obtain ⟨i, u, hi, hu, rfl⟩ | ⟨c, -, rfl⟩ := execWord_next h
  · by_cases hfl : i = .flush
    · subst hfl
      exact ⟨hi, u, hu, rfl⟩
    refine absurd ?_ hne
    by_cases htb : i = .toBytes
    · subst htb
      obtain ⟨-, -, rfl⟩ := hu
      simp [hport]
    · simp [hu.bytePort_eq htb hfl, hport, sinkData]
  · exact absurd (by simp [hport, sinkData]) hne

/-- A span that adds to the sink is one of a `FLUSH` that succeeds. -/
theorem step_command_sink {s t : State} {w : CmdWord} {rest : List HostMove} (hready : cmdReady s = true)
    (hmoves : s.moves = .command w :: rest) (h : step s = .next t) (hne : t.sink ≠ s.sink) :
    decode w = .legal .flush ∧ ∃ u, Effect .flush (s.consume rest) u ∧ t = u.responded.deliver := by
  obtain ⟨-, hport⟩ := (cmdReady_iff s).1 hready
  obtain ⟨v, r, hv, -, ht, -, -⟩ := step_command_next hready hmoves h
  have hsink : v.sink = s.sink := by
    obtain ⟨_, _, _, _, _, _, rfl, -⟩ := execWord_local w _ v hv
    rfl
  obtain ⟨hw, u, hu, rfl⟩ := execWord_sinkData (s := s.consume rest) hport hv
    fun hnil => hne (by rw [ht, deliver_sink, hnil, hsink, List.append_nil])
  exact ⟨hw, u, hu, ht⟩

/-- The bytes of a framed buffer begin with a start code (43_nal_framing.md R120). -/
theorem pack_startCode_prefix {longSc : Bool} {ref typ : Nat} {l : List Bit}
    (h : (startCode longSc ++ headerBits ref typ) <+: l) : pack (startCode longSc) <+: pack l := by
  obtain ⟨r, rfl⟩ := h
  have halign : (startCode longSc).length % 8 = 0 := by cases longSc <;> simp
  rw [List.append_assoc, pack_append _ _ halign]
  exact List.prefix_append ..

/-- Settles O53: the word is a `FLUSH` that succeeds (`step_command_sink`), whose span is `step_flush_of_final`, on a buffer that
begins with a start code by I-c. -/
theorem sinkGrowsOnlyByWholeUnits : Obligations.SinkGrowsOnlyByWholeUnits := by
  intro s t w rest hinv hready hmoves h hne
  obtain ⟨hw, _, ⟨hp, hlen, -⟩, -⟩ := step_command_sink hready hmoves h hne
  obtain ⟨longSc, ref, typ, -, -, hpre⟩ := hinv.framed (by rw [show s.phase = .finalized from hp]; rfl)
  have hstart := pack_startCode_prefix hpre
  rw [pack_startCode] at hstart
  obtain rfl := Host.Outcome.next.inj (h.symm.trans (step_flush_of_final hready hmoves hw hp hlen))
  refine ⟨hw, hp, rfl, rfl, ?_⟩
  cases longSc with
  | true => exact .inl hstart
  | false => exact .inr hstart

end Sys2Proof.Machine

/-! ### Runs of commands that succeed, and the unit they build (43_nal_framing.md) -/

namespace Sys2Proof.Machine

open Sys2Proof.Spec

/-- From a ready `s` the whole span of the command's word succeeds and leaves `t`. -/
def Succeeds (i : Instr) (s t : State) : Prop :=
  i.wf = true ∧ cmdReady s = true ∧
    ∃ u, Effect i s u ∧ t = { u.responded.deliver with moves := s.moves, draw := s.draw + 1 }

/-- The spans of these commands, in order, all succeed and lead from `s` to `t`. -/
inductive Runs : List Instr → State → State → Prop
  | nil (s : State) : Runs [] s s
  | cons {i : Instr} {is : List Instr} {s t u : State} : Succeeds i s t → Runs is t u → Runs (i :: is) s u

theorem Runs.single {i : Instr} {s t : State} (h : Succeeds i s t) : Runs [i] s t := .cons h (.nil t)

theorem Runs.append {is js : List Instr} {s t u : State} (h : Runs is s t) (h' : Runs js t u) : Runs (is ++ js) s u := by
  induction h with
  | nil => exact h'
  | cons hi _ ih => exact .cons hi (ih h')

/-- A span that succeeds is one step of the host's plan. -/
theorem Succeeds.step {i : Instr} {s t : State} (h : Succeeds i s t) (ms : List HostMove) :
    step (s.withMoves (.command (encode i) :: ms)) = .next (t.withMoves ms) := by
  obtain ⟨hwf, hready, u, hu, rfl⟩ := h
  have hexec : execWord (encode i) s = .next u.responded := (execWord_legal _ _ _ (decode_encode hwf)).trans (exec_of_effect hu)
  exact step_withMoves_command ms hready hexec

theorem Runs.steps {is : List Instr} {s t : State} (h : Runs is s t) :
    steps is.length (s.withMoves (commandMoves is)) = .next t := by
  induction h with
  | nil => rfl
  | cons hi _ ih => exact (steps_succ_of_step _ (hi.step _)).trans ih

theorem Succeeds.faults_eq {i : Instr} {s t : State} (h : Succeeds i s t) : t.faults = s.faults := by
  obtain ⟨-, -, u, hu, rfl⟩ := h
  exact (deliver_faults _).trans hu.faults_eq

theorem Succeeds.moves_eq {i : Instr} {s t : State} (h : Succeeds i s t) : t.moves = s.moves := by
  obtain ⟨-, -, u, -, rfl⟩ := h
  rfl

theorem Succeeds.response {i : Instr} {s t : State} (h : Succeeds i s t) :
    cmdReady t = true ∧ ∃ n, t.responses = s.responses ++ [okResponse n] := by
  obtain ⟨-, -, u, hu, rfl⟩ := h
  obtain ⟨_, _, _, _, _, _, hwrite, -⟩ := exec_local i s _ (exec_of_effect hu)
  have hresp : u.responded.responses = s.responses := by rw [hwrite]; rfl
  obtain ⟨hport, hdel⟩ := deliver_response (State.responded_rspPort u)
  exact ⟨(cmdReady_iff _).2 ⟨hport, deliver_bytePort _⟩, u.len, by rw [hdel, hresp]⟩

theorem Runs.faults_eq {is : List Instr} {s t : State} (h : Runs is s t) : t.faults = s.faults := by
  induction h with
  | nil => rfl
  | cons hi _ ih => exact ih.trans hi.faults_eq

theorem Runs.moves_eq {is : List Instr} {s t : State} (h : Runs is s t) : t.moves = s.moves := by
  induction h with
  | nil => rfl
  | cons hi _ ih => exact ih.trans hi.moves_eq

theorem Runs.ready {is : List Instr} {s t : State} (h : Runs is s t) (hs : cmdReady s = true) : cmdReady t = true := by
  induction h with
  | nil => exact hs
  | cons hi _ ih => exact ih hi.response.1

/-- One response for each command, each a success. -/
theorem Runs.responses {is : List Instr} {s t : State} (h : Runs is s t) :
    ∃ rs, t.responses = s.responses ++ rs ∧ rs.length = is.length ∧ ∀ r ∈ rs, r.status = 0 := by
  induction h with
  | nil => exact ⟨[], (List.append_nil _).symm, rfl, nofun⟩
  | cons hi _ ih =>
    obtain ⟨-, n, hn⟩ := hi.response
    obtain ⟨rs, hrs, hlen, hok⟩ := ih
    exact ⟨okResponse n :: rs, by rw [hrs, hn, List.append_assoc]; rfl, congrArg Nat.succ hlen,
      List.forall_mem_cons.2 ⟨rfl, hok⟩⟩

/-! Building a unit: the buffer grows and nothing leaves the block. -/

/-- In the ready state `t` the block holds this buffer in this phase, and nothing has left it since `s`. -/
structure Building (s : State) (p : Phase) (buf : List Bit) (t : State) : Prop where
  ready : cmdReady t = true
  phase : t.phase = p
  buf : t.buf = buf
  cap : t.cap = s.cap
  sink : t.sink = s.sink
  ret : t.ret = s.ret

/-- A command that emits nothing, on the way to a unit. -/
theorem Building.succeeds {s t u : State} {p : Phase} {b : List Bit} {i : Instr} (h : Building s p b t)
    (hu : Effect i t u) (hwf : i.wf = true) (htb : i ≠ .toBytes) (hfl : i ≠ .flush) :
    ∃ t', Succeeds i t t' ∧ Building s u.phase u.buf t' := by
  obtain ⟨-, hport⟩ := (cmdReady_iff t).1 h.ready
  have hdel := deliver_no_beats u.responded (okResponse u.len) ((hu.bytePort_eq htb hfl).trans hport) rfl
  have hspan : Succeeds i t _ := ⟨hwf, h.ready, u, hu, rfl⟩
  have hsame := hu.writes_buf_phase htb hfl
  refine ⟨_, hspan, hspan.response.1, by simp, by simp, ?_, ?_, ?_⟩
  · simpa using hu.cap_eq.trans h.cap
  · rw [hdel, ← h.sink, hsame]; rfl
  · rw [hdel, ← h.ret, hsame]; rfl

/-- The effect of a legal append in an accepting phase with room for its bits (R81, R83, R92, R96). -/
theorem effect_of_legalAppend {i : Instr} {s : State} (hi : legalAppend i = true) (ha : accepts s)
    (hr : room s (addedBits i).length) : Effect i s { s with buf := s.buf ++ addedBits i } := by
  rw [accepts_iff] at ha
  rw [← fits_iff_room] at hr
  cases i with
  | appendBit b =>
    have hb : b ≤ 1 := of_decide_eq_true hi
    exact ⟨ha, hb, hr, by rw [addedBits, bitsMsb_width_one hb]⟩
  | appendBits n raw =>
    obtain ⟨hn, hraw⟩ := Bool.and_eq_true_iff.1 hi
    rw [addedBits, bitsMsb_length] at hr
    exact ⟨ha, of_decide_eq_true hn, of_decide_eq_true hraw, hr, rfl⟩
  | appendUe v => exact ⟨ha, of_decide_eq_true hi, hr, rfl⟩
  | appendSe v => exact ⟨ha, hr, rfl⟩
  | beNew | nalStart | bitLength | toBytes | finalize | flush => cases hi

theorem legalAppend_ne {i j : Instr} (hi : legalAppend i = true) (hj : legalAppend j = false) : i ≠ j := by
  rintro rfl
  cases hi.symm.trans hj

/-- Legal appends with room for all their bits run through, and the buffer is extended by the payload (R124). -/
theorem Building.appends {s t : State} {b : List Bit} {is : List Instr} (h : Building s .opened b t)
    (hlegal : ∀ i ∈ is, legalAppend i = true ∧ i.wf = true)
    (hcap : ∀ c, s.cap = some c → b.length + (payloadBits is).length ≤ c) :
    ∃ t', Runs is t t' ∧ Building s .opened (b ++ payloadBits is) t' := by
  induction is generalizing t b with
  | nil => exact ⟨t, .nil t, by rwa [payloadBits, List.flatMap_nil, List.append_nil]⟩
  | cons i is ih =>
    obtain ⟨⟨hi, hwf⟩, his⟩ := List.forall_mem_cons.1 hlegal
    have hsplit : payloadBits (i :: is) = addedBits i ++ payloadBits is := List.flatMap_cons
    rw [hsplit] at hcap ⊢
    rw [List.length_append] at hcap
    have hroom : room t (addedBits i).length := fun c hc => by
      have hle := hcap c (h.cap ▸ hc)
      rw [h.buf]
      omega
    have heff := effect_of_legalAppend hi (.inr h.phase) hroom
    obtain ⟨t₁, hspan, hb₁⟩ := h.succeeds heff hwf (legalAppend_ne hi rfl) (legalAppend_ne hi rfl)
    rw [h.phase, h.buf] at hb₁
    obtain ⟨t₂, hruns, hb₂⟩ := ih hb₁ his fun c hc => by
      have hle := hcap c hc
      rw [List.length_append]
      omega
    exact ⟨t₂, .cons hspan hruns, by rwa [← List.append_assoc]⟩

theorem Building.nalStart {s : State} (hready : cmdReady s = true) {ref typ : Nat} (longSc : Bool) (href : ref < 4)
    (htyp : typ < 32) :
    ∃ t, Succeeds (.nalStart false ref typ longSc) s t ∧
      Building s .opened (startCode longSc ++ headerBits ref typ) t := by
  have hs : Building s s.phase s.buf s := ⟨hready, rfl, rfl, rfl, rfl, rfl⟩
  exact hs.succeeds (i := .nalStart false ref typ longSc) ⟨rfl, rfl⟩
    (Bool.and_eq_true_iff.2 ⟨decide_eq_true href, decide_eq_true htyp⟩) nofun nofun

theorem Building.finalize {s t : State} {b : List Bit} (h : Building s .opened b t)
    (hcap : ∀ c, s.cap = some c → b.length + (trailing b.length).length ≤ c) :
    ∃ t', Succeeds .finalize t t' ∧ Building s .finalized (b ++ trailing b.length) t' := by
  have hfit : t.fits (trailing t.len).length = true := (fits_iff_room _ _).2 fun c hc => by
    rw [State.len, h.buf]
    exact hcap c (h.cap ▸ hc)
  have hstep := h.succeeds (i := .finalize) ⟨h.phase, hfit, rfl⟩ rfl nofun nofun
  rwa [State.len, h.buf] at hstep

/-- `FLUSH` of an aligned unit puts its bytes into the sink (R131). -/
theorem Building.flush {s t : State} {b : List Bit} (h : Building s .finalized b t) (hb : b.length % 8 = 0) :
    ∃ t', Succeeds .flush t t' ∧ t'.phase = .flushed ∧ t'.sink = s.sink ++ pack b ∧ t'.ret = s.ret := by
  obtain ⟨-, hport⟩ := (cmdReady_iff t).1 h.ready
  have heff : Effect .flush t { t.emit .sink (pack t.buf) with phase := .flushed } :=
    ⟨h.phase, by rwa [State.len, h.buf], rfl⟩
  have hdel := deliver_sink_emit (State.responded { t.emit .sink (pack t.buf) with phase := .flushed }) (pack t.buf) _
    (by simp [hport]) rfl
  refine ⟨_, ⟨rfl, h.ready, _, heff, rfl⟩, by simp, ?_, ?_⟩
  · rw [hdel, ← h.sink, ← h.buf]; rfl
  · rw [hdel, ← h.ret]; rfl

/-! The bits of a unit and its bytes (R65). -/

/-- Whole bytes in front do not change the trailing bits. -/
theorem trailing_add {k : Nat} (hk : k % 8 = 0) (n : Nat) : trailing (k + n) = trailing n := by
  rw [trailing, trailing, trailingPad_eq, trailingPad_eq, Nat.add_mod, hk, Nat.zero_add, Nat.mod_mod]

theorem startCode_headerBits_length (longSc : Bool) (ref typ : Nat) :
    (startCode longSc ++ headerBits ref typ).length = headerLen longSc := by
  cases longSc <;> simp [headerLen]

theorem headerLen_mod_eight (longSc : Bool) : headerLen longSc % 8 = 0 := by
  cases longSc <;> rfl

/-- Start code and header byte, the payload, and the trailing bits of the whole: packed, they are the unit of R65. -/
theorem pack_unit (longSc : Bool) {ref typ : Nat} (href : ref < 4) (htyp : typ < 32) (payload : List Bit) :
    pack (startCode longSc ++ headerBits ref typ ++ payload ++ trailing payload.length) =
      unitBytes longSc ref typ payload := by
  have halign : (startCode longSc ++ headerBits ref typ).length % 8 = 0 := by
    rw [startCode_headerBits_length, headerLen_mod_eight]
  rw [List.append_assoc, pack_append _ _ halign, pack_startCode_headerBits longSc href htyp, unitBytes]

/-- `NAL_START`, legal appends with room, `FINALIZE` and `FLUSH` run through from every ready state and put one unit in the output
format into the sink (R120, R134). -/
theorem runs_unit {s : State} {longSc : Bool} {ref typ : Nat} {is : List Instr} (hready : cmdReady s = true)
    (href : ref < 4) (htyp : typ < 32) (hlegal : ∀ i ∈ is, legalAppend i = true ∧ i.wf = true)
    (hcap : ∀ c, s.cap = some c → unitLen longSc is ≤ c) :
    ∃ t, Runs (.nalStart false ref typ longSc :: is ++ [.finalize, .flush]) s t ∧ t.phase = .flushed ∧
      t.sink = s.sink ++ unitBytes longSc ref typ (payloadBits is) ∧ t.ret = s.ret := by
  have hheader := startCode_headerBits_length longSc ref typ
  have hbits : (startCode longSc ++ headerBits ref typ ++ payloadBits is).length =
      headerLen longSc + (payloadBits is).length := by rw [List.length_append, hheader]
  have htrailing := trailing_add (headerLen_mod_eight longSc) (payloadBits is).length
  rw [unitLen, List.length_append] at hcap
  obtain ⟨t₁, hstart, hb₁⟩ := Building.nalStart hready longSc href htyp
  obtain ⟨t₂, happends, hb₂⟩ := hb₁.appends hlegal fun c hc => by
    have hle := hcap c hc
    omega
  obtain ⟨t₃, hfinal, hb₃⟩ := hb₂.finalize fun c hc => by
    have hle := hcap c hc
    rw [hbits, htrailing]
    omega
  obtain ⟨t₄, hflush, hphase, hsink, hret⟩ := hb₃.flush (append_trailing_aligned _)
  rw [hbits, htrailing, pack_unit longSc href htyp] at hsink
  exact ⟨t₄, .cons hstart (happends.append (.cons hfinal (.single hflush))), hphase, hsink, hret⟩

/-- Settles O54: the commands of the unit run through (`runs_unit`), and a run that succeeds adds no fault bit and one success
response for each command. -/
theorem flushedUnitHasOutputFormat : Obligations.FlushedUnitHasOutputFormat := by
  intro s longSc ref typ is hready href htyp hlegal hcap
  obtain ⟨t, hruns, hphase, hsink, hret⟩ := runs_unit hready href htyp hlegal hcap
  have hlen : (Instr.nalStart false ref typ longSc :: is ++ [Instr.finalize, Instr.flush]).length = is.length + 3 := by simp
  have hsteps := hruns.steps
  have hresponses := hruns.responses
  rw [hlen] at hsteps hresponses
  exact ⟨t, hsteps, hsink, hret, hruns.faults_eq, hphase, hruns.moves_eq, hruns.ready hready, hresponses⟩

end Sys2Proof.Machine

/-! ### Runs of the host driver (44_parameter_set_sequences.md sections 5 and 6) -/

namespace Sys2Proof.Driver

open Sys2Proof.Machine Sys2Proof.Spec

/-- A command the driver issues is a span of its word, put before the host's moves. -/
theorem issue_eq_step (i : Instr) (s : State) : issue i s = step (s.withMoves [.command (encode i)]) := rfl

theorem lastOk_of_responses {s : State} {rs : List Response} {r : Response} (h : s.responses = rs ++ [r]) :
    lastOk s = (r.status == 0) := by
  simp [lastOk, h]

/-- The driver goes on over commands that succeed (R153). -/
theorem drive_of_runs {is : List Instr} {s t : State} (h : Runs is s t) : drive is s = .next t := by
  induction h with
  | nil => rfl
  | cons hi _ ih =>
    obtain ⟨-, n, hn⟩ := hi.response
    have hok := lastOk_of_responses hn
    rw [drive, issue_eq_step, hi.step []]
    exact (if_pos hok).trans ih

/-- The driver stops at the first command whose status is not zero, or goes on with the rest (R153). -/
theorem drive_cons_next {i : Instr} {is : List Instr} {s t : State} (h : drive (i :: is) s = .next t) :
    ∃ u, issue i s = .next u ∧ (lastOk u = true ∧ drive is u = .next t ∨ lastOk u = false ∧ t = u) := by
  rw [drive] at h
  split at h
  next u hu =>
    split at h
    next hok => exact ⟨u, hu, .inl ⟨hok, h⟩⟩
    next hok => exact ⟨u, hu, .inr ⟨Bool.eq_false_of_not_eq_true hok, (Host.Outcome.next.inj h).symm⟩⟩
  next => cases h
  next => cases h

/-! Exports that fail on the way (R153). -/

/-- The word of a command keeps its opcode, operands out of range or not, so only `FLUSH`'s decodes to `FLUSH`. -/
theorem eq_flush_of_decode_encode {i : Instr} (h : decode (encode i) = .legal .flush) : i = .flush := by
  rw [encode, decode_mkWord] at h
  obtain ⟨hop, -⟩ := decodeFields_cases _ _ _ _ h
  cases i with
  | flush => rfl
  | beNew | nalStart | appendBit | appendBits | appendUe | appendSe | bitLength | toBytes | finalize =>
    simp [Instr.opcode] at hop

/-- A command the driver issues leaves the block ready, and leaves the sink as it was unless it is a `FLUSH` that succeeds. -/
theorem issue_sink {i : Instr} {s t : State} (hready : cmdReady s = true) (h : issue i s = .next t) :
    cmdReady t = true ∧ (t.sink ≠ s.sink → i = .flush ∧ lastOk t = true) := by
  rw [issue_eq_step] at h
  obtain ⟨_, _, -, -, -, -, hready'⟩ := step_command_next (s := s.withMoves [.command (encode i)]) hready rfl h
  refine ⟨hready', fun hne => ?_⟩
  obtain ⟨hw, u, -, rfl⟩ := step_command_sink (s := s.withMoves [.command (encode i)]) hready rfl h hne
  obtain ⟨-, hresp⟩ := deliver_response (State.responded_rspPort u)
  exact ⟨eq_flush_of_decode_encode hw, lastOk_of_responses hresp⟩

/-- Settles O59, by induction on the commands: before the `FLUSH` no command reaches the sink (`issue_sink`), and the `FLUSH` is
issued only after successes and then fails itself. -/
theorem failedExportSendsNothing : Obligations.FailedExportSendsNothing := by
  intro is s t hready hmem h hfail
  induction is generalizing s with
  | nil =>
    obtain ⟨u, hu, hrest⟩ := drive_cons_next h
    obtain rfl : u = t := by
      obtain ⟨-, ht⟩ | ⟨-, ht⟩ := hrest
      · exact Host.Outcome.next.inj ht
      · exact ht.symm
    obtain ⟨-, hsink⟩ := issue_sink hready hu
    by_contra hne
    obtain ⟨-, hok⟩ := hsink hne
    cases hok.symm.trans hfail
  | cons i is ih =>
    obtain ⟨hi, his⟩ := List.ne_and_not_mem_of_not_mem_cons hmem
    obtain ⟨u, hu, hrest⟩ := drive_cons_next h
    obtain ⟨hready', hsink⟩ := issue_sink hready hu
    have hkeep : u.sink = s.sink := by
      by_contra hne
      obtain ⟨rfl, -⟩ := hsink hne
      exact hi rfl
    obtain ⟨-, hdrive⟩ | ⟨-, rfl⟩ := hrest
    · exact (ih u hready' his hdrive).trans hkeep
    · exact hkeep

/-! The expansions, and exports that run to their end (R145, R150). -/

theorem expand_of_carried {sc ref typ : Nat} {codes : List FieldCode} (hheader : headerLegal sc ref typ = true)
    (hcodes : codes.all FieldCode.carried = true) :
    expand sc ref typ codes = .commands (nalStart sc ref typ :: codes.map FieldCode.command ++ [.finalize, .flush]) := by
  rw [expand, hheader, hcodes]
  rfl

theorem spsExport_of_carried {f : SpsFields} (hs : f.unsupported = false) (hheader : headerLegal f.sc f.ref f.typ = true)
    (hcodes : f.codes.all FieldCode.carried = true) :
    spsExport f = .commands (nalStart f.sc f.ref f.typ :: f.payload ++ [.finalize, .flush]) := by
  rw [spsExport, hs]
  exact expand_of_carried hheader hcodes

theorem ppsExport_of_carried {f : PpsFields} (hzero : f.numSliceGroupsMinus1 = 0)
    (hheader : headerLegal f.sc f.ref f.typ = true) (hcodes : f.codes.all FieldCode.carried = true) :
    ppsExport f = .commands (nalStart f.sc f.ref f.typ :: f.payload ++ [.finalize, .flush]) := by
  rw [ppsExport, PpsFields.unsupported, hzero]
  exact expand_of_carried hheader hcodes

/-- The flags an exported SPS has fixed (R146). -/
theorem SpsFields.flags_of_supported {f : SpsFields} (hs : f.unsupported = false) :
    f.frameMbsOnly = true ∧ f.cropping = false ∧ f.vui = false := by
  simp only [SpsFields.unsupported, Bool.or_eq_false_iff, Bool.not_eq_false'] at hs
  obtain ⟨⟨⟨-, hmbs⟩, hcrop⟩, hvui⟩ := hs
  exact ⟨hmbs, hcrop, hvui⟩

theorem carried_of_all_legal {codes : List FieldCode} (h : codes.all FieldCode.legal = true) :
    codes.all FieldCode.carried = true :=
  List.all_eq_true.2 fun c hc => c.carried_of_legal (List.all_eq_true.1 h c hc)

/-- The command of a field in its domain is a legal append (R142). -/
theorem FieldCode.command_legalAppend (c : FieldCode) (h : c.legal = true) : legalAppend c.command = true := by
  cases c with
  | u n v =>
    simp only [FieldCode.legal, uLegal, Bool.and_eq_true, decide_eq_true_eq] at h
    obtain ⟨⟨⟨-, hv⟩, hlt⟩, -⟩ := h
    have hraw : v.toNat < 2 ^ n := (Int.toNat_lt hv).2 (by exact_mod_cast hlt)
    simpa [FieldCode.command, Driver.u, legalAppend] using hraw
  | flag b => cases b <;> rfl
  | ue v => exact decide_eq_true ((ueLegal_iff v).1 h).1
  | se v => rfl

/-- The payload commands of fields in their domains are legal appends a word can carry. -/
theorem legalAppend_of_mem_payload {codes : List FieldCode} (h : codes.all FieldCode.legal = true) (i : Instr)
    (hi : i ∈ codes.map FieldCode.command) : legalAppend i = true ∧ i.wf = true := by
  obtain ⟨c, hc, rfl⟩ := List.mem_map.1 hi
  have hlegal := List.all_eq_true.1 h c hc
  exact ⟨c.command_legalAppend hlegal, c.command_wf (c.carried_of_legal hlegal)⟩

theorem headerLegal_ranges {sc ref typ : Nat} (h : headerLegal sc ref typ = true) : ref < 4 ∧ typ < 32 := by
  simp only [headerLegal, Bool.and_eq_true, decide_eq_true_eq] at h
  obtain ⟨⟨-, href⟩, htyp⟩ := h
  exact ⟨href, htyp⟩

/-- The driver's run of the commands of a unit whose fields are in their domains, with room for it. -/
theorem drive_unit {s : State} {sc ref typ : Nat} {codes : List FieldCode} (hready : cmdReady s = true)
    (hheader : headerLegal sc ref typ = true) (hcodes : codes.all FieldCode.legal = true)
    (hcap : ∀ c, s.cap = some c → unitLen (sc == 4) (codes.map FieldCode.command) ≤ c) :
    ∃ t, drive (nalStart sc ref typ :: codes.map FieldCode.command ++ [.finalize, .flush]) s = .next t ∧
      t.phase = .flushed ∧ t.faults = s.faults ∧
      t.sink = s.sink ++ unitBytes (sc == 4) ref typ (payloadBits (codes.map FieldCode.command)) := by
  obtain ⟨href, htyp⟩ := headerLegal_ranges hheader
  obtain ⟨t, hruns, hphase, hsink, -⟩ := runs_unit hready href htyp (legalAppend_of_mem_payload hcodes) hcap
  exact ⟨t, drive_of_runs hruns, hphase, hruns.faults_eq, hsink⟩

/-- Settles O58: the expansions are the field codes one by one, and a run with every field in its domain is that of a unit of at
most 512 bits (O57). -/
theorem legalExportDeliversOneUnit : Obligations.LegalExportDeliversOneUnit := by
  obtain ⟨hspsLen, hppsLen, -, -⟩ := exportsAreBounded
  refine ⟨fun f hs hheader hcodes => ?_, fun f hzero hheader hcodes => ?_, fun f s hlegal hs hready hcap => ?_,
    fun f s hlegal hs hready hcap => ?_⟩
  · obtain ⟨hmbs, hcrop, hvui⟩ := SpsFields.flags_of_supported hs
    rw [spsExport_of_carried hs hheader hcodes, SpsFields.payload, SpsFields.codes, hmbs, hcrop, hvui]
    split <;> rfl
  · rw [ppsExport_of_carried hzero hheader hcodes, PpsFields.payload, PpsFields.codes, hzero]
    rfl
  · obtain ⟨hheader, hcodes⟩ := Bool.and_eq_true_iff.1 hlegal
    obtain ⟨hlen, -⟩ := hspsLen f hlegal hs
    obtain ⟨t, hrun⟩ := drive_unit hready hheader hcodes fun c hc => hlen.trans (hcap c hc)
    refine ⟨_, t, spsExport_of_carried hs hheader (carried_of_all_legal hcodes), ?_, hrun⟩
    rw [SpsFields.payload, SpsFields.codes]
    split <;> rfl
  · obtain ⟨hheader, hcodes⟩ := Bool.and_eq_true_iff.1 hlegal
    obtain ⟨hlen, -⟩ := hppsLen f hlegal hs
    obtain ⟨t, hrun⟩ := drive_unit hready hheader hcodes fun c hc => (hlen.trans (by decide)).trans (hcap c hc)
    have hzero := PpsFields.numSliceGroupsMinus1_eq_zero hcodes hs
    exact ⟨_, t, ppsExport_of_carried hzero hheader (carried_of_all_legal hcodes), rfl, hrun⟩

/-! The setters (R141, R142, R144). -/

theorem uLegal_iff {w : Nat} (hw : w ≤ 32) (v : Int) : uLegal w v = true ↔ uDomain w v := by
  have hpow : (2 : Int) ^ w ≤ 2 ^ 32 := pow_le_pow_right₀ (by decide) hw
  simp only [uLegal, uDomain, Bool.and_eq_true, decide_eq_true_eq]
  constructor
  · rintro ⟨⟨⟨-, hge⟩, hlt⟩, -⟩
    exact ⟨hge, hlt⟩
  · rintro ⟨hge, hlt⟩
    exact ⟨⟨⟨by omega, hge⟩, hlt⟩, hlt.trans_le hpow⟩

/-- A multiple of 16 above 0 gives a field value of 0 or more, so the domain asks for its upper bound only (R144). -/
theorem pixelsLegal_iff (n : Int) : pixelsLegal n = true ↔ pixelDomain n := by
  simp only [pixelsLegal, pixelDomain, Bool.and_eq_true, decide_eq_true_eq, beq_iff_eq, ueLegal_iff]
  omega

/-- A numeric setter whose check is the field's domain takes the integers in it and refuses every other number (R141). -/
theorem setInt_obeys {α : Type} {legal : Int → Bool} {domain : Int → Prop} (update : α → Int → α)
    (h : ∀ n, legal n = true ↔ domain n) : setterObeys (fun f v => setInt legal f (update f) v) domain update := by
  refine fun f v => ⟨?_, fun hv => setInt_refused legal f (update f) v fun n hn => ?_⟩
  · rintro n rfl hn
    exact setInt_legal legal f (update f) n ((h n).2 hn)
  · exact Bool.eq_false_iff.2 ((h n).not.2 (hv n hn))

/-- Settles O60: every numeric setter is a `setInt` with its field's domain (`setInt_obeys`), a flag setter takes what it is given,
and the level setter is told by `setLevelNumber_int` and `setLevelNumber_cases`. -/
theorem settersTakeDomainOrRefuse : Obligations.SettersTakeDomainOrRefuse := by
  have hu8 := @uLegal_iff 8 (by decide)
  refine ⟨setInt_obeys _ hu8, setInt_obeys _ ueLegal_iff, setInt_obeys _ ueLegal_iff, setInt_obeys _ ueLegal_iff,
    setInt_obeys _ ueLegal_iff, setInt_obeys _ ueLegal_iff, setInt_obeys _ pixelsLegal_iff, setInt_obeys _ pixelsLegal_iff,
    setInt_obeys _ ueLegal_iff, setInt_obeys _ ueLegal_iff, setInt_obeys _ ueLegal_iff, setInt_obeys _ ueLegal_iff,
    setInt_obeys _ ueLegal_iff, setInt_obeys _ (uLegal_iff (w := 2) (by decide)), setInt_obeys _ seLegal_iff,
    setInt_obeys _ seLegal_iff, setInt_obeys _ seLegal_iff,
    fun f b => ⟨rfl, rfl, rfl, rfl, rfl, rfl, rfl, rfl⟩, fun f b => ⟨rfl, rfl, rfl, rfl, rfl, rfl⟩,
    fun f n => ?_, fun f level => ?_⟩
  · rw [setLevelNumber_int, ← hu8]
    exact ⟨fun h => if_pos h, fun h => if_neg h⟩
  · refine (setLevelNumber_cases f level).imp_right ?_
    rintro ⟨n, hn, hset⟩
    exact ⟨n, (hu8 n).1 hn, hset⟩

end Sys2Proof.Driver
